-- ==== Sys2Proof/Word.lean ====
section
/-! DEFINITION. The bit-vector widths of the block: 16-bit words and port values, 8-bit packet bytes,
4-bit nibbles (00_scope.md R10). -/

namespace Sys2Proof

/-- A logical word or the value of one port: 16 bits (00_scope.md R6 WORD_WIDTH, R10). -/
abbrev Word := BitVec 16

/-- One byte of a control packet (00_scope.md R10). -/
abbrev Byte := BitVec 8

/-- A 4-bit field of byte 0 of a control packet: its opcode or its field N (30_encoding.md R80). -/
abbrev Nibble := BitVec 4

end Sys2Proof
end

