-- ==== Sys2Proof/Config.lean ====
section
/-! DEFINITION. What is fixed when the block is built: the constants the source fixes, the open
parameters of 00_scope.md R6 as the fields of `Config`, their constraints, the reference
configuration, and the free values (opaque constants) for what the spec leaves unspecified. -/

namespace Sys2Proof

/-- The two physical 16-bit GPIO banks (00_scope.md R12). -/
inductive Port where
  | A
  | B
  deriving DecidableEq, Repr

/-- One physical position: a port and a bit of it (30_encoding.md R70). -/
structure Pin where
  port : Port
  bit : Fin 16
  deriving DecidableEq, Repr

/-- BITBUS_MAP: the physical position of each logical bit (30_encoding.md R70). -/
abbrev BitMap := Vector Pin 16

/-- WFM_STRAY_POLICY (00_scope.md R6, 90_conflicts.md C2). -/
inductive StrayPolicy where
  | ignore
  | resync
  deriving DecidableEq, Repr

/-- WIRE_MODE (00_scope.md R6, 30_encoding.md R86). -/
inductive WireMode where
  | logical
  | full64
  deriving DecidableEq, Repr

/-- The open parameters of 00_scope.md R6, one field each, and the declared index range; fixed when the block
is built (10_state.md R23). -/
structure Config where
  /-- BITBUS_MAP -/
  bitMap : BitMap
  /-- MAX_PARAMS -/
  maxParams : Nat
  /-- WFM_STRAY_POLICY -/
  strayPolicy : StrayPolicy
  /-- OP_LED_ON -/
  opLedOn : Nibble
  /-- OP_LED_OFF -/
  opLedOff : Nibble
  /-- OP_ENABLE_GENERATOR -/
  opEnableGenerator : Nibble
  /-- OP_DISABLE_GENERATOR -/
  opDisableGenerator : Nibble
  /-- OP_PARAMS -/
  opParams : Nibble
  /-- OP_ERROR -/
  opError : Nibble
  /-- LEN_ENABLE_GENERATOR -/
  lenEnableGenerator : Nat
  /-- LEN_DISABLE_GENERATOR -/
  lenDisableGenerator : Nat
  /-- LEN_VERSION -/
  lenVersion : Nat
  /-- LEN_ERROR -/
  lenError : Nat
  /-- WIRE_MODE -/
  wireMode : WireMode
  /-- STROBE_ACTIVE -/
  strobeActive : Bool
  /-- HOST_RETRY_BUDGET -/
  hostRetryBudget : Nat
  /-- HOST_TIMEOUT; in no unit, since the spec times nothing (70_reset_and_hazards.md R241) -/
  hostTimeout : Nat
  /-- the declared range of parameter indices, which 42_control_packets.md R174 names and no file of the spec
  gives (notes/assumptions/24.md) -/
  declaredIndices : List Nibble
  deriving DecidableEq, Repr

/-- SENTINEL, fixed by the source (00_scope.md R6). -/
def sentinel : Word := 0x5555#16

/-- QUEUE_DEPTH, fixed by the source (00_scope.md R6). -/
def queueDepth : Nat := 5

/-- PKT_CAPACITY in bytes, fixed by the source (00_scope.md R6). -/
def pktCapacity : Nat := 64

/-- The largest n whose Params packet fits PKT_CAPACITY (42_control_packets.md R163). -/
def maxPacketParams : Nat := 31

/-- The opcode of GetVersion and of Version (30_encoding.md R82, R84). -/
def opVersion : Nibble := 0x1#4

/-- The opcode of Ping and of Pong (30_encoding.md R82, R84). -/
def opPing : Nibble := 0x2#4

/-- The opcode of SetParam (30_encoding.md R82). -/
def opSetParam : Nibble := 0x4#4

/-- The opcode of GetParam (30_encoding.md R82). -/
def opGetParam : Nibble := 0x5#4

/-- The opcode no packet of either direction uses (30_encoding.md R83). -/
def opNever : Nibble := 0xF#4

/-- The logical bit positions 0 to 15 in ascending order (40_bitbus.md R100). -/
def logicalBits : List (Fin 16) := [0, 1, 2, 3, 4, 5, 6, 7, 8, 9, 10, 11, 12, 13, 14, 15]

/-- Constraint K1 of 30_encoding.md R71: no two logical bits share a physical position. -/
abbrev BitMap.Injective (m : BitMap) : Prop := ∀ i j : Fin 16, m[i] = m[j] → i = j

/-- Constraint K2 of 30_encoding.md R71: bits 0 to 6 and 15 keep their index. -/
abbrev BitMap.KeepsIndex (m : BitMap) : Prop := ∀ i : Fin 16, i.val ≤ 6 ∨ i.val = 15 → m[i].bit = i

/-- Constraint K3 of 30_encoding.md R71: bits 7, 8, 9 lie on bits 0, 1, 2 of one port. -/
abbrev BitMap.LowGroup (m : BitMap) : Prop :=
  m[7].bit = 0 ∧ m[8].bit = 1 ∧ m[9].bit = 2 ∧ m[7].port = m[8].port ∧ m[8].port = m[9].port

/-- A BITBUS_MAP that 30_encoding.md R71 admits (K4 adds no constraint). -/
abbrev BitMap.Admitted (m : BitMap) : Prop := m.Injective ∧ m.KeepsIndex ∧ m.LowGroup

/-- The eight request opcodes of 30_encoding.md R82. -/
def Config.requestOpcodes (c : Config) : List Nibble :=
  [opVersion, opPing, opSetParam, opGetParam,
    c.opLedOn, c.opLedOff, c.opEnableGenerator, c.opDisableGenerator]

/-- The four response opcodes of 30_encoding.md R84. -/
def Config.responseOpcodes (c : Config) : List Nibble := [opVersion, opPing, c.opParams, c.opError]

/-- The opcode constraints of 30_encoding.md R83. -/
abbrev Config.OpcodesAdmitted (c : Config) : Prop :=
  c.requestOpcodes.Nodup ∧ opNever ∉ c.requestOpcodes ∧
    c.responseOpcodes.Nodup ∧ opNever ∉ c.responseOpcodes

/-- A packet length 00_scope.md R6 admits: 1 to 64. -/
abbrev lengthAdmitted (l : Nat) : Prop := 1 ≤ l ∧ l ≤ pktCapacity

/-- A configuration the spec admits: R6 of 00_scope.md with R71 and R83 of 30_encoding.md; the upper
bound of MAX_PARAMS is that of 42_control_packets.md R163 (92_eei_decisions.md D22). -/
abbrev Config.Admitted (c : Config) : Prop :=
  c.bitMap.Admitted ∧ (1 ≤ c.maxParams ∧ c.maxParams ≤ maxPacketParams) ∧ c.OpcodesAdmitted ∧
    (lengthAdmitted c.lenEnableGenerator ∧ lengthAdmitted c.lenDisableGenerator ∧
      lengthAdmitted c.lenVersion ∧ lengthAdmitted c.lenError)

/-- REF_MAP (30_encoding.md R72): the spec's own choice, used by its vectors only. -/
def refMap : BitMap :=
  #v[⟨.A, 0⟩, ⟨.A, 1⟩, ⟨.A, 2⟩, ⟨.A, 3⟩, ⟨.A, 4⟩, ⟨.A, 5⟩, ⟨.A, 6⟩,
    ⟨.B, 0⟩, ⟨.B, 1⟩, ⟨.B, 2⟩, ⟨.B, 5⟩, ⟨.B, 8⟩, ⟨.B, 9⟩, ⟨.B, 10⟩, ⟨.B, 11⟩, ⟨.A, 15⟩]

/-- The REF column of 00_scope.md R6: no claim about the original hardware. HOST_TIMEOUT is 'any'
there; 0 stands for it and no rule computes with it. The column has no declared index range; every index a
packet can name stands for it (DESIGN CHOICES, unsafe if a statement leaned on them;
notes/assumptions/1.md, 24.md). -/
def Config.ref : Config where
  bitMap := refMap
  maxParams := 16
  strayPolicy := .ignore
  opLedOn := 0x6#4
  opLedOff := 0x7#4
  opEnableGenerator := 0x8#4
  opDisableGenerator := 0x9#4
  opParams := 0xA#4
  opError := 0xB#4
  lenEnableGenerator := 8
  lenDisableGenerator := 1
  lenVersion := 4
  lenError := 2
  wireMode := .logical
  strobeActive := true
  hostRetryBudget := 3
  hostTimeout := 0
  declaredIndices := (List.range 16).map (BitVec.ofNat 4)

/-- Free value: entry `k` of DATA when draw `d` enters ReadParams; "DATA entries unspecified until
written" (10_state.md R29; notes/assumptions/4.md, safe). -/
opaque Config.freeData (d k : Nat) : Word

/-- Free value: what the pins of a port carry at unmapped positions after draw `d`
(30_encoding.md R74; notes/assumptions/5.md, safe). -/
opaque Config.freePins (d : Nat) (p : Port) : Word

/-- Free value: true when draw `d` writes port A first (20_memory.md R60; notes/assumptions/6.md, safe). -/
opaque Config.freePortAFirst (d : Nat) : Bool

/-- Free value: the payload of the Pong of draw `d` (42_control_packets.md R162; notes/assumptions/7.md, safe). -/
opaque Config.freePongPayload (d : Nat) : Nibble

/-- Free value: the version byte of the Pong of draw `d` (42_control_packets.md R162; notes/assumptions/7.md, safe). -/
opaque Config.freePongVersion (d : Nat) : Byte

/-- Free value: the field N of the Version of draw `d` (42_control_packets.md R161; notes/assumptions/7.md, safe). -/
opaque Config.freeVersionN (d : Nat) : Nibble

/-- Free value: byte `k` of the body of the Version of draw `d` (42_control_packets.md R161;
notes/assumptions/7.md, safe). -/
opaque Config.freeVersionByte (d k : Nat) : Byte

/-- Free value: true when the short host write of draw `d` is resumed and not restarted
(42_control_packets.md R173; notes/assumptions/8.md, safe). -/
opaque Config.freeHostResumes (d : Nat) : Bool

/-- Free value: the vendor identifier the host's typed error names; its value is in no file of the
spec (42_control_packets.md R173; 16 bits PRESUMED from USB, notes/assumptions/9.md, safe). -/
opaque Config.usbVendorId : BitVec 16

/-- Free value: the product identifier the host's typed error names (42_control_packets.md R173;
16 bits PRESUMED from USB, notes/assumptions/9.md, safe). -/
opaque Config.usbProductId : BitVec 16

end Sys2Proof
end

