-- ==== Sys2Proof/Syntax.lean ====
section
/-! DEFINITION. The operations of the block, one constructor of `Instr` per row of
spec/opcode_table.json; the packet variants they carry; and the stimuli (30_encoding.md R87) from
which the decoder selects them. -/

namespace Sys2Proof

/-- A request variant, host to device (30_encoding.md R82). Unknown is the absence of one. -/
inductive Request where
  | getVersion
  | ping (payload : Nibble) (version : Byte)
  | setParam (index : Nibble) (value : Word)
  | getParam (index : Nibble)
  | ledOn
  | ledOff
  | enableGenerator (n : Nibble) (body : List Byte)
  | disableGenerator (n : Nibble) (body : List Byte)
  deriving DecidableEq, Repr

/-- A response variant, device to host (30_encoding.md R84). The n of Params is the length of its
list of values. -/
inductive Response where
  | version (n : Nibble) (body : List Byte)
  | pong (payload : Nibble) (version : Byte)
  | params (values : List Word)
  | error (n : Nibble) (body : List Byte)
  deriving DecidableEq, Repr

/-- A control packet as a decode yields it: a variant of one direction, or Unknown
(42_control_packets.md R165). -/
inductive Packet where
  | request (r : Request)
  | response (r : Response)
  | unknown
  deriving DecidableEq, Repr

/-- The direction of a packet (30_encoding.md R81). -/
inductive Direction where
  | request
  | response
  deriving DecidableEq, Repr

/-- What the transport comes to answer one USB.RX beside what it already holds (42_control_packets.md R170). -/
inductive RxInput where
  /-- nothing: `poll()` would block once the answers already there are used -/
  | pollBlocked
  /-- a `poll()` that is false: nothing to service -/
  | quiet
  /-- a `poll()` that is true and no packet: `read` would block once the answers already there are used -/
  | readBlocked
  /-- a `poll()` that is true and these bytes as one packet -/
  | packet (bytes : List Byte)
  deriving DecidableEq, Repr

/-- The interrupts of the middle tier (60_exceptions.md R204, R205). -/
inductive UsbInterrupt where
  | transmit
  | receive
  deriving DecidableEq, Repr

/-- One host transfer (42_control_packets.md R173, the TXH and RXH of 30_encoding.md R87). -/
inductive HostOp where
  /-- TXH: encode the request and write it -/
  | txh (r : Request)
  /-- RXH: the host's transport receives these bytes as one packet and the host reads it -/
  | rxh (bytes : List Byte)
  /-- the host reads, and this stimulus brings no packet -/
  | rxhBlocked
  deriving DecidableEq, Repr

/-- The operations of the block: one constructor per row of spec/opcode_table.json, in its order. -/
inductive Instr where
  /-- BB.DECODE (40_bitbus.md R100) -/
  | bbDecode (a b : Word)
  /-- BB.ENCODE (40_bitbus.md R101) -/
  | bbEncode (w : Word)
  /-- BB.SAMPLE (40_bitbus.md R102) -/
  | bbSample (a b : Word)
  /-- BB.EMIT (40_bitbus.md R103) -/
  | bbEmit (w : Word)
  /-- FSM.ADVANCE.DM (41_frame.md R121) -/
  | fsmAdvanceDm (w : Word)
  /-- FSM.ADVANCE.DPC.count (41_frame.md R122) -/
  | fsmAdvanceDpcCount (w : Word)
  /-- FSM.ADVANCE.DPC.sentinel (41_frame.md R123); its word is the sentinel -/
  | fsmAdvanceDpcSentinel
  /-- FSM.ADVANCE.WFM (41_frame.md R124) -/
  | fsmAdvanceWfm (w : Word)
  /-- FSM.ADVANCE.RP (41_frame.md R125) -/
  | fsmAdvanceRp (w : Word)
  /-- FSM.EMIT (41_frame.md R126) -/
  | fsmEmit (frame : List Word)
  /-- FSM.POP (41_frame.md R127) -/
  | fsmPop
  /-- PKT.REQ.GetVersion (42_control_packets.md R153) -/
  | reqGetVersion
  /-- PKT.REQ.Ping (42_control_packets.md R154) -/
  | reqPing (payload : Nibble) (version : Byte)
  /-- PKT.REQ.SetParam (42_control_packets.md R155) -/
  | reqSetParam (index : Nibble) (value : Word)
  /-- PKT.REQ.GetParam (42_control_packets.md R156) -/
  | reqGetParam (index : Nibble)
  /-- PKT.REQ.LedOn (42_control_packets.md R157) -/
  | reqLedOn
  /-- PKT.REQ.LedOff (42_control_packets.md R158) -/
  | reqLedOff
  /-- PKT.REQ.EnableGenerator (42_control_packets.md R159) -/
  | reqEnableGenerator (n : Nibble) (body : List Byte)
  /-- PKT.REQ.DisableGenerator (42_control_packets.md R160) -/
  | reqDisableGenerator (n : Nibble) (body : List Byte)
  /-- PKT.RSP.Version (42_control_packets.md R161) -/
  | rspVersion (n : Nibble) (body : List Byte)
  /-- PKT.RSP.Pong (42_control_packets.md R162) -/
  | rspPong (payload : Nibble) (version : Byte)
  /-- PKT.RSP.Params (42_control_packets.md R163) -/
  | rspParams (values : List Word)
  /-- PKT.RSP.Error (42_control_packets.md R164) -/
  | rspError (n : Nibble) (body : List Byte)
  /-- PKT.Unknown (42_control_packets.md R165) -/
  | pktUnknown
  /-- PKT.DECODE_REQ (42_control_packets.md R150) -/
  | pktDecodeReq (pkt : List Byte) (len : Nat)
  /-- PKT.DECODE_RSP (42_control_packets.md R151) -/
  | pktDecodeRsp (pkt : List Byte) (len : Nat)
  /-- PKT.ENCODE (42_control_packets.md R152) -/
  | pktEncode (p : Packet)
  /-- USB.RX (42_control_packets.md R170) -/
  | usbRx (x : RxInput)
  /-- USB.TX (42_control_packets.md R171) -/
  | usbTx (p : Response)
  /-- USB.HOST (42_control_packets.md R173) -/
  | usbHost (op : HostOp)
  deriving DecidableEq, Repr

/-- The sequencing state of the Frame State Machine, TAG (10_state.md R27). -/
inductive Tag where
  | dm
  | dpc
  | wfm
  | rp
  deriving DecidableEq, Repr

/-- What starts one operation of the block: the stimulus forms of 30_encoding.md R87, and beside them a
form for each pure function and internal operation of the opcode table and for the interrupts of the middle
tier (DESIGN CHOICE, notes/assumptions/2.md). Only bus words and control packets carry an encoding (30_encoding.md). -/
inductive Stimulus where
  /-- a call of BB.DECODE on a port pair -/
  | bitbusPair (a b : Word)
  /-- a call of BB.ENCODE on a logical word -/
  | bitbusWord (w : Word)
  /-- `SAMPLE a, b`: one bus event -/
  | sample (a b : Word)
  /-- `EMIT w` -/
  | emit (w : Word)
  /-- `FEED w`: one logical word for the Frame State Machine -/
  | feed (w : Word)
  /-- a completed frame for FSM.EMIT -/
  | frame (f : List Word)
  /-- `POP` -/
  | pop
  /-- the bytes of one packet, at the command task (request) or at the host's caller (response) -/
  | packet (d : Direction) (bytes : List Byte)
  /-- a call of the decoder of a direction on a packet buffer and its length -/
  | decodePacket (d : Direction) (pkt : List Byte) (len : Nat)
  /-- a call of PKT.ENCODE -/
  | encodePacket (p : Packet)
  /-- `RX b0 b1 ...`: one USB-line interrupt -/
  | rx (x : RxInput)
  /-- a USB transmit or receive interrupt, which starts no operation of the table (60_exceptions.md R204) -/
  | usbInterrupt (k : UsbInterrupt)
  /-- `TX Variant(args)` -/
  | tx (p : Response)
  /-- `TXH Variant(args)` and `RXH b0 b1 ...` -/
  | host (op : HostOp)
  deriving DecidableEq, Repr

end Sys2Proof
end

