-- ==== Sys2Proof/WellFormed.lean ====
section
/-! DEFINITION. When an operation's operands are within the widths and bounds the spec gives them. -/

namespace Sys2Proof

/-- A request whose opaque body fills its packet (42_control_packets.md R159, R160). -/
def Request.wellFormed (c : Config) : Request → Bool
  | .enableGenerator _ body => body.length + 1 == c.lenEnableGenerator
  | .disableGenerator _ body => body.length + 1 == c.lenDisableGenerator
  | .getVersion | .ping _ _ | .setParam _ _ | .getParam _ | .ledOn | .ledOff => true

/-- A response whose opaque body fills its packet, or whose n is at most 31
(42_control_packets.md R161, R163, R164). -/
def Response.wellFormed (c : Config) : Response → Bool
  | .version _ body => body.length + 1 == c.lenVersion
  | .pong _ _ => true
  | .params values => values.length ≤ maxPacketParams
  | .error _ body => body.length + 1 == c.lenError

/-- A packet PKT.ENCODE accepts: a well-formed variant, never Unknown (42_control_packets.md R152, R165). -/
def Packet.wellFormed (c : Config) : Packet → Bool
  | .request r => r.wellFormed c
  | .response r => r.wellFormed c
  | .unknown => false

/-- A frame: 1 to MAX_PARAMS words (10_state.md R30). -/
def frameWellFormed (c : Config) (f : List Word) : Bool := 1 ≤ f.length && f.length ≤ c.maxParams

/-- Bytes that fit a packet buffer (10_state.md R33). -/
def bytesFit (bytes : List Byte) : Bool := bytes.length ≤ pktCapacity

/-- A packet buffer and the number of its valid bytes (42_control_packets.md R150). -/
def bufferFits (pkt : List Byte) (len : Nat) : Bool := len ≤ pkt.length && bytesFit pkt

/-- A received packet fits RX_BUF (10_state.md R33). -/
def RxInput.wellFormed : RxInput → Bool
  | .pollBlocked => true
  | .quiet => true
  | .readBlocked => true
  | .packet bytes => bytesFit bytes

/-- A host transfer of a well-formed request, or of a packet that fits a buffer (42_control_packets.md R173). -/
def HostOp.wellFormed (c : Config) : HostOp → Bool
  | .txh r => r.wellFormed c
  | .rxh bytes => bytesFit bytes
  | .rxhBlocked => true

/-- The operands of an operation are within the bounds the spec states for them. -/
def Instr.wellFormed (c : Config) : Instr → Bool
  | .bbDecode _ _ => true
  | .bbEncode _ => true
  | .bbSample _ _ => true
  | .bbEmit _ => true
  | .fsmAdvanceDm _ => true
  | .fsmAdvanceDpcCount w => w != sentinel
  | .fsmAdvanceDpcSentinel => true
  | .fsmAdvanceWfm _ => true
  | .fsmAdvanceRp _ => true
  | .fsmEmit f => frameWellFormed c f
  | .fsmPop => true
  | .reqGetVersion => Request.getVersion.wellFormed c
  | .reqPing p v => (Request.ping p v).wellFormed c
  | .reqSetParam i v => (Request.setParam i v).wellFormed c
  | .reqGetParam i => (Request.getParam i).wellFormed c
  | .reqLedOn => Request.ledOn.wellFormed c
  | .reqLedOff => Request.ledOff.wellFormed c
  | .reqEnableGenerator n body => (Request.enableGenerator n body).wellFormed c
  | .reqDisableGenerator n body => (Request.disableGenerator n body).wellFormed c
  | .rspVersion n body => (Response.version n body).wellFormed c
  | .rspPong p v => (Response.pong p v).wellFormed c
  | .rspParams vs => (Response.params vs).wellFormed c
  | .rspError n body => (Response.error n body).wellFormed c
  | .pktUnknown => true
  | .pktDecodeReq pkt len => bufferFits pkt len
  | .pktDecodeRsp pkt len => bufferFits pkt len
  | .pktEncode p => p.wellFormed c
  | .usbRx x => x.wellFormed
  | .usbTx p => p.wellFormed c
  | .usbHost op => op.wellFormed c

end Sys2Proof
end

