-- ==== Sys2Proof/Decode.lean ====
section
/-! DEFINITION. The packet codec (ENC_ and DEC_ of 42_control_packets.md R150 to R165), the decoder that
selects an operation from a stimulus and the sequencing state, the encoder that writes the stimulus of
an operation, and the host's reading of an opcode-table word. -/

namespace Sys2Proof

/-! ### Fields of a packet (30_encoding.md R80, 20_memory.md R52) -/

/-- Bits [3:0] of a byte (00_scope.md R9). -/
def lowNibble (b : Byte) : Nibble := b.extractLsb' 0 4

/-- Bits [7:4] of a byte (00_scope.md R9). -/
def highNibble (b : Byte) : Nibble := b.extractLsb' 4 4

/-- Byte 0 of a packet: N in bits [7:4], the opcode in bits [3:0] (30_encoding.md R80). -/
def headByte (n op : Nibble) : Byte := n ++ op

/-- Bits [7:0] of a word (20_memory.md R52). -/
def lowByte (w : Word) : Byte := w.extractLsb' 0 8

/-- Bits [15:8] of a word (20_memory.md R52). -/
def highByte (w : Word) : Byte := w.extractLsb' 8 8

/-- `{hi, lo}`: the byte at the lower index holds bits [7:0] (20_memory.md R52). -/
def wordOfBytes (lo hi : Byte) : Word := hi ++ lo

/-- The values of a Params packet as its payload bytes (42_control_packets.md R163). -/
def bytesOfWords : List Word → List Byte
  | [] => []
  | w :: ws => lowByte w :: highByte w :: bytesOfWords ws

/-- The first `n` little-endian values of a payload; none when it has fewer than `2 * n` bytes
(42_control_packets.md R163). -/
def wordsOfBytes : Nat → List Byte → Option (List Word)
  | 0, _ => some []
  | n + 1, lo :: hi :: rest => (wordsOfBytes n rest).map (wordOfBytes lo hi :: ·)
  | _ + 1, _ => none

/-! ### DEC_ functions: `none` is the variant Unknown (42_control_packets.md R165). A packet is given as
its valid bytes, Pkt[0..len-1]; R150: only those are read. -/

/-- N and the opaque body of a packet of length `l`, none when it is shorter
(42_control_packets.md R159 to R161, R164). -/
def decOpaque (l : Nat) (pkt : List Byte) : Option (Nibble × List Byte) :=
  match pkt with
  | [] => none
  | b0 :: rest => if pkt.length < l then none else some (highNibble b0, rest.take (l - 1))

/-- The payload and version of Ping and Pong (42_control_packets.md R154, R162). -/
def decEcho : List Byte → Option (Nibble × Byte)
  | b0 :: b1 :: _ => some (highNibble b0, b1)
  | _ => none

/-- DEC_SetParam (42_control_packets.md R155). -/
def decSetParam : List Byte → Option Request
  | b0 :: b1 :: b2 :: _ => some (.setParam (highNibble b0) (wordOfBytes b1 b2))
  | _ => none

/-- DEC_Params (42_control_packets.md R163). -/
def decParams : List Byte → Option Response
  | _ :: n :: rest =>
    if n.toNat ≤ maxPacketParams then (wordsOfBytes n.toNat rest).map Response.params else none
  | _ => none

/-- PKT.DECODE_REQ (42_control_packets.md R150). -/
def decRequest (c : Config) (pkt : List Byte) : Option Request :=
  match pkt with
  | [] => none
  | b0 :: _ =>
    if lowNibble b0 = opVersion then some .getVersion
    else if lowNibble b0 = opPing then (decEcho pkt).map fun e => .ping e.1 e.2
    else if lowNibble b0 = opSetParam then decSetParam pkt
    else if lowNibble b0 = opGetParam then some (.getParam (highNibble b0))
    else if lowNibble b0 = c.opLedOn then some .ledOn
    else if lowNibble b0 = c.opLedOff then some .ledOff
    else if lowNibble b0 = c.opEnableGenerator then
      (decOpaque c.lenEnableGenerator pkt).map fun e => .enableGenerator e.1 e.2
    else if lowNibble b0 = c.opDisableGenerator then
      (decOpaque c.lenDisableGenerator pkt).map fun e => .disableGenerator e.1 e.2
    else none

/-- PKT.DECODE_RSP (42_control_packets.md R151). -/
def decResponse (c : Config) (pkt : List Byte) : Option Response :=
  match pkt with
  | [] => none
  | b0 :: _ =>
    if lowNibble b0 = opVersion then (decOpaque c.lenVersion pkt).map fun e => .version e.1 e.2
    else if lowNibble b0 = opPing then (decEcho pkt).map fun e => .pong e.1 e.2
    else if lowNibble b0 = c.opParams then decParams pkt
    else if lowNibble b0 = c.opError then (decOpaque c.lenError pkt).map fun e => .error e.1 e.2
    else none

/-! ### ENC_ functions: the L bytes of the packet of a variant -/

/-- ENC_ of each request variant (42_control_packets.md R153 to R160). -/
def encRequest (c : Config) : Request → List Byte
  | .getVersion => [headByte 0#4 opVersion]
  | .ping payload version => [headByte payload opPing, version]
  | .setParam index value => [headByte index opSetParam, lowByte value, highByte value]
  | .getParam index => [headByte index opGetParam]
  | .ledOn => [headByte 0#4 c.opLedOn]
  | .ledOff => [headByte 0#4 c.opLedOff]
  | .enableGenerator n body => headByte n c.opEnableGenerator :: body
  | .disableGenerator n body => headByte n c.opDisableGenerator :: body

/-- ENC_ of each response variant (42_control_packets.md R161 to R164). -/
def encResponse (c : Config) : Response → List Byte
  | .version n body => headByte n opVersion :: body
  | .pong payload version => [headByte payload opPing, version]
  | .params values => headByte 0#4 c.opParams :: BitVec.ofNat 8 values.length :: bytesOfWords values
  | .error n body => headByte n c.opError :: body

/-- The bytes of a variant; Unknown has none (42_control_packets.md R152, R165). -/
def encPacket (c : Config) : Packet → Option (List Byte)
  | .request r => some (encRequest c r)
  | .response r => some (encResponse c r)
  | .unknown => none

/-- A packet in its 64-byte buffer: bytes L to 63 are 0 (42_control_packets.md R152). -/
def padPacket (bytes : List Byte) : List Byte := bytes ++ List.replicate (pktCapacity - bytes.length) 0#8

/-- The bytes a packet has on the wire (30_encoding.md R86). -/
def wireBytes (c : Config) (bytes : List Byte) : List Byte :=
  match c.wireMode with
  | .logical => bytes
  | .full64 => padPacket bytes

/-- The decoder of a direction as a packet (30_encoding.md R81). -/
def decPacket (c : Config) (d : Direction) (pkt : List Byte) : Packet :=
  match d with
  | .request => match decRequest c pkt with
    | some r => .request r
    | none => .unknown
  | .response => match decResponse c pkt with
    | some r => .response r
    | none => .unknown

/-! ### Selecting an operation -/

/-- The row of a request variant (42_control_packets.md R150). -/
def instrOfRequest : Request → Instr
  | .getVersion => .reqGetVersion
  | .ping p v => .reqPing p v
  | .setParam i v => .reqSetParam i v
  | .getParam i => .reqGetParam i
  | .ledOn => .reqLedOn
  | .ledOff => .reqLedOff
  | .enableGenerator n body => .reqEnableGenerator n body
  | .disableGenerator n body => .reqDisableGenerator n body

/-- The row of a response variant (42_control_packets.md R151). -/
def instrOfResponse : Response → Instr
  | .version n body => .rspVersion n body
  | .pong p v => .rspPong p v
  | .params vs => .rspParams vs
  | .error n body => .rspError n body

/-- The row of a decoded packet (42_control_packets.md R150, R151, R165). -/
def instrOfPacket : Packet → Instr
  | .request r => instrOfRequest r
  | .response r => instrOfResponse r
  | .unknown => .pktUnknown

/-- The row FSM.ADVANCE dispatches a word to (41_frame.md R120). -/
def instrOfWord (tag : Tag) (w : Word) : Instr :=
  match tag with
  | .dm => .fsmAdvanceDm w
  | .dpc => if w = sentinel then .fsmAdvanceDpcSentinel else .fsmAdvanceDpcCount w
  | .wfm => .fsmAdvanceWfm w
  | .rp => .fsmAdvanceRp w

/-- Why a stimulus selects no operation. -/
inductive DecodeError where
  /-- more bytes than a packet buffer holds (10_state.md R33), or a length past its buffer -/
  | packetTooLong
  /-- a frame that is empty or longer than MAX_PARAMS (10_state.md R30) -/
  | frameLength
  /-- "a field given out of its width is refused by the model's types and never truncated"
  (42_control_packets.md R152) -/
  | fieldOutOfWidth
  /-- Unknown "has no encoding and PKT.ENCODE refuses it" (42_control_packets.md R165) -/
  | unknownHasNoEncoding
  /-- a USB transmit or receive interrupt: an event of the middle tier that starts no operation of the table
  (60_exceptions.md R204); `step` takes it before any decoding -/
  | interruptStartsNoOperation
  deriving DecidableEq, Repr

/-- `i` when the check holds, else the named error. -/
def selectIf (ok : Bool) (e : DecodeError) (i : Instr) : Except DecodeError Instr :=
  if ok then .ok i else .error e

/-- The row of a decoder call (30_encoding.md R81). -/
def decodeCall (d : Direction) (pkt : List Byte) (len : Nat) : Instr :=
  match d with
  | .request => .pktDecodeReq pkt len
  | .response => .pktDecodeRsp pkt len

/-- Why PKT.ENCODE refuses a packet that is not well formed (42_control_packets.md R152, R165). -/
def encodeError : Packet → DecodeError
  | .request _ => .fieldOutOfWidth
  | .response _ => .fieldOutOfWidth
  | .unknown => .unknownHasNoEncoding

/-- Why a host transfer that is not well formed is refused (42_control_packets.md R152, 10_state.md R33). -/
def hostError : HostOp → DecodeError
  | .txh _ => .fieldOutOfWidth
  | .rxh _ => .packetTooLong
  | .rxhBlocked => .packetTooLong

/-- The operation a stimulus selects in a sequencing state; total, rejecting by name. -/
def decode (c : Config) (tag : Tag) : Stimulus → Except DecodeError Instr
  | .bitbusPair a b => .ok (.bbDecode a b)
  | .bitbusWord w => .ok (.bbEncode w)
  | .sample a b => .ok (.bbSample a b)
  | .emit w => .ok (.bbEmit w)
  | .feed w => .ok (instrOfWord tag w)
  | .frame f => selectIf (frameWellFormed c f) .frameLength (.fsmEmit f)
  | .pop => .ok .fsmPop
  | .packet d bytes => selectIf (bytesFit bytes) .packetTooLong (instrOfPacket (decPacket c d bytes))
  | .decodePacket d pkt len => selectIf (bufferFits pkt len) .packetTooLong (decodeCall d pkt len)
  | .encodePacket p => selectIf (p.wellFormed c) (encodeError p) (.pktEncode p)
  | .rx x => selectIf x.wellFormed .packetTooLong (.usbRx x)
  | .usbInterrupt _ => .error .interruptStartsNoOperation
  | .tx p => selectIf (p.wellFormed c) .fieldOutOfWidth (.usbTx p)
  | .host op => selectIf (op.wellFormed c) (hostError op) (.usbHost op)

/-- The sequencing states in which a row is selected: the FSM.ADVANCE rows name theirs
(41_frame.md R120), every other operation has none. -/
def Instr.selectedIn (tag : Tag) : Instr → Bool
  | .fsmAdvanceDm _ => tag == .dm
  | .fsmAdvanceDpcCount _ => tag == .dpc
  | .fsmAdvanceDpcSentinel => tag == .dpc
  | .fsmAdvanceWfm _ => tag == .wfm
  | .fsmAdvanceRp _ => tag == .rp
  | .bbDecode _ _ | .bbEncode _ | .bbSample _ _ | .bbEmit _ | .fsmEmit _ | .fsmPop => true
  | .reqGetVersion | .reqPing _ _ | .reqSetParam _ _ | .reqGetParam _ | .reqLedOn | .reqLedOff => true
  | .reqEnableGenerator _ _ | .reqDisableGenerator _ _ => true
  | .rspVersion _ _ | .rspPong _ _ | .rspParams _ | .rspError _ _ | .pktUnknown => true
  | .pktDecodeReq _ _ | .pktDecodeRsp _ _ | .pktEncode _ => true
  | .usbRx _ | .usbTx _ | .usbHost _ => true

/-! ### The encoder -/

/-- The stimulus of an operation; a packet row is written by its ENC_ function, and PKT.Unknown has none
(42_control_packets.md R165). -/
def encode (c : Config) : Instr → Option Stimulus
  | .bbDecode a b => some (.bitbusPair a b)
  | .bbEncode w => some (.bitbusWord w)
  | .bbSample a b => some (.sample a b)
  | .bbEmit w => some (.emit w)
  | .fsmAdvanceDm w => some (.feed w)
  | .fsmAdvanceDpcCount w => some (.feed w)
  | .fsmAdvanceDpcSentinel => some (.feed sentinel)
  | .fsmAdvanceWfm w => some (.feed w)
  | .fsmAdvanceRp w => some (.feed w)
  | .fsmEmit f => some (.frame f)
  | .fsmPop => some .pop
  | .reqGetVersion => some (.packet .request (encRequest c .getVersion))
  | .reqPing p v => some (.packet .request (encRequest c (.ping p v)))
  | .reqSetParam i v => some (.packet .request (encRequest c (.setParam i v)))
  | .reqGetParam i => some (.packet .request (encRequest c (.getParam i)))
  | .reqLedOn => some (.packet .request (encRequest c .ledOn))
  | .reqLedOff => some (.packet .request (encRequest c .ledOff))
  | .reqEnableGenerator n body => some (.packet .request (encRequest c (.enableGenerator n body)))
  | .reqDisableGenerator n body => some (.packet .request (encRequest c (.disableGenerator n body)))
  | .rspVersion n body => some (.packet .response (encResponse c (.version n body)))
  | .rspPong p v => some (.packet .response (encResponse c (.pong p v)))
  | .rspParams vs => some (.packet .response (encResponse c (.params vs)))
  | .rspError n body => some (.packet .response (encResponse c (.error n body)))
  | .pktUnknown => none
  | .pktDecodeReq pkt len => some (.decodePacket .request pkt len)
  | .pktDecodeRsp pkt len => some (.decodePacket .response pkt len)
  | .pktEncode p => some (.encodePacket p)
  | .usbRx x => some (.rx x)
  | .usbTx p => some (.tx p)
  | .usbHost op => some (.host op)

/-! ### The host's opcode-table words -/

/-- The first `n` bytes of a number, byte 0 its least significant (20_memory.md R53). -/
def bytesOfNat : Nat → Nat → List Byte
  | 0, _ => []
  | n + 1, w => BitVec.ofNat 8 w :: bytesOfNat n (w / 256)

/-- The stimulus an opcode-table word stands for. The table's bus-word rows have 16 bits and its
port-pair rows 32 (port A the first word); every other width is the start of a 64-byte request packet.
The request direction is a DESIGN CHOICE: a word does not name its direction (30_encoding.md R81;
notes/assumptions/3.md). -/
def tableStimulus (nbits w : Nat) : Stimulus :=
  if nbits = 16 then .feed (BitVec.ofNat 16 w)
  else if nbits = 32 then .sample (BitVec.ofNat 16 w) (BitVec.ofNat 16 (w / 65536))
  else .packet .request (bytesOfNat pktCapacity (w % 2 ^ nbits))

/-- The sequencing state in which a table word is read: the rows with a fixed bus word are those of
DetectParamsCount (41_frame.md R122, R123; notes/assumptions/3.md). -/
def tableTag : Tag := .dpc

/-- The operation the decoder reads from an opcode-table word, in the reference configuration. -/
def decodeTableWord (nbits w : Nat) : Option Instr :=
  match decode Config.ref tableTag (tableStimulus nbits w) with
  | .ok i => some i
  | .error _ => none

end Sys2Proof
end

