-- ==== Sys2Proof/Machine/State.lean ====
section
/-! DEFINITION. The state of the block (10_state.md), the inputs and step outputs that stand beside it,
the reasons a step stops, and the state after reset. -/

namespace Sys2Proof.Machine

/-- The ParamsBuffer (10_state.md R29): expected count n, write cursor, and MAX_PARAMS entries. -/
structure ParamsBuffer where
  expected : Nat
  cursor : Nat
  data : List Word
  deriving DecidableEq, Repr

/-- ProtocolState (10_state.md R26). The constructor is TAG; the payloads are COUNT, CURSOR and DATA of
R27. -/
inductive ProtocolState where
  | detectMarker
  | detectParamsCount (count : Nat)
  | waitForMarker (count : Nat)
  | readParams (buffer : ParamsBuffer)
  deriving DecidableEq, Repr

/-- TAG of the register form (10_state.md R27). -/
def ProtocolState.tag : ProtocolState → Tag
  | .detectMarker => .dm
  | .detectParamsCount _ => .dpc
  | .waitForMarker _ => .wfm
  | .readParams _ => .rp

/-- The transport's answer to one `poll` of the device (42_control_packets.md R170, 10_state.md R36). -/
inductive PollReply where
  | wouldBlock
  | ready (b : Bool)
  deriving DecidableEq, Repr

/-- Where USB.RX is between steps (42_control_packets.md R170): at rest, at a `poll` that would block, or in its
read loop. -/
inductive RxPhase where
  | idle
  | polling
  | reading
  deriving DecidableEq, Repr

/-- The transport's answer to one `read` of the device (42_control_packets.md R170). -/
inductive ReadReply where
  | wouldBlock
  | data (bytes : List Byte)
  deriving DecidableEq, Repr

/-- The transport's answer to one `write` of the device (42_control_packets.md R171). -/
inductive WriteReply where
  | wouldBlock
  | accepted (n : Nat)
  deriving DecidableEq, Repr

/-- The host driver's hard errors (60_exceptions.md R201). -/
inductive HardError where
  | deviceNotFound
  | endpointClaim
  | driverDetach
  deriving DecidableEq, Repr

/-- The outcome of one read attempt of the host (42_control_packets.md R173, 60_exceptions.md R201). The
outside says which reads are short: `data` is a whole packet, of whatever length, and `short` carries no bytes, for
what came of it is dropped (DESIGN CHOICE, notes/assumptions/16.md). -/
inductive HostReadReply where
  | wouldBlock
  | timeout
  | short
  | hardError (e : HardError)
  | data (bytes : List Byte)
  deriving DecidableEq, Repr

/-- The outcome of one write attempt of the host (42_control_packets.md R173, 60_exceptions.md R201); a short
transfer is an acceptance of fewer bytes than were left. -/
inductive HostWriteReply where
  | wouldBlock
  | timeout
  | hardError (e : HardError)
  | accepted (n : Nat)
  deriving DecidableEq, Repr

/-- The transfer the host is in the middle of (10_state.md R35, 42_control_packets.md R173). -/
inductive HostPhase where
  | idle
  /-- writing these wire bytes, of which `sent` are accepted -/
  | writing (pkt : List Byte) (sent : Nat)
  | reading
  deriving DecidableEq, Repr

/-- The failing operation a typed error names (42_control_packets.md R173). -/
inductive HostTransfer where
  | write
  | read
  deriving DecidableEq, Repr

/-- Why a host transfer ends with a typed error (42_control_packets.md R173, 60_exceptions.md R201). -/
inductive HostErrorCause where
  | retriesExhausted
  | hard (e : HardError)
  deriving DecidableEq, Repr

/-- The outputs of a step (10_state.md R22: status is "an output of that step, returned as a value, and
is not held in state"). -/
inductive Output where
  /-- the result of BB.DECODE (40_bitbus.md R100) -/
  | word (w : Word)
  /-- the result of BB.ENCODE (40_bitbus.md R101) -/
  | ports (a b : Word)
  /-- PortWrite: what the 16 pins of a port carry (40_bitbus.md R103, 30_encoding.md R74) -/
  | portWrite (p : Port) (pins : Word)
  /-- a level of the strobe line (40_bitbus.md R103) -/
  | strobe (level : Bool)
  /-- FSM.EMIT's result `sent` (41_frame.md R126) -/
  | frameSent (f : List Word)
  /-- FSM.EMIT's result `dropped` (41_frame.md R126) -/
  | frameDropped (f : List Word)
  /-- the result of PKT.DECODE_REQ or PKT.DECODE_RSP (42_control_packets.md R150, R151) -/
  | decoded (p : Packet)
  /-- the result of PKT.ENCODE: the 64-byte buffer and L (42_control_packets.md R152) -/
  | encoded (pkt : List Byte) (len : Nat)
  /-- one `poll` and its answer (42_control_packets.md R170) -/
  | usbPoll (reply : PollReply)
  /-- one `read` and its answer (42_control_packets.md R170) -/
  | usbRead (reply : ReadReply)
  /-- one `write`, the bytes offered and the answer (42_control_packets.md R171) -/
  | usbWrite (offered : List Byte) (reply : WriteReply)
  /-- a request handed to the command-processing task (42_control_packets.md R170) -/
  | handed (r : Request)
  /-- a command whose effect is outside the block, given to the application (42_control_packets.md R174) -/
  | command (r : Request)
  /-- a command whose parameter index is out of the declared range, ignored (42_control_packets.md R174) -/
  | ignored (r : Request)
  /-- a USB transmit or receive interrupt taken (60_exceptions.md R204) -/
  | usbInterrupt (k : UsbInterrupt)
  /-- an Unknown packet discarded (42_control_packets.md R165, R174) -/
  | discarded
  /-- one attempt of the host, with its timeout (42_control_packets.md R173) -/
  | hostAttempt (t : HostTransfer) (timeout : Nat)
  /-- the host's write ended well, having sent these bytes (42_control_packets.md R173) -/
  | hostSent (bytes : List Byte)
  /-- a response given to the host's caller (42_control_packets.md R173) -/
  | hostReceived (r : Response)
  /-- the typed error given to the host's caller (42_control_packets.md R173) -/
  | hostError (vendor product : BitVec 16) (t : HostTransfer) (cause : HostErrorCause)
  /-- the operation is not enabled now and waits (41_frame.md R127, 60_exceptions.md R206) -/
  | held
  deriving DecidableEq, Repr

/-- The state of the block. The fields from `pending` on, and `cfg`, are the MODEL's own: inputs not yet
taken, the outputs of the last step, the number of free values drawn, and the configuration the block was
built with (10_state.md R23), which no step changes (notes/assumptions/1.md). -/
@[ext]
structure State where
  /-- the build-time configuration; not architectural state -/
  cfg : Config
  /-- PA_OUT (10_state.md R24) -/
  paOut : Word
  /-- PB_OUT (10_state.md R24) -/
  pbOut : Word
  /-- STROBE (10_state.md R24) -/
  strobe : Bool
  /-- ProtocolState: TAG, COUNT, CURSOR, DATA (10_state.md R26, R27) -/
  fsm : ProtocolState
  /-- FQ, its head first (10_state.md R30) -/
  fq : List (List Word)
  /-- RX_BUF (10_state.md R33) -/
  rxBuf : List Byte
  /-- RX_LEN (10_state.md R33) -/
  rxLen : Nat
  /-- where USB.RX is in its calls (implied by 42_control_packets.md R170) -/
  rxPhase : RxPhase
  /-- TX_BUF (10_state.md R34) -/
  txBuf : List Byte
  /-- TX_LEN (10_state.md R34) -/
  txLen : Nat
  /-- TX_SENT (10_state.md R34) -/
  txSent : Nat
  /-- USB.TX is in its write loop (implied by 42_control_packets.md R171) -/
  txLoop : Bool
  /-- the host's attempt count (10_state.md R35) -/
  hostAttempts : Nat
  /-- the host's transfer in progress (implied by 42_control_packets.md R173) -/
  hostPhase : HostPhase
  /-- stimuli that have arrived and are not yet taken, in arrival order (60_exceptions.md R206) -/
  pending : List Stimulus
  /-- the transport's answers to the device's coming polls -/
  usbPolls : List PollReply
  /-- the transport's answers to the device's coming reads -/
  usbReads : List ReadReply
  /-- the transport's answers to the device's coming writes -/
  usbWrites : List WriteReply
  /-- the outcomes of the host's coming read attempts -/
  hostReads : List HostReadReply
  /-- the outcomes of the host's coming write attempts -/
  hostWrites : List HostWriteReply
  /-- the outputs of the last step, in order -/
  outputs : List Output
  /-- how many free values have been drawn -/
  draws : Nat
  deriving DecidableEq, Repr

/-- Why the model stops where the spec gives no step. -/
inductive Fault where
  /-- FSM.ADVANCE.RP with a cursor outside its buffer (10_state.md R26 bounds it, 70_reset_and_hazards.md
  R232 lets a model fault): raised by `advanceRp` alone, in states no run reaches; safe. -/
  | dataIndexOutOfRange
  deriving DecidableEq, Repr

/-- Why the model gives no meaning to what it is asked. -/
inductive Refusal where
  /-- an operation whose meaning is not modelled: raised by no arm of `exec`; safe -/
  | notModelled (mnemonic : String)
  /-- a stimulus that selects no operation, with the decoder's reason: raised by `step` alone; safe -/
  | undecodable (e : DecodeError)
  /-- PKT.ENCODE of Unknown, which "has no encoding and PKT.ENCODE refuses it" (42_control_packets.md
  R165): raised by `execPktEncode`; safe -/
  | unknownHasNoEncoding
  /-- a variant to encode whose fields do not fill its packet, "refused by the model's types and never
  truncated" (42_control_packets.md R152): raised by PKT.ENCODE, USB.TX, USB.HOST and FSM.POP; safe -/
  | fieldOutOfWidth
  deriving DecidableEq, Repr

/-- The outcome of an operation. -/
abbrev Result := Host.Outcome State Fault Refusal

/-- The idle level of STROBE: the inverse of STROBE_ACTIVE (10_state.md R24). -/
def idleStrobe (c : Config) : Bool := !c.strobeActive

/-- The state after reset of a block built with configuration `c` (70_reset_and_hazards.md R230, R231).
The values of PA_OUT, PB_OUT, RX_BUF, RX_LEN, TX_BUF, TX_LEN and TX_SENT are DESIGN CHOICES
(notes/assumptions/10.md, unsafe): the spec leaves them unspecified. -/
def State.resetWith (c : Config) : State where
  cfg := c
  paOut := 0#16
  pbOut := 0#16
  strobe := idleStrobe c
  fsm := .detectMarker
  fq := []
  rxBuf := List.replicate pktCapacity 0#8
  rxLen := 0
  rxPhase := .idle
  txBuf := List.replicate pktCapacity 0#8
  txLen := 1
  txSent := 0
  txLoop := false
  hostAttempts := 0
  hostPhase := .idle
  pending := []
  usbPolls := []
  usbReads := []
  usbWrites := []
  hostReads := []
  hostWrites := []
  outputs := []
  draws := 0

/-- The state after reset, in the reference configuration (notes/assumptions/1.md, unsafe). -/
def State.reset : State := State.resetWith Config.ref

end Sys2Proof.Machine
end

