-- ==== Sys2Proof/Machine/Flags.lean ====
section
/-! DEFINITION. The block has no flags (10_state.md R22): what another machine would hold in a status
register is here an output of the step. These operations start, extend and replace the outputs. -/

namespace Sys2Proof.Machine

/-- The state at the start of a step: no output yet. -/
def State.fresh (s : State) : State := { s with outputs := [] }

/-- One more output of the step. -/
def State.out (s : State) (o : Output) : State := { s with outputs := s.outputs ++ [o] }

/-- A step whose whole effect is one output. -/
def State.answer (s : State) (o : Output) : State := { s with outputs := [o] }

/-- An operation that is not enabled waits: nothing changes (41_frame.md R127, 60_exceptions.md R206). -/
def State.hold (s : State) : State := s.answer .held

end Sys2Proof.Machine
end

