-- ==== Sys2Proof/Machine/Operands.lean ====
section
/-! DEFINITION. The operand forms: the bits of the two ports under a BITBUS_MAP, the masks of mapped
positions, and the free values an operation draws. -/

namespace Sys2Proof.Machine

/-- The value of port `p` of a pair. -/
def portOf (p : Port) (a b : Word) : Word :=
  match p with
  | .A => a
  | .B => b

/-- `zext_16(v[k]) << i` (40_bitbus.md R100, R101). -/
def moveBit (v : Word) (k i : Nat) : Word := (BitVec.ofBool (v.getLsbD k)).zeroExtend 16 <<< i

/-- BB.DECODE of a port pair (40_bitbus.md R100). -/
def bbDecode (m : BitMap) (a b : Word) : Word :=
  logicalBits.foldl (fun w i => w ||| moveBit (portOf m[i].port a b) m[i].bit.val i.val) 0#16

/-- The value BB.ENCODE gives port `p` (40_bitbus.md R101); unmapped positions are 0
(30_encoding.md R73). -/
def bbEncodePort (m : BitMap) (p : Port) (w : Word) : Word :=
  logicalBits.foldl
    (fun v i => if m[i].port = p then v ||| moveBit w i.val m[i].bit.val else v) 0#16

/-- BB.ENCODE of a logical word, as the pair (A, B) (40_bitbus.md R101). -/
def bbEncode (m : BitMap) (w : Word) : Word × Word := (bbEncodePort m .A w, bbEncodePort m .B w)

/-- MASK_P: the mapped positions of port `p` (30_encoding.md R74). -/
def portMask (m : BitMap) (p : Port) : Word :=
  logicalBits.foldl (fun v i => if m[i].port = p then v ||| 1#16 <<< m[i].bit.val else v) 0#16

/-- What the pins of port `p` carry when the codec writes `v` there in draw `d`: `v` at mapped
positions; at unmapped ones it is open what the pins do (30_encoding.md R74), a free value. -/
def pinsOf (m : BitMap) (d : Nat) (p : Port) (v : Word) : Word :=
  (v &&& portMask m p) ||| (Config.freePins d p &&& ~~~ portMask m p)

/-- MAX_PARAMS entries with no specified value (10_state.md R29), for draw `d`. -/
def unwrittenData (d n : Nat) : List Word := (List.range n).map (Config.freeData d)

/-- The version body the device answers in draw `d`: LEN_VERSION - 1 bytes the source does not give
(42_control_packets.md R161). -/
def versionBody (c : Config) (d : Nat) : List Byte :=
  (List.range (c.lenVersion - 1)).map (Config.freeVersionByte d)

end Sys2Proof.Machine
end

