-- ==== Sys2Proof/Machine/Ops.lean ====
section
/-! DEFINITION. The shared operations: the moves of the Frame State Machine and its queue, and the
transport loops of the device and of the host. The block takes no exception and returns from none
(60_exceptions.md R200), so there is no operation for either. -/

namespace Sys2Proof.Machine

/-! ### Frame State Machine -/

/-- FSM.EMIT (41_frame.md R126): push at the tail, or drop when FQ is full. -/
def emitFrame (f : List Word) (s : State) : State :=
  if s.fq.length < queueDepth then { s with fq := s.fq ++ [f] }.out (.frameSent f)
  else s.out (.frameDropped f)

/-- Enter `ReadParams(n, cursor = 0, DATA unspecified)` (41_frame.md R123, R124). -/
def enterReadParams (n : Nat) (s : State) : State :=
  { s with
    fsm := .readParams { expected := n, cursor := 0, data := unwrittenData s.draws s.cfg.maxParams }
    draws := s.draws + 1 }

/-- FSM.ADVANCE in `DetectMarker` (41_frame.md R121). -/
def advanceDm (w : Word) (s : State) : State :=
  if w = sentinel then { s with fsm := .detectParamsCount 0 } else { s with fsm := .detectMarker }

/-- FSM.ADVANCE in `DetectParamsCount(c)` on a non-sentinel (41_frame.md R122): the count saturates. -/
def advanceDpcCount (c : Nat) (s : State) : State :=
  { s with fsm := .detectParamsCount (min (c + 1) (s.cfg.maxParams + 1)) }

/-- FSM.ADVANCE in `DetectParamsCount(c)` on the sentinel (41_frame.md R123). -/
def advanceDpcSentinel (c : Nat) (s : State) : State :=
  if c = 0 then { s with fsm := .detectMarker }
  else if s.cfg.maxParams < c then { s with fsm := .detectMarker }
  else enterReadParams c s

/-- FSM.ADVANCE in `WaitForMarker(n)` (41_frame.md R124). -/
def advanceWfm (n : Nat) (w : Word) (s : State) : State :=
  if w = sentinel then enterReadParams n s
  else match s.cfg.strayPolicy with
    | .ignore => { s with fsm := .waitForMarker n }
    | .resync => { s with fsm := .detectMarker }

/-- FSM.ADVANCE in `ReadParams(n, cursor, DATA)` (41_frame.md R125). The fault stands for a cursor
outside its bounds, in which no run is. -/
def advanceRp (b : ParamsBuffer) (w : Word) (s : State) : Result :=
  if b.cursor < b.expected ∧ b.expected ≤ b.data.length then
    if b.cursor + 1 = b.expected then
      .next { emitFrame ((b.data.set b.cursor w).take b.expected) s with fsm := .waitForMarker b.expected }
    else
      .next { s with fsm := .readParams { b with cursor := b.cursor + 1, data := b.data.set b.cursor w } }
  else .fault .dataIndexOutOfRange

/-- FSM.ADVANCE: the dispatch of 41_frame.md R120 on the current state. -/
def fsmAdvance (w : Word) (s : State) : Result :=
  match s.fsm with
  | .detectMarker => .next (advanceDm w s)
  | .detectParamsCount c =>
    if w = sentinel then .next (advanceDpcSentinel c s) else .next (advanceDpcCount c s)
  | .waitForMarker n => .next (advanceWfm n w s)
  | .readParams b => advanceRp b w s

/-! ### Device receive (42_control_packets.md R170) -/

/-- The end of USB.RX: a read gave these bytes, `rest` are the answers to later reads. At most 64
bytes fit the buffer (10_state.md R33; notes/assumptions/13.md). The hand-over makes the request a
stimulus of the lowest tier; how many may wait there is not in the spec, and none is ever dropped (DESIGN
CHOICE, notes/assumptions/23.md, unsafe). -/
def rxTake (bytes : List Byte) (rest : List ReadReply) (s : State) : State :=
  let got := bytes.take pktCapacity
  let t := { s with
    usbReads := rest, rxPhase := .idle, rxBuf := got ++ s.rxBuf.drop got.length, rxLen := got.length }
  if got.length = 0 then t
  else match decRequest s.cfg (t.rxBuf.take t.rxLen) with
    | none => t.out .discarded
    | some r => { t with pending := t.pending ++ [Stimulus.packet .request (encRequest s.cfg r)] }.out (.handed r)

/-- The read loop of USB.RX over the transport's answers; with no answer left the loop goes on. -/
def rxRun : List ReadReply → State → State
  | [], s => { s with usbReads := [], rxPhase := .reading }
  | .wouldBlock :: rs, s => rxRun rs (s.out (.usbRead .wouldBlock))
  | .data bytes :: rs, s => rxTake bytes rs (s.out (.usbRead (.data bytes)))

/-- The `poll` of USB.RX over the transport's answers, retried while it would block ("a transient "would block"
condition that the core must retry"); with no answer left it goes on. -/
def pollRun : List PollReply → State → State
  | [], s => { s with usbPolls := [], rxPhase := .polling }
  | .wouldBlock :: ps, s => pollRun ps (s.out (.usbPoll .wouldBlock))
  | .ready false :: ps, s => { s with usbPolls := ps, rxPhase := .idle }.out (.usbPoll (.ready false))
  | .ready true :: ps, s => rxRun s.usbReads ({ s with usbPolls := ps }.out (.usbPoll (.ready true)))

/-- The answers a USB.RX brings, after those already there (notes/assumptions/13.md). -/
def rxArrive (x : RxInput) (s : State) : State :=
  match x with
  | .pollBlocked => s
  | .quiet => { s with usbPolls := s.usbPolls ++ [.ready false] }
  | .readBlocked => { s with usbPolls := s.usbPolls ++ [.ready true] }
  | .packet bytes =>
    { s with usbPolls := s.usbPolls ++ [.ready true], usbReads := s.usbReads ++ [.data bytes] }

/-- USB.RX goes on where it is: at its poll or in its read loop (42_control_packets.md R170,
92_eei_decisions.md D25). -/
def rxContinue (s : State) : State :=
  match s.rxPhase with
  | .idle => s.fresh
  | .polling => pollRun s.usbPolls s.fresh
  | .reading => rxRun s.usbReads s.fresh

/-! ### Device transmit (42_control_packets.md R171) -/

/-- One `write` of TX_BUF[TX_SENT .. TX_LEN-1] and its answer; a transport accepts no more than it was
offered (notes/assumptions/13.md). -/
def txCall (r : WriteReply) (s : State) : State :=
  let t := s.out (.usbWrite ((s.txBuf.take s.txLen).drop s.txSent) r)
  match r with
  | .wouldBlock => t
  | .accepted n => { t with txSent := s.txSent + min n (s.txLen - s.txSent) }

/-- The write loop of USB.TX over the transport's answers: it ends only when TX_SENT reaches TX_LEN. -/
def txRun : List WriteReply → State → State
  | [], s => { s with usbWrites := [], txLoop := decide (s.txSent < s.txLen) }
  | r :: rs, s =>
    if s.txSent < s.txLen then txRun rs (txCall r s)
    else { s with usbWrites := r :: rs, txLoop := false }

/-- TX_BUF, TX_LEN and TX_SENT for the packet of a response (42_control_packets.md R171). -/
def loadTx (p : Response) (s : State) : State :=
  { s with
    txBuf := padPacket (encResponse s.cfg p)
    txLen := (wireBytes s.cfg (encResponse s.cfg p)).length
    txSent := 0 }

/-- USB.TX (42_control_packets.md R171). One transmission is on its way at a time: a second one waits for
the lowest tier (60_exceptions.md R206). -/
def startTx (p : Response) (s : State) : Result :=
  if s.txLoop then .next s.hold
  else if p.wellFormed s.cfg then .next (txRun s.usbWrites (loadTx p s.fresh))
  else .refused .fieldOutOfWidth

/-- The write loop goes on (42_control_packets.md R171, 70_reset_and_hazards.md R239). -/
def txContinue (s : State) : State := txRun s.usbWrites s.fresh

/-! ### Host transfers (42_control_packets.md R173) -/

/-- The transfer ends with a typed error to the caller. -/
def hostFail (t : HostTransfer) (cause : HostErrorCause) (s : State) : State :=
  { s with hostPhase := .idle }.out (.hostError Config.usbVendorId Config.usbProductId t cause)

/-- One attempt that met a hard error: the transfer ends at once, and the attempt is none of those R173 counts
(60_exceptions.md R201; DEDUCED, notes/assumptions/25.md). -/
def hostHardError (t : HostTransfer) (e : HardError) (s : State) : State :=
  hostFail t (.hard e) (s.out (.hostAttempt t s.cfg.hostTimeout))

/-- One attempt that failed. -/
def hostFailedAttempt (t : HostTransfer) (s : State) : State :=
  { s with hostAttempts := s.hostAttempts + 1 }.out (.hostAttempt t s.cfg.hostTimeout)

/-- The attempts of a host write: `sent` bytes of `pkt` are accepted. A short write is a failed attempt,
after which the host resumes or restarts (a free value: "not in the source"). After a would-block or a
timeout it goes on from the bytes accepted so far, a point the spec leaves open (DESIGN CHOICE,
notes/assumptions/8.md, unsafe). -/
def hostWriteRun (pkt : List Byte) : List HostWriteReply → Nat → State → State
  | [], sent, s =>
    if s.hostAttempts < s.cfg.hostRetryBudget then
      { s with hostWrites := [], hostPhase := .writing pkt sent }
    else hostFail .write .retriesExhausted { s with hostWrites := [] }
  | r :: rs, sent, s =>
    if s.hostAttempts < s.cfg.hostRetryBudget then
      match r with
      | .wouldBlock | .timeout => hostWriteRun pkt rs sent (hostFailedAttempt .write s)
      | .hardError e => hostHardError .write e { s with hostWrites := rs }
      | .accepted n =>
        if pkt.length ≤ sent + n then
          { s with hostWrites := rs, hostPhase := .idle }.out (.hostAttempt .write s.cfg.hostTimeout)
            |>.out (.hostSent pkt)
        else
          hostWriteRun pkt rs (if Config.freeHostResumes s.draws then sent + n else 0)
            { hostFailedAttempt .write s with draws := s.draws + 1 }
    else hostFail .write .retriesExhausted { s with hostWrites := r :: rs }

/-- A response packet reached the host's caller; Unknown is discarded (42_control_packets.md R165). -/
def hostDeliver (bytes : List Byte) (s : State) : State :=
  match decResponse s.cfg (bytes.take pktCapacity) with
  | none => s.out .discarded
  | some r => s.out (.hostReceived r)

/-- The attempts of a host read (42_control_packets.md R173). A short read is a failed attempt. The spec leaves
open which reads are short, and what becomes of the bytes of one. The model takes `.short` alone as short and any
`.data`, of whatever length, as a whole packet and a successful attempt, and drops what came of a short read
(DESIGN CHOICE, notes/assumptions/16.md, unsafe). -/
def hostReadRun : List HostReadReply → State → State
  | [], s =>
    if s.hostAttempts < s.cfg.hostRetryBudget then { s with hostReads := [], hostPhase := .reading }
    else hostFail .read .retriesExhausted { s with hostReads := [] }
  | r :: rs, s =>
    if s.hostAttempts < s.cfg.hostRetryBudget then
      match r with
      | .wouldBlock | .timeout | .short => hostReadRun rs (hostFailedAttempt .read s)
      | .hardError e => hostHardError .read e { s with hostReads := rs }
      | .data bytes =>
        hostDeliver bytes
          ({ s with hostReads := rs, hostPhase := .idle }.out (.hostAttempt .read s.cfg.hostTimeout))
    else hostFail .read .retriesExhausted { s with hostReads := r :: rs }

/-- A host transfer starts with no failed attempt (10_state.md R35). -/
def hostStart (s : State) : State := { s.fresh with hostAttempts := 0 }

/-- The host's transfer in progress goes on. -/
def hostContinue (s : State) : State :=
  match s.hostPhase with
  | .idle => s.fresh
  | .writing pkt sent => hostWriteRun pkt s.hostWrites sent s.fresh
  | .reading => hostReadRun s.hostReads s.fresh

end Sys2Proof.Machine
end

