-- ==== Sys2Proof/Machine/BitBus.lean ====
section
/-! DEFINITION. The BitBus Codec operations (40_bitbus.md R100 to R103). -/

namespace Sys2Proof.Machine

/-- BB.DECODE (40_bitbus.md R100): pure; its result is the step's output. -/
def execBbDecode (a b : Word) (s : State) : Result :=
  .next (s.answer (.word (bbDecode s.cfg.bitMap a b)))

/-- BB.ENCODE (40_bitbus.md R101): pure; its result is the step's output. -/
def execBbEncode (w : Word) (s : State) : Result :=
  .next (s.answer (.ports (bbEncode s.cfg.bitMap w).1 (bbEncode s.cfg.bitMap w).2))

/-- BB.SAMPLE (40_bitbus.md R102): the decoded word goes to FSM.ADVANCE in the same step. -/
def execBbSample (a b : Word) (s : State) : Result :=
  fsmAdvance (bbDecode s.cfg.bitMap a b) s.fresh

/-- The two port writes of draw `d`, in either order (20_memory.md R60). -/
def portWrites (m : BitMap) (d : Nat) (w : Word) : List Output :=
  let a := Output.portWrite .A (pinsOf m d .A (bbEncode m w).1)
  let b := Output.portWrite .B (pinsOf m d .B (bbEncode m w).2)
  if Config.freePortAFirst d then [a, b] else [b, a]

/-- Strobe(): to STROBE_ACTIVE and back to the idle level (00_scope.md R10). -/
def strobePulse (c : Config) : List Output := [.strobe c.strobeActive, .strobe (idleStrobe c)]

/-- BB.EMIT (40_bitbus.md R103): both port writes, then one strobe pulse. -/
def execBbEmit (w : Word) (s : State) : Result :=
  .next { s with
    paOut := (bbEncode s.cfg.bitMap w).1
    pbOut := (bbEncode s.cfg.bitMap w).2
    strobe := idleStrobe s.cfg
    draws := s.draws + 1
    outputs := portWrites s.cfg.bitMap s.draws w ++ strobePulse s.cfg }

end Sys2Proof.Machine
end

