-- ==== Sys2Proof/Machine/Frame.lean ====
section
/-! DEFINITION. The Frame State Machine operations (41_frame.md R120 to R127). Each FSM.ADVANCE row has its
own rule in the state that selects it; delivered in another state, its word is dispatched on that state,
since "every state has exactly one successor for every word" (41_frame.md R120). -/

namespace Sys2Proof.Machine

/-- FSM.ADVANCE.DM (41_frame.md R121). -/
def execFsmAdvanceDm (w : Word) (s : State) : Result :=
  match s.fsm with
  | .detectMarker => .next (advanceDm w s.fresh)
  | _ => fsmAdvance w s.fresh

/-- FSM.ADVANCE.DPC.count (41_frame.md R122). -/
def execFsmAdvanceDpcCount (w : Word) (s : State) : Result :=
  match s.fsm with
  | .detectParamsCount c =>
    if w = sentinel then .next (advanceDpcSentinel c s.fresh) else .next (advanceDpcCount c s.fresh)
  | _ => fsmAdvance w s.fresh

/-- FSM.ADVANCE.DPC.sentinel (41_frame.md R123). -/
def execFsmAdvanceDpcSentinel (s : State) : Result :=
  match s.fsm with
  | .detectParamsCount c => .next (advanceDpcSentinel c s.fresh)
  | _ => fsmAdvance sentinel s.fresh

/-- FSM.ADVANCE.WFM (41_frame.md R124). -/
def execFsmAdvanceWfm (w : Word) (s : State) : Result :=
  match s.fsm with
  | .waitForMarker n => .next (advanceWfm n w s.fresh)
  | _ => fsmAdvance w s.fresh

/-- FSM.ADVANCE.RP (41_frame.md R125). -/
def execFsmAdvanceRp (w : Word) (s : State) : Result :=
  match s.fsm with
  | .readParams b => advanceRp b w s.fresh
  | _ => fsmAdvance w s.fresh

/-- FSM.EMIT (41_frame.md R126). -/
def execFsmEmit (f : List Word) (s : State) : Result := .next (emitFrame f s.fresh)

/-- FSM.POP (41_frame.md R127): with FQ empty, or while a transmission is on its way, the consumer has no
step and waits. -/
def execFsmPop (s : State) : Result :=
  match s.fq with
  | [] => .next s.hold
  | f :: rest => if s.txLoop then .next s.hold else startTx (.params f) { s with fq := rest }

end Sys2Proof.Machine
end

