-- ==== Sys2Proof/Machine/Packets.lean ====
section
/-! DEFINITION. The packet rows of the opcode table (42_control_packets.md R150 to R165, R174). A request row
is the command-processing task taking that request; a response row is the host's caller taking that
response; both were decoded from the packet's bytes. The codec itself (ENC_, DEC_) is in Sys2Proof/Decode.lean. -/

namespace Sys2Proof.Machine

/-- GetVersion "is answered with a Version" (42_control_packets.md R174), whose contents the source does
not give (R161): free values. While a transmission is on its way the task waits. -/
def execReqGetVersion (s : State) : Result :=
  if s.txLoop then .next s.hold
  else startTx (.version (Config.freeVersionN s.draws) (versionBody s.cfg s.draws))
    { s with draws := s.draws + 1 }

/-- Ping is answered with a Pong (42_control_packets.md R174); "which payload and version the device puts in
a Pong is not in the source" (R162): free values. While a transmission is on its way the task waits. -/
def execReqPing (_payload : Nibble) (_version : Byte) (s : State) : Result :=
  if s.txLoop then .next s.hold
  else startTx (.pong (Config.freePongPayload s.draws) (Config.freePongVersion s.draws))
    { s with draws := s.draws + 1 }

/-- A command that names a parameter index: out of the declared range it is ignored, with no response
(42_control_packets.md R174, 60_exceptions.md R201); in it, it goes to the application, since parameter storage
is outside the block (00_scope.md R5). -/
def indexedCommand (index : Nibble) (r : Request) (s : State) : Result :=
  .next (s.answer (if index ∈ s.cfg.declaredIndices then .command r else .ignored r))

/-- SetParam (42_control_packets.md R155, R174). -/
def execReqSetParam (index : Nibble) (value : Word) (s : State) : Result :=
  indexedCommand index (.setParam index value) s

/-- GetParam (42_control_packets.md R156, R174). -/
def execReqGetParam (index : Nibble) (s : State) : Result := indexedCommand index (.getParam index) s

/-- LedOn (42_control_packets.md R157): the LED is outside the block (00_scope.md R5). -/
def execReqLedOn (s : State) : Result := .next (s.answer (.command .ledOn))

/-- LedOff (42_control_packets.md R158): the LED is outside the block (00_scope.md R5). -/
def execReqLedOff (s : State) : Result := .next (s.answer (.command .ledOff))

/-- EnableGenerator (42_control_packets.md R159): the generators are outside the block (00_scope.md R5). -/
def execReqEnableGenerator (n : Nibble) (body : List Byte) (s : State) : Result :=
  .next (s.answer (.command (.enableGenerator n body)))

/-- DisableGenerator (42_control_packets.md R160): the generators are outside the block (00_scope.md R5). -/
def execReqDisableGenerator (n : Nibble) (body : List Byte) (s : State) : Result :=
  .next (s.answer (.command (.disableGenerator n body)))

/-- Version (42_control_packets.md R161) given to the host's caller. -/
def execRspVersion (n : Nibble) (body : List Byte) (s : State) : Result :=
  .next (s.answer (.hostReceived (.version n body)))

/-- Pong (42_control_packets.md R162) given to the host's caller. -/
def execRspPong (payload : Nibble) (version : Byte) (s : State) : Result :=
  .next (s.answer (.hostReceived (.pong payload version)))

/-- Params (42_control_packets.md R163) given to the host's caller. -/
def execRspParams (values : List Word) (s : State) : Result :=
  .next (s.answer (.hostReceived (.params values)))

/-- Error (42_control_packets.md R164) given to the host's caller. -/
def execRspError (n : Nibble) (body : List Byte) (s : State) : Result :=
  .next (s.answer (.hostReceived (.error n body)))

/-- Unknown (42_control_packets.md R165): the receiver discards it, with no response (R174). -/
def execPktUnknown (s : State) : Result := .next (s.answer .discarded)

/-- PKT.DECODE_REQ (42_control_packets.md R150): only Pkt[0..len-1] is read. -/
def execPktDecodeReq (pkt : List Byte) (len : Nat) (s : State) : Result :=
  .next (s.answer (.decoded (decPacket s.cfg .request (pkt.take len))))

/-- PKT.DECODE_RSP (42_control_packets.md R151): only Pkt[0..len-1] is read. -/
def execPktDecodeRsp (pkt : List Byte) (len : Nat) (s : State) : Result :=
  .next (s.answer (.decoded (decPacket s.cfg .response (pkt.take len))))

/-- PKT.ENCODE (42_control_packets.md R152): the zero-padded buffer and L. Unknown is refused (R165), and a
field out of its width is "refused by the model's types and never truncated". -/
def execPktEncode (p : Packet) (s : State) : Result :=
  match encPacket s.cfg p with
  | none => .refused .unknownHasNoEncoding
  | some bytes =>
    if p.wellFormed s.cfg then .next (s.answer (.encoded (padPacket bytes) bytes.length))
    else .refused .fieldOutOfWidth

end Sys2Proof.Machine
end

