-- ==== Sys2Proof/Machine/Usb.lean ====
section
/-! DEFINITION. The transport operations (42_control_packets.md R170 to R173). -/

namespace Sys2Proof.Machine

/-- USB.RX (42_control_packets.md R170). An interrupt that arrives while USB.RX runs waits for that handler to
end (60_exceptions.md R206). -/
def execUsbRx (x : RxInput) (s : State) : Result :=
  match s.rxPhase with
  | .polling | .reading => .next s.hold
  | .idle => .next (pollRun (rxArrive x s).usbPolls (rxArrive x s).fresh)

/-- USB.TX (42_control_packets.md R171). -/
def execUsbTx (p : Response) (s : State) : Result := startTx p s

/-- USB.HOST (42_control_packets.md R173). A host in the middle of a transfer starts no other. -/
def execUsbHost (op : HostOp) (s : State) : Result :=
  match s.hostPhase with
  | .writing _ _ | .reading => .next s.hold
  | .idle => match op with
    | .txh r =>
      if r.wellFormed s.cfg then
        .next (hostWriteRun (wireBytes s.cfg (encRequest s.cfg r)) s.hostWrites 0 (hostStart s))
      else .refused .fieldOutOfWidth
    | .rxh bytes => .next (hostReadRun (s.hostReads ++ [.data bytes]) (hostStart s))
    | .rxhBlocked => .next (hostReadRun s.hostReads (hostStart s))

/-- A USB transmit or receive interrupt (60_exceptions.md R204): the spec gives its handler no operation of the
block, so the event is taken and nothing else changes (DESIGN CHOICE, notes/assumptions/14.md, unsafe). -/
def takeUsbInterrupt (k : UsbInterrupt) (s : State) : State := s.answer (.usbInterrupt k)

end Sys2Proof.Machine
end

