-- ==== Sys2Proof/Machine/Dispatch.lean ====
section
/-! DEFINITION. The meaning of each operation of the opcode table, one arm per row. -/

namespace Sys2Proof.Machine

def exec (i : Instr) (s : State) : Host.Outcome State Fault Refusal :=
  match i with
  | .bbDecode a b => Sys2Proof.Machine.execBbDecode a b s
  | .bbEncode w => Sys2Proof.Machine.execBbEncode w s
  | .bbSample a b => Sys2Proof.Machine.execBbSample a b s
  | .bbEmit w => Sys2Proof.Machine.execBbEmit w s
  | .fsmAdvanceDm w => Sys2Proof.Machine.execFsmAdvanceDm w s
  | .fsmAdvanceDpcCount w => Sys2Proof.Machine.execFsmAdvanceDpcCount w s
  | .fsmAdvanceDpcSentinel => Sys2Proof.Machine.execFsmAdvanceDpcSentinel s
  | .fsmAdvanceWfm w => Sys2Proof.Machine.execFsmAdvanceWfm w s
  | .fsmAdvanceRp w => Sys2Proof.Machine.execFsmAdvanceRp w s
  | .fsmEmit frame => Sys2Proof.Machine.execFsmEmit frame s
  | .fsmPop => Sys2Proof.Machine.execFsmPop s
  | .reqGetVersion => Sys2Proof.Machine.execReqGetVersion s
  | .reqPing payload version => Sys2Proof.Machine.execReqPing payload version s
  | .reqSetParam index value => Sys2Proof.Machine.execReqSetParam index value s
  | .reqGetParam index => Sys2Proof.Machine.execReqGetParam index s
  | .reqLedOn => Sys2Proof.Machine.execReqLedOn s
  | .reqLedOff => Sys2Proof.Machine.execReqLedOff s
  | .reqEnableGenerator n body => Sys2Proof.Machine.execReqEnableGenerator n body s
  | .reqDisableGenerator n body => Sys2Proof.Machine.execReqDisableGenerator n body s
  | .rspVersion n body => Sys2Proof.Machine.execRspVersion n body s
  | .rspPong payload version => Sys2Proof.Machine.execRspPong payload version s
  | .rspParams values => Sys2Proof.Machine.execRspParams values s
  | .rspError n body => Sys2Proof.Machine.execRspError n body s
  | .pktUnknown => Sys2Proof.Machine.execPktUnknown s
  | .pktDecodeReq pkt len => Sys2Proof.Machine.execPktDecodeReq pkt len s
  | .pktDecodeRsp pkt len => Sys2Proof.Machine.execPktDecodeRsp pkt len s
  | .pktEncode p => Sys2Proof.Machine.execPktEncode p s
  | .usbRx x => Sys2Proof.Machine.execUsbRx x s
  | .usbTx p => Sys2Proof.Machine.execUsbTx p s
  | .usbHost op => Sys2Proof.Machine.execUsbHost op s

end Sys2Proof.Machine
end

