-- ==== Sys2Proof/Machine/Schedule.lean ====
section
/-! DEFINITION. Which agent moves next (00_scope.md R8, 60_exceptions.md R203 to R207), and the delivery of a
stimulus from outside. -/

namespace Sys2Proof.Machine

/-- The tiers of 60_exceptions.md R205, and beside them what the device's core does not schedule: the host,
and calls of the pure functions. -/
inductive Tier where
  | outside
  | high
  | middle
  | low
  deriving DecidableEq, Repr

/-- The tier in which a stimulus is handled (60_exceptions.md R203 to R205). That EMIT, from "the generation
task", runs in the lowest is DEDUCED (notes/assumptions/14.md). -/
def stimulusTier : Stimulus → Tier
  | .bitbusPair _ _ | .bitbusWord _ => .outside
  | .sample _ _ | .feed _ | .frame _ => .high
  | .emit _ | .pop => .low
  | .packet .request _ => .low
  | .packet .response _ => .outside
  | .decodePacket _ _ _ | .encodePacket _ => .outside
  | .rx _ => .high
  | .usbInterrupt _ => .middle
  | .tx _ => .low
  | .host _ => .outside

/-- Whether the operation a stimulus starts has a step now: FSM.POP needs a frame (41_frame.md R127), a
host transfer an idle host. -/
def stimulusEnabled (s : State) : Stimulus → Bool
  | .pop => !s.fq.isEmpty
  | .host _ => s.hostPhase == .idle
  | _ => true

/-- The first element that satisfies `p`, and the list without it. -/
def takeFirst (p : Stimulus → Bool) : List Stimulus → Option (Stimulus × List Stimulus)
  | [] => none
  | x :: xs => if p x then some (x, xs) else (takeFirst p xs).map fun y => (y.1, x :: y.2)

/-- The earliest enabled stimulus of a tier (60_exceptions.md R206: arrival order within a tier). -/
def firstOfTier (t : Tier) (s : State) : Option (Stimulus × List Stimulus) :=
  takeFirst (fun x => stimulusTier x == t && stimulusEnabled s x) s.pending

/-- What the block does next. -/
inductive Choice where
  /-- the host's transfer goes on -/
  | hostLoop
  /-- USB.RX goes on -/
  | rxLoop
  /-- the write loop of USB.TX goes on -/
  | txLoop
  /-- a stimulus is taken; `rest` stays pending -/
  | take (x : Stimulus) (rest : List Stimulus)
  /-- nothing is ready (60_exceptions.md R213) -/
  | idle
  deriving DecidableEq, Repr

/-- The host is in a transfer and has an outcome for its next attempt. -/
def hostReady (s : State) : Bool :=
  match s.hostPhase with
  | .idle => false
  | .writing _ _ => !s.hostWrites.isEmpty
  | .reading => !s.hostReads.isEmpty

/-- USB.RX is at a call and the transport has an answer to it. -/
def rxReady (s : State) : Bool :=
  match s.rxPhase with
  | .idle => false
  | .polling => !s.usbPolls.isEmpty
  | .reading => !s.usbReads.isEmpty

/-- The lowest tier: a transmission on its way, else the earliest enabled task (60_exceptions.md R206,
70_reset_and_hazards.md R239). -/
def chooseLow (s : State) : Choice :=
  if s.txLoop then (if s.usbWrites.isEmpty then .idle else .txLoop)
  else match firstOfTier .low s with
    | some (x, rest) => .take x rest
    | none => .idle

/-- The tiers below the highest (60_exceptions.md R205, R206). -/
def chooseBelowHigh (s : State) : Choice :=
  match firstOfTier .middle s with
  | some (x, rest) => .take x rest
  | none => chooseLow s

/-- The device's core: a USB.RX that waits for the transport holds it (42_control_packets.md R170); else the
highest tier goes first (60_exceptions.md R206). A USB.RX goes before a write loop too: that USB.TX holds the USB
lock for each call, and not over its whole loop, is the model's reading of R171, R172 and 60_exceptions.md R207
(DESIGN CHOICE, notes/assumptions/14.md, unsafe). -/
def chooseDevice (s : State) : Choice :=
  match s.rxPhase with
  | .polling | .reading => if rxReady s then .rxLoop else .idle
  | .idle => match firstOfTier .high s with
    | some (x, rest) => .take x rest
    | none => chooseBelowHigh s

/-- The next move. What the device's core does not schedule goes first: since the outside decides when a
stimulus arrives, this loses no interleaving (notes/assumptions/14.md). -/
def choose (s : State) : Choice :=
  if hostReady s then .hostLoop
  else match firstOfTier .outside s with
    | some (x, rest) => .take x rest
    | none => chooseDevice s

/-- The outside delivers a stimulus (10_state.md R36). -/
def State.deliver (x : Stimulus) (s : State) : State := { s with pending := s.pending ++ [x] }

/-- The sequencing state an opcode-table word of `nbits` bits needs: a bus word is one of
DetectParamsCount's rows (notes/assumptions/3.md). -/
def fetchFsm (nbits : Nat) (f : ProtocolState) : ProtocolState :=
  if nbits = 16 then
    match f with
    | .detectParamsCount c => .detectParamsCount c
    | _ => .detectParamsCount 0
  else f

/-- `s` with one stimulus pending and no loop running, in the sequencing state that word needs. -/
def placeStimulus (nbits w : Nat) (s : State) : State :=
  { s with
    fsm := fetchFsm nbits s.fsm
    rxPhase := .idle
    txLoop := false
    hostPhase := .idle
    pending := [tableStimulus nbits w] }

end Sys2Proof.Machine
end

