-- ==== Sys2Proof/Machine/Step.lean ====
section
/-! DEFINITION. One step of the block: the agent that moves next either takes its stimulus, decodes it
and runs it, or goes on with its loop (00_scope.md R7, R8). -/

namespace Sys2Proof.Machine

/-- Decode a stimulus in the current sequencing state and run the operation. -/
def runDecoded (x : Stimulus) (s : State) : Host.Outcome State Fault Refusal :=
  match decode s.cfg s.fsm.tag x with
  | .ok i => exec i s
  | .error e => .refused (.undecodable e)

/-- Take one stimulus: an interrupt of the middle tier, which starts no operation (60_exceptions.md R204), or
the stimulus of an operation. -/
def runStimulus (x : Stimulus) (s : State) : Host.Outcome State Fault Refusal :=
  match x with
  | .usbInterrupt k => .next (takeUsbInterrupt k s)
  | x => runDecoded x s

/-- One step. With nothing ready the device idles and its state survives (60_exceptions.md R213). -/
def step (s : State) : Host.Outcome State Fault Refusal :=
  match choose s with
  | .hostLoop => .next (hostContinue s)
  | .rxLoop => .next (rxContinue s)
  | .txLoop => .next (txContinue s)
  | .take x rest => runStimulus x { s with pending := rest }
  | .idle => .next s.fresh

/-- `s` with an opcode-table word where the next step takes its operation (notes/assumptions/3.md). -/
def State.withFetchWord (s : State) (nbits w : Nat) : State := placeStimulus nbits w s

end Sys2Proof.Machine
end

