-- ==== Sys2Proof/Safety.lean ====
section
/-! DEFINITION. What a safe state of the block is (the bounds 10_state.md gives its elements), and the terms in
which statements speak of words fed to the Frame State Machine and of the learned count. -/

namespace Sys2Proof.Machine

/-- The bounds of a ProtocolState (10_state.md R26, R27) for MAX_PARAMS = `m`. -/
def ProtocolState.inRange (m : Nat) : ProtocolState → Prop
  | .detectMarker => True
  | .detectParamsCount c => c ≤ m + 1
  | .waitForMarker n => 1 ≤ n ∧ n ≤ m
  | .readParams b => 1 ≤ b.expected ∧ b.expected ≤ m ∧ b.cursor < b.expected ∧ b.data.length = m

/-- The bounds of a host transfer: a packet on the wire has at most 64 bytes, and a write that goes on has
bytes left (42_control_packets.md R173). -/
def HostPhase.inRange : HostPhase → Prop
  | .idle => True
  | .writing pkt sent => pkt.length ≤ pktCapacity ∧ sent < pkt.length
  | .reading => True

/-- The invariant: every element of the state is within the bounds 10_state.md gives it. -/
structure State.Inv (s : State) : Prop where
  /-- the configuration is one the spec admits (00_scope.md R6) -/
  cfg : s.cfg.Admitted
  /-- 10_state.md R26 -/
  fsm : s.fsm.inRange s.cfg.maxParams
  /-- 10_state.md R30: at most QUEUE_DEPTH frames -/
  fqDepth : s.fq.length ≤ queueDepth
  /-- 10_state.md R30: each frame has 1 to MAX_PARAMS words -/
  fqFrames : ∀ f ∈ s.fq, 1 ≤ f.length ∧ f.length ≤ s.cfg.maxParams
  /-- 10_state.md R24, between steps: the pulse of BB.EMIT ends at the idle level (00_scope.md R10) -/
  strobe : s.strobe = idleStrobe s.cfg
  /-- 10_state.md R33 -/
  rxBuf : s.rxBuf.length = pktCapacity
  /-- 10_state.md R33 -/
  rxLen : s.rxLen ≤ pktCapacity
  /-- 10_state.md R34 -/
  txBuf : s.txBuf.length = pktCapacity
  /-- 10_state.md R34 -/
  txLen : 1 ≤ s.txLen ∧ s.txLen ≤ pktCapacity
  /-- 10_state.md R34 -/
  txSent : s.txSent ≤ s.txLen
  /-- 42_control_packets.md R171: the write loop runs only while bytes are left -/
  txLoop : s.txLoop = true → s.txSent < s.txLen
  /-- 10_state.md R35 -/
  hostAttempts : s.hostAttempts ≤ s.cfg.hostRetryBudget
  /-- the host's transfer in progress -/
  hostPhase : s.hostPhase.inRange

/-- Nothing is pending or on its way: the block idles (60_exceptions.md R213). -/
def State.quiescent (s : State) : Prop :=
  s.pending = [] ∧ s.rxPhase = .idle ∧ s.txLoop = false ∧ s.hostPhase = .idle

/-- The next state of an outcome, if there is one. -/
def nextOf : Result → Option State
  | .next t => some t
  | .fault _ => none
  | .refused _ => none

/-- One word after the other, each delivered as a FEED and taken by one step (20_memory.md R59). -/
def feedAll : List Word → State → Result
  | [], s => .next s
  | w :: ws, s =>
    match step (s.deliver (.feed w)) with
    | .next t => feedAll ws t
    | .fault e => .fault e
    | .refused e => .refused e

/-- The count a ProtocolState has learned: the n of `WaitForMarker(n)` and `ReadParams(n, ...)`
(41_frame.md R128). -/
def ProtocolState.learned : ProtocolState → Option Nat
  | .detectMarker => none
  | .detectParamsCount _ => none
  | .waitForMarker n => some n
  | .readParams b => some b.expected

/-- The bytes the transport accepted in answer to a list of writes (42_control_packets.md R171). -/
def acceptedBytes : List WriteReply → Nat
  | [] => 0
  | .wouldBlock :: rs => acceptedBytes rs
  | .accepted n :: rs => n + acceptedBytes rs

/-- The write calls of USB.TX over these answers, each offering the bytes not yet accepted; none is made once
every byte is (42_control_packets.md R171). -/
def writeCalls : List Byte → List WriteReply → List Output
  | [], _ => []
  | _, [] => []
  | b :: bs, .wouldBlock :: rs => .usbWrite (b :: bs) .wouldBlock :: writeCalls (b :: bs) rs
  | b :: bs, .accepted n :: rs => .usbWrite (b :: bs) (.accepted n) :: writeCalls ((b :: bs).drop n) rs

/-- A transport that accepts nothing: every answer is would-block or 0 (42_control_packets.md R171). -/
def acceptsNothing (rs : List WriteReply) : Prop := ∀ r ∈ rs, r = .wouldBlock ∨ r = .accepted 0

/-- `s` after `bytes` were received by these calls: RX_BUF, RX_LEN, and a request handed on
(42_control_packets.md R170). -/
def afterReceive (bytes : List Byte) (calls : List Output) (s : State) : State :=
  { s with
    rxPhase := .idle
    usbPolls := []
    usbReads := []
    rxBuf := bytes ++ s.rxBuf.drop bytes.length
    rxLen := bytes.length
    pending := s.pending ++ (match decRequest s.cfg bytes with
      | none => []
      | some r => [.packet .request (encRequest s.cfg r)])
    outputs := calls ++ (if bytes = [] then [] else [match decRequest s.cfg bytes with
      | none => .discarded
      | some r => .handed r]) }

/-- The bytes accepted in answer to host writes (42_control_packets.md R173). -/
def hostAcceptedBytes : List HostWriteReply → Nat
  | [] => 0
  | .accepted n :: rs => n + hostAcceptedBytes rs
  | .wouldBlock :: rs | .timeout :: rs | .hardError _ :: rs => hostAcceptedBytes rs

/-- The outcomes of a host write that R173 of 42_control_packets.md counts as failed attempts: a would-block, a
timeout, and a write where it is short. -/
def HostWriteReply.mayFail : HostWriteReply → Prop
  | .wouldBlock | .timeout | .accepted _ => True
  | .hardError _ => False

/-- The outcomes of a host read that R173 of 42_control_packets.md counts as failed attempts. -/
def HostReadReply.fails : HostReadReply → Prop
  | .wouldBlock | .timeout | .short => True
  | .hardError _ | .data _ => False

/-- `s` after a host transfer that ended: its count of failed attempts, one output for each attempt made, and
what the caller is given (42_control_packets.md R173). -/
def hostEnd (t : HostTransfer) (failed made : Nat) (result : Output) (s : State) : State :=
  { s with
    hostAttempts := failed
    hostPhase := .idle
    outputs := List.replicate made (.hostAttempt t s.cfg.hostTimeout) ++ [result] }

/-- The typed error of a host transfer (42_control_packets.md R173). -/
def hostErrorOf (t : HostTransfer) (cause : HostErrorCause) : Output :=
  .hostError Config.usbVendorId Config.usbProductId t cause

/-- Nothing that the device's core does not schedule is ready: the device moves next (00_scope.md R8). -/
def State.deviceMoves (s : State) : Prop :=
  hostReady s = false ∧ ∀ x ∈ s.pending, stimulusTier x ≠ .outside ∨ stimulusEnabled s x = false

/-- The pending tasks of the lowest tier, in order (60_exceptions.md R205). -/
def State.lowPending (s : State) : List Stimulus := s.pending.filter fun x => stimulusTier x == .low

/-- The operations that give the Frame State Machine a word: BB.SAMPLE and the FSM.ADVANCE rows
(40_bitbus.md R102, 41_frame.md R120). -/
def feedsWord (i : Instr) : Prop :=
  (∃ a b, i = .bbSample a b) ∨ (∃ w, i = .fsmAdvanceDm w) ∨ (∃ w, i = .fsmAdvanceDpcCount w) ∨
    i = .fsmAdvanceDpcSentinel ∨ (∃ w, i = .fsmAdvanceWfm w) ∨ (∃ w, i = .fsmAdvanceRp w)

end Sys2Proof.Machine
end

