-- ==== Sys2Proof/Certificates/Slice0/Obligations.lean ====
section
/-! DEFINITION. The statements for the provers, one `Obligations.<Name>` each. -/

open Sys2Proof Sys2Proof.Machine

/-! ### BitBus Codec -/

/-- 40_bitbus.md R100: bit i of the decoded word is the physical bit MAP(i); nothing else changes. -/
def Obligations.BbDecodeReadsMappedBits : Prop :=
  ∀ (a b : Word) (s : State), ∃ w : Word,
    exec (.bbDecode a b) s = .next { s with outputs := [.word w] } ∧
    ∀ i : Fin 16, w.getLsbD i.val =
      (match s.cfg.bitMap[i].port with
        | .A => a
        | .B => b).getLsbD s.cfg.bitMap[i].bit.val

/-- 40_bitbus.md R101: a physical bit is 1 exactly when the logical bit mapped there is 1, so an unmapped
one is 0; nothing else changes. -/
def Obligations.BbEncodePlacesLogicalBits : Prop :=
  ∀ (w : Word) (s : State), ∃ a b : Word,
    exec (.bbEncode w) s = .next { s with outputs := [.ports a b] } ∧
    (∀ k : Fin 16, a.getLsbD k.val = true ↔
      ∃ i : Fin 16, s.cfg.bitMap[i] = ⟨.A, k⟩ ∧ w.getLsbD i.val = true) ∧
    (∀ k : Fin 16, b.getLsbD k.val = true ↔
      ∃ i : Fin 16, s.cfg.bitMap[i] = ⟨.B, k⟩ ∧ w.getLsbD i.val = true)

/-- 40_bitbus.md R104: decode of encode is the identity for every admitted BITBUS_MAP. -/
def Obligations.BbDecodeOfEncodeIsIdentity : Prop :=
  ∀ (m : BitMap) (w : Word), m.Admitted → bbDecode m (bbEncode m w).1 (bbEncode m w).2 = w

/-- 40_bitbus.md R105, an inference the spec marks as derived: encode of decode keeps the mapped positions
alone, and gives back exactly the pairs that are 0 at every unmapped position. -/
def Obligations.BbEncodeOfDecodeMasks : Prop :=
  ∀ (m : BitMap) (a b : Word), m.Admitted →
    bbEncode m (bbDecode m a b) = (a &&& portMask m .A, b &&& portMask m .B) ∧
    (bbEncode m (bbDecode m a b) = (a, b) ↔
      ∀ k : Fin 16, ((∀ i : Fin 16, m[i] ≠ ⟨.A, k⟩) → a.getLsbD k.val = false) ∧
        ((∀ i : Fin 16, m[i] ≠ ⟨.B, k⟩) → b.getLsbD k.val = false))

/-- 40_bitbus.md R101 and 30_encoding.md R74, both inferences the spec marks as derived: encoding keeps
the number of 1 bits, and the two masks have 16 in all. -/
def Obligations.BbEncodeKeepsPopcount : Prop :=
  ∀ (m : BitMap) (w : Word), m.Admitted →
    logicalBits.countP (fun k => (bbEncode m w).1.getLsbD k.val) +
        logicalBits.countP (fun k => (bbEncode m w).2.getLsbD k.val) =
      logicalBits.countP (fun k => w.getLsbD k.val) ∧
    logicalBits.countP (fun k => (portMask m .A).getLsbD k.val) +
        logicalBits.countP (fun k => (portMask m .B).getLsbD k.val) = 16

/-- 40_bitbus.md R106, an inference the spec marks as derived: the codec is bitwise. -/
def Obligations.BbCodecIsBitwise : Prop :=
  ∀ m : BitMap, m.Admitted →
    (∀ (i : Fin 16) (a b a' b' : Word),
      (portOf m[i].port a b).getLsbD m[i].bit.val = (portOf m[i].port a' b').getLsbD m[i].bit.val →
      (bbDecode m a b).getLsbD i.val = (bbDecode m a' b').getLsbD i.val) ∧
    (∀ (p : Port) (k : Fin 16), ∃ i : Fin 16, ∀ w w' : Word, w.getLsbD i.val = w'.getLsbD i.val →
      (bbEncodePort m p w).getLsbD k.val = (bbEncodePort m p w').getLsbD k.val) ∧
    (∀ a₁ a₂ b₁ b₂ : Word,
      bbDecode m (a₁ ||| a₂) (b₁ ||| b₂) = bbDecode m a₁ b₁ ||| bbDecode m a₂ b₂ ∧
      bbDecode m (a₁ &&& a₂) (b₁ &&& b₂) = bbDecode m a₁ b₁ &&& bbDecode m a₂ b₂ ∧
      bbDecode m (a₁ ^^^ a₂) (b₁ ^^^ b₂) = bbDecode m a₁ b₁ ^^^ bbDecode m a₂ b₂) ∧
    (∀ w₁ w₂ : Word, bbEncode m (w₁ ||| w₂) =
      ((bbEncode m w₁).1 ||| (bbEncode m w₂).1, (bbEncode m w₁).2 ||| (bbEncode m w₂).2))

/-- 40_bitbus.md R102: BB.SAMPLE completes and does what FSM.ADVANCE does with the decoded word; it changes
only the Frame State Machine, its queue, the outputs and the model's count of draws. -/
def Obligations.SampleAdvancesOnDecodedWord : Prop :=
  ∀ (a b : Word) (s : State), s.Inv → ∃ (i : Instr) (t : State),
    decode s.cfg s.fsm.tag (.feed (bbDecode s.cfg.bitMap a b)) = .ok i ∧
    exec (.bbSample a b) s = .next t ∧ exec i s = .next t ∧
    t = { s with fsm := t.fsm, fq := t.fq, outputs := t.outputs, draws := t.draws }

/-- 40_bitbus.md R103 (and R60, R73, R74): PA_OUT and PB_OUT hold the encoded pair; both port writes, in
one of the two orders, come before one strobe pulse; the pins carry the encoded value at mapped positions.
The model's count of draws advances; nothing else changes. -/
def Obligations.EmitWritesPortsThenStrobes : Prop :=
  ∀ (w : Word) (s : State), ∃ (pinsA pinsB : Word) (writes : List Output),
    writes ∈ [[Output.portWrite .A pinsA, .portWrite .B pinsB], [.portWrite .B pinsB, .portWrite .A pinsA]] ∧
    pinsA &&& portMask s.cfg.bitMap .A = (bbEncode s.cfg.bitMap w).1 ∧
    pinsB &&& portMask s.cfg.bitMap .B = (bbEncode s.cfg.bitMap w).2 ∧
    exec (.bbEmit w) s = .next { s with
      paOut := (bbEncode s.cfg.bitMap w).1
      pbOut := (bbEncode s.cfg.bitMap w).2
      strobe := !s.cfg.strobeActive
      draws := s.draws + 1
      outputs := writes ++ [.strobe s.cfg.strobeActive, .strobe !s.cfg.strobeActive] }

/-! ### Frame State Machine -/

/-- 41_frame.md R121. -/
def Obligations.DetectMarkerAdvance : Prop :=
  ∀ (w : Word) (s : State), s.fsm = .detectMarker →
    exec (.fsmAdvanceDm w) s = .next { s with
      fsm := if w = 0x5555#16 then .detectParamsCount 0 else .detectMarker
      outputs := [] }

/-- 41_frame.md R122. -/
def Obligations.CountingSaturates : Prop :=
  ∀ (w : Word) (c : Nat) (s : State), w ≠ 0x5555#16 → s.fsm = .detectParamsCount c →
    exec (.fsmAdvanceDpcCount w) s = .next { s with
      fsm := .detectParamsCount (min (c + 1) (s.cfg.maxParams + 1))
      outputs := [] }

/-- 41_frame.md R123: DATA has MAX_PARAMS entries of no specified value. -/
def Obligations.SentinelEndsCounting : Prop :=
  ∀ (c : Nat) (s : State), s.fsm = .detectParamsCount c → ∃ (data : List Word) (d : Nat),
    data.length = s.cfg.maxParams ∧
    exec .fsmAdvanceDpcSentinel s = .next { s with
      fsm := if c = 0 then .detectMarker else if s.cfg.maxParams < c then .detectMarker
        else .readParams { expected := c, cursor := 0, data := data }
      draws := d
      outputs := [] }

/-- 41_frame.md R124, both policies. -/
def Obligations.WaitForMarkerAdvance : Prop :=
  ∀ (w : Word) (n : Nat) (s : State), s.fsm = .waitForMarker n → ∃ (data : List Word) (d : Nat),
    data.length = s.cfg.maxParams ∧
    exec (.fsmAdvanceWfm w) s = .next { s with
      fsm := if w = 0x5555#16 then .readParams { expected := n, cursor := 0, data := data }
        else if s.cfg.strayPolicy = .ignore then .waitForMarker n else .detectMarker
      draws := d
      outputs := [] }

/-- 41_frame.md R125, with FSM.EMIT (R126) at the last word: the word is stored whatever its value; the
frame is DATA[0..n-1] with it, and the state changes whether it is sent or dropped. -/
def Obligations.ReadParamsStoresAndEmits : Prop :=
  ∀ (w : Word) (b : ParamsBuffer) (s : State), s.fsm = .readParams b → s.fsm.inRange s.cfg.maxParams →
    (b.cursor + 1 ≠ b.expected → exec (.fsmAdvanceRp w) s = .next { s with
      fsm := .readParams { expected := b.expected, cursor := b.cursor + 1, data := b.data.set b.cursor w }
      outputs := [] }) ∧
    (b.cursor + 1 = b.expected → exec (.fsmAdvanceRp w) s = .next { s with
      fsm := .waitForMarker b.expected
      fq := if s.fq.length < 5 then s.fq ++ [b.data.take b.cursor ++ [w]] else s.fq
      outputs := [if s.fq.length < 5 then .frameSent (b.data.take b.cursor ++ [w])
        else .frameDropped (b.data.take b.cursor ++ [w])] })

/-- 41_frame.md R126: push at the tail when FQ has fewer than QUEUE_DEPTH frames, else drop. -/
def Obligations.EmitPushesOrDrops : Prop :=
  ∀ (f : List Word) (s : State),
    (s.fq.length < 5 → exec (.fsmEmit f) s = .next { s with fq := s.fq ++ [f], outputs := [.frameSent f] }) ∧
    (5 ≤ s.fq.length → exec (.fsmEmit f) s = .next { s with outputs := [.frameDropped f] })

/-- 41_frame.md R127: the head of FQ leaves it and is transmitted as one Params packet. -/
def Obligations.PopSendsOldestFrame : Prop :=
  ∀ (f : List Word) (rest : List (List Word)) (s : State), s.Inv → s.fq = f :: rest → s.txLoop = false →
    ∃ t : State, exec .fsmPop s = .next t ∧ exec (.usbTx (.params f)) { s with fq := rest } = .next t ∧
      t.txBuf = padPacket (encResponse s.cfg (.params f)) ∧
      t.txLen = (wireBytes s.cfg (encResponse s.cfg (.params f))).length ∧
      t = { s with
        fq := rest, txBuf := t.txBuf, txLen := t.txLen, txSent := t.txSent, txLoop := t.txLoop,
        usbWrites := t.usbWrites, outputs := t.outputs }

/-- 41_frame.md R127: with FQ empty the consumer has no enabled step. That the model shows this as a step
that changes nothing but the outputs, and keeps a POP pending, is its own choice
(notes/assumptions/11.md). -/
def Obligations.PopWithoutFrameWaits : Prop :=
  ∀ s : State, s.fq = [] →
    exec .fsmPop s = .next { s with outputs := [.held] } ∧
    (s.pending = [.pop] → s.rxPhase = .idle → s.txLoop = false → s.hostPhase = .idle →
      step s = .next { s with outputs := [] })

/-- 41_frame.md R120: every word has exactly one successor in every state, by the row the state selects;
a row delivered in another state does what the selected row does (the model's choice,
notes/assumptions/12.md). Only the Frame State Machine, its queue, the outputs and the count of draws
change. -/
def Obligations.AdvanceIsTotalAndLocal : Prop :=
  ∀ (w : Word) (s : State), s.Inv → ∃ (i : Instr) (t : State),
    decode s.cfg s.fsm.tag (.feed w) = .ok i ∧ i.selectedIn s.fsm.tag = true ∧ exec i s = .next t ∧
    t = { s with fsm := t.fsm, fq := t.fq, outputs := t.outputs, draws := t.draws } ∧
    exec (.fsmAdvanceDm w) s = .next t ∧ exec (.fsmAdvanceDpcCount w) s = .next t ∧
    exec (.fsmAdvanceWfm w) s = .next t ∧ exec (.fsmAdvanceRp w) s = .next t ∧
    (w = 0x5555#16 → exec .fsmAdvanceDpcSentinel s = .next t)

/-- 41_frame.md R128 (an inference the spec marks as derived): over every step of the block, under `ignore`
a learned count stays; under `resync` it can only be lost from `WaitForMarker`, to `DetectMarker`. -/
def Obligations.LearnedCountStays : Prop :=
  ∀ (n : Nat) (s t : State), s.Inv → s.fsm.learned = some n → step s = .next t →
    (s.cfg.strayPolicy = .ignore → t.fsm.learned = some n) ∧
    (t.fsm.learned ≠ some n → s.cfg.strayPolicy = .resync ∧ s.fsm = .waitForMarker n ∧ t.fsm = .detectMarker)

/-- 41_frame.md R130, an inference the spec marks as derived: no frame without two sentinels, for words of
any number. -/
def Obligations.NoFrameWithoutTwoSentinels : Prop :=
  ∀ (us vs : List Word) (s : State), s.quiescent → s.fsm = .detectMarker →
    (∀ w ∈ us, w ≠ 0x5555#16) → (∀ w ∈ vs, w ≠ 0x5555#16) →
    (∃ t, feedAll us s = .next t ∧ t.fsm = .detectMarker ∧ t.fq = s.fq) ∧
    (∃ t, feedAll (us ++ 0x5555#16 :: vs) s = .next t ∧
      t.fsm = .detectParamsCount (min vs.length (s.cfg.maxParams + 1)) ∧ t.fq = s.fq)

/-- 41_frame.md R131, an inference the spec marks as derived: capture of a well-formed stream, and of each
further parameter set. -/
def Obligations.WellFormedStreamIsCaptured : Prop :=
  ∀ (qs ps rs : List Word) (s : State), s.quiescent → s.fsm = .detectMarker →
    1 ≤ ps.length → ps.length ≤ s.cfg.maxParams → qs.length = ps.length → rs.length = ps.length →
    (∀ w ∈ qs ++ ps ++ rs, w ≠ 0x5555#16) → s.fq.length + 2 ≤ 5 →
    ∃ t u : State, feedAll (0x5555#16 :: qs ++ 0x5555#16 :: ps) s = .next t ∧
      t.fsm = .waitForMarker ps.length ∧ t.fq = s.fq ++ [ps] ∧
      feedAll (0x5555#16 :: rs) t = .next u ∧
      u.fsm = .waitForMarker ps.length ∧ u.fq = s.fq ++ [ps, rs]

/-- 41_frame.md R129 (an inference the spec marks as derived): under `ignore`, whatever stray words come,
capture realigns at the first sentinel seen in `WaitForMarker(n)`: the next n words are one frame,
whatever their values. -/
def Obligations.CaptureRealignsAtSentinel : Prop :=
  ∀ (n : Nat) (js ps : List Word) (s : State), s.quiescent → s.cfg.strayPolicy = .ignore →
    s.fsm = .waitForMarker n → 1 ≤ n → n ≤ s.cfg.maxParams → ps.length = n →
    (∀ w ∈ js, w ≠ 0x5555#16) → s.fq.length < 5 →
    ∃ t : State, feedAll (js ++ 0x5555#16 :: ps) s = .next t ∧
      t.fsm = .waitForMarker n ∧ t.fq = s.fq ++ [ps]

/-! ### Control-Channel Codec -/

/-- 42_control_packets.md R166, an inference the spec marks as derived: PKT.DECODE of PKT.ENCODE is the
identity on every variant, in each direction, with the encoded length as len. -/
def Obligations.PacketDecodeOfEncodeIsIdentity : Prop :=
  ∀ s : State, s.cfg.Admitted →
    (∀ r : Request, r.wellFormed s.cfg = true →
      exec (.pktDecodeReq (padPacket (encRequest s.cfg r)) (encRequest s.cfg r).length) s =
        .next { s with outputs := [.decoded (.request r)] }) ∧
    (∀ r : Response, r.wellFormed s.cfg = true →
      exec (.pktDecodeRsp (padPacket (encResponse s.cfg r)) (encResponse s.cfg r).length) s =
        .next { s with outputs := [.decoded (.response r)] })

/-- 30_encoding.md R86: bytes past L are ignored, so both wire modes decode alike. -/
def Obligations.BytesPastLengthAreIgnored : Prop :=
  ∀ (c : Config) (junk : List Byte), c.Admitted →
    (∀ r : Request, r.wellFormed c = true → decRequest c (encRequest c r ++ junk) = some r ∧
      decRequest c (wireBytes c (encRequest c r)) = some r) ∧
    (∀ r : Response, r.wellFormed c = true → decResponse c (encResponse c r ++ junk) = some r ∧
      decResponse c (wireBytes c (encResponse c r)) = some r)

/-- 42_control_packets.md R150, R151, R165 and 30_encoding.md R85: a packet whose opcode is in no row of its
direction's table is Unknown, whatever else it holds. Opcode 0xF is in no row of either table; that no
response has it is a decision of the spec (92_eei_decisions.md D20). -/
def Obligations.UnassignedOpcodesAreUnknown : Prop :=
  ∀ (b0 : Byte) (rest : List Byte) (s : State),
    (b0.truncate 4 ∉ s.cfg.requestOpcodes → exec (.pktDecodeReq (b0 :: rest) (rest.length + 1)) s =
      .next { s with outputs := [.decoded .unknown] }) ∧
    (b0.truncate 4 ∉ s.cfg.responseOpcodes → exec (.pktDecodeRsp (b0 :: rest) (rest.length + 1)) s =
      .next { s with outputs := [.decoded .unknown] }) ∧
    (s.cfg.Admitted → b0 &&& 0x0F#8 = 0x0F#8 →
      b0.truncate 4 ∉ s.cfg.requestOpcodes ∧ b0.truncate 4 ∉ s.cfg.responseOpcodes)

/-- 30_encoding.md R85: a packet of length 0 or shorter than the L of its row is Unknown. -/
def Obligations.TruncatedPacketsAreUnknown : Prop :=
  ∀ (k : Nat) (c : Config), c.Admitted →
    (∀ r : Request, r.wellFormed c = true → k < (encRequest c r).length →
      decRequest c ((encRequest c r).take k) = none) ∧
    (∀ r : Response, r.wellFormed c = true → k < (encResponse c r).length →
      decResponse c ((encResponse c r).take k) = none)

/-- 42_control_packets.md R150, R151, R32: the decoders read Pkt[0..len-1] alone and change nothing. -/
def Obligations.DecodersOnlyAnswer : Prop :=
  ∀ (pkt junk : List Byte) (s : State),
    exec (.pktDecodeReq (pkt ++ junk) pkt.length) s =
      .next { s with outputs := [.decoded (decPacket s.cfg .request pkt)] } ∧
    exec (.pktDecodeRsp (pkt ++ junk) pkt.length) s =
      .next { s with outputs := [.decoded (decPacket s.cfg .response pkt)] }

/-- 42_control_packets.md R152, 30_encoding.md R80: L is 1 to 64 and bytes L to 63 of the buffer are 0. -/
def Obligations.EncodeFillsBuffer : Prop :=
  ∀ (p : Packet) (s : State), s.cfg.Admitted → p.wellFormed s.cfg = true →
    ∃ bytes pkt : List Byte, encPacket s.cfg p = some bytes ∧ 1 ≤ bytes.length ∧ bytes.length ≤ 64 ∧
      pkt.length = 64 ∧ pkt.take bytes.length = bytes ∧
      (∀ i, bytes.length ≤ i → i < 64 → pkt[i]? = some 0#8) ∧
      exec (.pktEncode p) s = .next { s with outputs := [.encoded pkt bytes.length] }

/-- 42_control_packets.md R165: Unknown has no encoding and PKT.ENCODE refuses it. R152: a variant out of its
width is refused and never truncated, by PKT.ENCODE and by the transfers that encode. -/
def Obligations.EncodeRefusesIllFormed : Prop :=
  ∀ s : State,
    exec (.pktEncode .unknown) s = .refused .unknownHasNoEncoding ∧
    (∀ p : Packet, p ≠ .unknown → p.wellFormed s.cfg = false → exec (.pktEncode p) s = .refused .fieldOutOfWidth) ∧
    (∀ p : Response, p.wellFormed s.cfg = false → s.txLoop = false →
      exec (.usbTx p) s = .refused .fieldOutOfWidth) ∧
    (∀ r : Request, r.wellFormed s.cfg = false → s.hostPhase = .idle →
      exec (.usbHost (.txh r)) s = .refused .fieldOutOfWidth)

/-- 42_control_packets.md R153, R156, R157, R158: the requests of one byte, encoded and decoded; the high
nibble of GetVersion, LedOn and LedOff and every byte past byte 0 are ignored. -/
def Obligations.OneByteRequestLayout : Prop :=
  ∀ c : Config, c.Admitted →
    encRequest c .getVersion = [0x01#8] ∧
    (∀ index : Nibble, encRequest c (.getParam index) = [0x05#8 ||| (index.zeroExtend 8 <<< 4)]) ∧
    encRequest c .ledOn = [c.opLedOn.zeroExtend 8] ∧ encRequest c .ledOff = [c.opLedOff.zeroExtend 8] ∧
    (∀ (b0 : Byte) (rest : List Byte),
      (b0 &&& 0x0F#8 = 0x01#8 → decRequest c (b0 :: rest) = some .getVersion) ∧
      (b0 &&& 0x0F#8 = 0x05#8 → decRequest c (b0 :: rest) = some (.getParam ((b0 >>> 4).truncate 4))) ∧
      (b0.truncate 4 = c.opLedOn → decRequest c (b0 :: rest) = some .ledOn) ∧
      (b0.truncate 4 = c.opLedOff → decRequest c (b0 :: rest) = some .ledOff))

/-- 42_control_packets.md R155, both directions of the codec. -/
def Obligations.SetParamLayout : Prop :=
  ∀ (c : Config) (index : Nibble) (value : Word),
    encRequest c (.setParam index value) =
      [0x04#8 ||| (index.zeroExtend 8 <<< 4), value.truncate 8, (value >>> 8).truncate 8] ∧
    (∀ (b0 b1 b2 : Byte) (rest : List Byte), b0 &&& 0x0F#8 = 0x04#8 →
      decRequest c [b0] = none ∧ decRequest c [b0, b1] = none ∧
      decRequest c (b0 :: b1 :: b2 :: rest) =
        some (.setParam ((b0 >>> 4).truncate 4) (b1.zeroExtend 16 ||| (b2.zeroExtend 16 <<< 8))))

/-- 42_control_packets.md R154 and R162: Ping and its mirror Pong. -/
def Obligations.PingAndPongLayout : Prop :=
  ∀ (c : Config) (payload : Nibble) (version : Byte),
    encRequest c (.ping payload version) = [0x02#8 ||| (payload.zeroExtend 8 <<< 4), version] ∧
    encResponse c (.pong payload version) = [0x02#8 ||| (payload.zeroExtend 8 <<< 4), version] ∧
    (∀ (b0 b1 : Byte) (rest : List Byte), b0 &&& 0x0F#8 = 0x02#8 →
      decRequest c [b0] = none ∧ decResponse c [b0] = none ∧
      decRequest c (b0 :: b1 :: rest) = some (.ping ((b0 >>> 4).truncate 4) b1) ∧
      decResponse c (b0 :: b1 :: rest) = some (.pong ((b0 >>> 4).truncate 4) b1))

/-- 42_control_packets.md R163 (a layout the spec decided, 92_eei_decisions.md D22): byte 1 is n and value k
stands little-endian at 2+2k, on encode and on decode; n above 31 or missing bytes give Unknown. -/
def Obligations.ParamsLayout : Prop :=
  ∀ (c : Config) (vs : List Word), c.Admitted → vs.length ≤ 31 →
    (encResponse c (.params vs)).length = 2 + 2 * vs.length ∧
    (encResponse c (.params vs))[0]? = some (c.opParams.zeroExtend 8) ∧
    (encResponse c (.params vs))[1]? = some (BitVec.ofNat 8 vs.length) ∧
    (∀ (k : Nat) (v : Word), vs[k]? = some v →
      (encResponse c (.params vs))[2 + 2 * k]? = some (v.truncate 8) ∧
      (encResponse c (.params vs))[3 + 2 * k]? = some ((v >>> 8).truncate 8)) ∧
    (∀ (b0 n : Byte) (rest : List Byte), b0.truncate 4 = c.opParams →
      decResponse c [b0] = none ∧
      (31 < n.toNat ∨ rest.length < 2 * n.toNat → decResponse c (b0 :: n :: rest) = none) ∧
      (n.toNat ≤ 31 → 2 * n.toNat ≤ rest.length → ∃ ws : List Word,
        decResponse c (b0 :: n :: rest) = some (.params ws) ∧ ws.length = n.toNat ∧
        ∀ (k : Nat) (lo hi : Byte), k < n.toNat → rest[2 * k]? = some lo → rest[2 * k + 1]? = some hi →
          ws[k]? = some (lo.zeroExtend 16 ||| (hi.zeroExtend 16 <<< 8))))

/-- 42_control_packets.md R159, R160, R161, R164: the opaque packets are opcode, nibble and body; a packet
shorter than the L of its row is Unknown, and otherwise the nibble and the body come back as they were. -/
def Obligations.OpaquePacketLayout : Prop :=
  ∀ (c : Config) (n : Nibble) (body : List Byte), c.Admitted →
    encRequest c (.enableGenerator n body) = (c.opEnableGenerator.zeroExtend 8 ||| (n.zeroExtend 8 <<< 4)) :: body ∧
    encRequest c (.disableGenerator n body) = (c.opDisableGenerator.zeroExtend 8 ||| (n.zeroExtend 8 <<< 4)) :: body ∧
    encResponse c (.version n body) = (0x01#8 ||| (n.zeroExtend 8 <<< 4)) :: body ∧
    encResponse c (.error n body) = (c.opError.zeroExtend 8 ||| (n.zeroExtend 8 <<< 4)) :: body ∧
    (∀ b0 : Byte,
      (b0.truncate 4 = c.opEnableGenerator → decRequest c (b0 :: body) =
        if body.length + 1 < c.lenEnableGenerator then none
        else some (.enableGenerator ((b0 >>> 4).truncate 4) (body.take (c.lenEnableGenerator - 1)))) ∧
      (b0.truncate 4 = c.opDisableGenerator → decRequest c (b0 :: body) =
        if body.length + 1 < c.lenDisableGenerator then none
        else some (.disableGenerator ((b0 >>> 4).truncate 4) (body.take (c.lenDisableGenerator - 1)))) ∧
      (b0 &&& 0x0F#8 = 0x01#8 → decResponse c (b0 :: body) =
        if body.length + 1 < c.lenVersion then none
        else some (.version ((b0 >>> 4).truncate 4) (body.take (c.lenVersion - 1)))) ∧
      (b0.truncate 4 = c.opError → decResponse c (b0 :: body) =
        if body.length + 1 < c.lenError then none
        else some (.error ((b0 >>> 4).truncate 4) (body.take (c.lenError - 1)))))

/-- 42_control_packets.md R167, an inference the spec marks as derived: the unused high nibble of
GetVersion, LedOn, LedOff and Params, with any values, is ignored on decode and 0 on encode, so encode of
decode may differ from the packet. -/
def Obligations.EncodeOfDecodeMayDiffer : Prop :=
  ∀ (c : Config) (n : Nibble) (vs : List Word), c.Admitted → vs.length ≤ 31 →
    decRequest c [headByte n 0x1#4] = some .getVersion ∧ encRequest c .getVersion = [0x01#8] ∧
    decRequest c [headByte n c.opLedOn] = some .ledOn ∧ encRequest c .ledOn = [c.opLedOn.zeroExtend 8] ∧
    decRequest c [headByte n c.opLedOff] = some .ledOff ∧ encRequest c .ledOff = [c.opLedOff.zeroExtend 8] ∧
    (∃ payload : List Byte, encResponse c (.params vs) = c.opParams.zeroExtend 8 :: payload ∧
      decResponse c (headByte n c.opParams :: payload) = some (.params vs) ∧
      (n ≠ 0#4 → encResponse c (.params vs) ≠ headByte n c.opParams :: payload)) ∧
    (n ≠ 0#4 → encRequest c .getVersion ≠ [headByte n 0x1#4] ∧ encRequest c .ledOn ≠ [headByte n c.opLedOn] ∧
      encRequest c .ledOff ≠ [headByte n c.opLedOff])

/-- 42_control_packets.md R174: a GetVersion is answered with a Version and a Ping with a Pong by USB.TX, whose
contents the source does not give: they are free values of the model (notes/assumptions/7.md), as the draws
they take. While a transmission is on its way the command waits; that the model shows it so is its own choice
(notes/assumptions/11.md). -/
def Obligations.GetVersionAndPingAreAnswered : Prop :=
  ∀ (payload : Nibble) (version : Byte) (s : State), s.Inv →
    (s.txLoop = false →
      (∃ (n : Nibble) (body : List Byte) (d : Nat) (t : State), body.length + 1 = s.cfg.lenVersion ∧
        exec .reqGetVersion s = .next t ∧ exec (.usbTx (.version n body)) { s with draws := d } = .next t ∧
        t = { s with
          txBuf := t.txBuf, txLen := t.txLen, txSent := t.txSent, txLoop := t.txLoop,
          usbWrites := t.usbWrites, outputs := t.outputs, draws := d }) ∧
      (∃ (p : Nibble) (v : Byte) (d : Nat) (t : State),
        exec (.reqPing payload version) s = .next t ∧ exec (.usbTx (.pong p v)) { s with draws := d } = .next t ∧
        t = { s with
          txBuf := t.txBuf, txLen := t.txLen, txSent := t.txSent, txLoop := t.txLoop,
          usbWrites := t.usbWrites, outputs := t.outputs, draws := d })) ∧
    (s.txLoop = true →
      exec .reqGetVersion s = .next { s with outputs := [.held] } ∧
      exec (.reqPing payload version) s = .next { s with outputs := [.held] })

/-- 42_control_packets.md R174, 00_scope.md R5: a command whose parameter index is out of the declared range is
ignored; the other commands' effects are outside the block, which gives them to the application and changes
nothing of its own. Both outputs are the model's choice (notes/assumptions/15.md, 24.md). -/
def Obligations.OtherCommandsLeaveTheBlock : Prop :=
  ∀ (index n : Nibble) (value : Word) (body : List Byte) (s : State),
    (index ∈ s.cfg.declaredIndices →
      exec (.reqSetParam index value) s = .next { s with outputs := [.command (.setParam index value)] } ∧
      exec (.reqGetParam index) s = .next { s with outputs := [.command (.getParam index)] }) ∧
    (index ∉ s.cfg.declaredIndices →
      exec (.reqSetParam index value) s = .next { s with outputs := [.ignored (.setParam index value)] } ∧
      exec (.reqGetParam index) s = .next { s with outputs := [.ignored (.getParam index)] }) ∧
    exec .reqLedOn s = .next { s with outputs := [.command .ledOn] } ∧
    exec .reqLedOff s = .next { s with outputs := [.command .ledOff] } ∧
    exec (.reqEnableGenerator n body) s = .next { s with outputs := [.command (.enableGenerator n body)] } ∧
    exec (.reqDisableGenerator n body) s = .next { s with outputs := [.command (.disableGenerator n body)] }

/-- 42_control_packets.md R173, R161 to R165: a response goes to the host's caller; an Unknown packet is
discarded; the state of the block does not change. That the whole effect is an output of the step is the
model's choice (notes/assumptions/15.md). -/
def Obligations.ResponsesReachTheCaller : Prop :=
  ∀ (n : Nibble) (v : Byte) (body : List Byte) (values : List Word) (s : State),
    exec (.rspVersion n body) s = .next { s with outputs := [.hostReceived (.version n body)] } ∧
    exec (.rspPong n v) s = .next { s with outputs := [.hostReceived (.pong n v)] } ∧
    exec (.rspParams values) s = .next { s with outputs := [.hostReceived (.params values)] } ∧
    exec (.rspError n body) s = .next { s with outputs := [.hostReceived (.error n body)] } ∧
    exec .pktUnknown s = .next { s with outputs := [.discarded] }

/-! ### Transport loops -/

/-- 42_control_packets.md R170: once `poll()` is false nothing is read and nothing handed on, whether USB.RX
starts or goes on from its poll. That a poll that would block is retried until then, and that the answers are
lists, used up in order, are DEDUCED (notes/assumptions/13.md). -/
def Obligations.QuietPollDoesNothing : Prop :=
  ∀ (j : Nat) (s : State),
    (s.rxPhase = .idle → s.usbPolls = List.replicate j .wouldBlock →
      exec (.usbRx .quiet) s = .next { s with
        usbPolls := []
        outputs := List.replicate j (.usbPoll .wouldBlock) ++ [.usbPoll (.ready false)] }) ∧
    (s.rxPhase = .polling → s.deviceMoves → s.usbPolls = List.replicate j .wouldBlock ++ [.ready false] →
      step s = .next { s with
        rxPhase := .idle
        usbPolls := []
        outputs := List.replicate j (.usbPoll .wouldBlock) ++ [.usbPoll (.ready false)] })

/-- 42_control_packets.md R170: after any number of would-blocks of `poll` and `read`, the read that does not
block fills RX_BUF and RX_LEN; an empty read or an Unknown packet hands nothing on, a request goes to the
command-processing task. The same where USB.RX goes on in a later step, from its poll or from its read loop.
That a poll that would block is retried, that the rest of RX_BUF stays and that a stimulus's packet stands
after the answers already there are DEDUCED (notes/assumptions/13.md); that the hand-over is a pending stimulus,
of which any number may wait, is the model's choice (notes/assumptions/2.md, 23.md). -/
def Obligations.ReceiveHandsOnOneRequest : Prop :=
  ∀ (j k : Nat) (bytes : List Byte) (s : State), bytes.length ≤ 64 →
    (s.rxPhase = .idle → s.usbPolls = List.replicate j .wouldBlock → s.usbReads = List.replicate k .wouldBlock →
      exec (.usbRx (.packet bytes)) s = .next (afterReceive bytes
        (List.replicate j (.usbPoll .wouldBlock) ++ [.usbPoll (.ready true)] ++
          List.replicate k (.usbRead .wouldBlock) ++ [.usbRead (.data bytes)]) s)) ∧
    (s.rxPhase = .polling → s.deviceMoves → s.usbPolls = List.replicate j .wouldBlock ++ [.ready true] →
      s.usbReads = List.replicate k .wouldBlock ++ [.data bytes] →
      step s = .next (afterReceive bytes
        (List.replicate j (.usbPoll .wouldBlock) ++ [.usbPoll (.ready true)] ++
          List.replicate k (.usbRead .wouldBlock) ++ [.usbRead (.data bytes)]) s)) ∧
    (s.rxPhase = .reading → s.deviceMoves → s.usbReads = List.replicate k .wouldBlock ++ [.data bytes] →
      step s = .next { afterReceive bytes
        (List.replicate k (.usbRead .wouldBlock) ++ [.usbRead (.data bytes)]) s with usbPolls := s.usbPolls })

/-- 42_control_packets.md R170 (92_eei_decisions.md D25): a read that keeps blocking holds USB.RX in its loop, as
a repetition that is not skipped. That a poll that keeps blocking holds it in the same way is the model's
deduction (DEDUCED, notes/assumptions/13.md, unsafe for this claim): R170's loop and D25 speak of the read alone.
That every pending stimulus waits meanwhile, an event of the same tier too, is 60_exceptions.md R205 and R206 as
the model reads them (notes/assumptions/14.md), and so is the hold of a further USB.RX
(notes/assumptions/11.md). -/
def Obligations.BlockedReceiveKeepsLooping : Prop :=
  ∀ (j k : Nat) (s : State),
    (s.rxPhase = .idle → s.usbPolls = List.replicate j .wouldBlock →
      exec (.usbRx .pollBlocked) s = .next { s with
        rxPhase := .polling, usbPolls := [], outputs := List.replicate j (.usbPoll .wouldBlock) } ∧
      (s.usbReads = List.replicate k .wouldBlock → exec (.usbRx .readBlocked) s = .next { s with
        rxPhase := .reading, usbPolls := [], usbReads := []
        outputs := List.replicate j (.usbPoll .wouldBlock) ++ [.usbPoll (.ready true)] ++
          List.replicate k (.usbRead .wouldBlock) })) ∧
    (s.rxPhase = .polling → s.deviceMoves → s.usbPolls = List.replicate j .wouldBlock →
      step s = .next { s with usbPolls := [], outputs := List.replicate j (.usbPoll .wouldBlock) }) ∧
    (s.rxPhase = .reading → s.deviceMoves → s.usbReads = List.replicate k .wouldBlock →
      step s = .next { s with usbReads := [], outputs := List.replicate k (.usbRead .wouldBlock) }) ∧
    (s.rxPhase ≠ .idle → ∀ x : RxInput, exec (.usbRx x) s = .next { s with outputs := [.held] })

/-- 42_control_packets.md R171: TX_BUF holds the packet, TX_LEN its wire length; each call offers the bytes not
yet accepted, and the loop goes on until TX_SENT, the bytes accepted so far, reaches TX_LEN. For an answer
that accepts more than was offered TX_SENT stops at TX_LEN (DEDUCED, notes/assumptions/13.md). -/
def Obligations.TransmitUntilAccepted : Prop :=
  ∀ (p : Response) (s : State), s.txLoop = false → p.wellFormed s.cfg = true →
    ∃ t : State, exec (.usbTx p) s = .next t ∧
      t.txBuf = padPacket (encResponse s.cfg p) ∧
      t.txLen = (if s.cfg.wireMode = .full64 then padPacket (encResponse s.cfg p) else encResponse s.cfg p).length ∧
      t.txSent = min t.txLen (acceptedBytes s.usbWrites) ∧
      (t.txLoop = true ↔ t.txSent < t.txLen) ∧
      t.outputs = writeCalls (wireBytes s.cfg (encResponse s.cfg p)) s.usbWrites ∧
      t = { s with
        txBuf := t.txBuf, txLen := t.txLen, txSent := t.txSent, txLoop := t.txLoop,
        usbWrites := s.usbWrites.drop t.outputs.length, outputs := t.outputs }

/-- 42_control_packets.md R171 (92_eei_decisions.md D24), 60_exceptions.md R206, 70_reset_and_hazards.md R239:
while the write loop runs and nothing of a higher tier is ready, the step is the loop's own: over any answers of
the transport, none included, each call offers TX_BUF[TX_SENT .. TX_LEN-1] and TX_SENT moves on by what is
accepted; answers after the last byte is accepted are not used; every pending task of the lowest tier waits. For
an answer that accepts more than was offered TX_SENT stops at TX_LEN (DEDUCED, notes/assumptions/13.md); that
a step with no answer idles, and the tiers of FEED, a lone FSM.EMIT and BB.EMIT, are the model's
(notes/assumptions/13.md, 14.md). -/
def Obligations.WriteCallResumes : Prop :=
  ∀ s : State, s.Inv →
    choose s = .txLoop ∨ (s.txLoop = true ∧ s.deviceMoves ∧ s.rxPhase = .idle ∧
      ∀ x ∈ s.pending, stimulusTier x ≠ .high ∧ stimulusTier x ≠ .middle) →
    ∃ t : State, step s = .next t ∧
      t.outputs = writeCalls ((s.txBuf.take s.txLen).drop s.txSent) s.usbWrites ∧
      t.txSent = min s.txLen (s.txSent + acceptedBytes s.usbWrites) ∧ t.txLoop = decide (t.txSent < s.txLen) ∧
      t = { s with
        txSent := t.txSent, txLoop := t.txLoop,
        usbWrites := s.usbWrites.drop t.outputs.length, outputs := t.outputs }

/-- 42_control_packets.md R171 (and 70_reset_and_hazards.md R239, an inference the spec marks as derived): a
transport that accepts nothing holds USB.TX for ever: no step of the block ends the loop or moves TX_SENT. No
step takes a task of the lowest tier meanwhile: those pending stay, in order, and new ones come after them
(60_exceptions.md R206; the tier of BB.EMIT is the model's, notes/assumptions/14.md, and that a request handed
on is such a pending task, notes/assumptions/2.md and 23.md). -/
def Obligations.TransmitNeverGivesUp : Prop :=
  ∀ s t : State, s.Inv → s.txLoop = true → acceptsNothing s.usbWrites → step s = .next t →
    t.txLoop = true ∧ t.txSent = s.txSent ∧ t.txLen = s.txLen ∧ t.txBuf = s.txBuf ∧ acceptsNothing t.usbWrites ∧
      ∃ handed : List Stimulus, t.lowPending = s.lowPending ++ handed

/-- 42_control_packets.md R173: after fewer failed attempts (would-blocks, timeouts, short writes) than the
budget a whole write ends the transfer well; with no answer left it waits. The same where the transfer goes
on in a later step. That the count ends at the failures is DEDUCED (notes/assumptions/16.md); whether a short
write resumes is free, and a would-block or timeout keeps the bytes accepted (notes/assumptions/8.md). -/
def Obligations.HostWriteSucceedsWithinBudget : Prop :=
  ∀ (fails : List HostWriteReply) (n : Nat) (s : State), (∀ x ∈ fails, x.mayFail) →
    (∀ (r : Request) (pkt : List Byte), s.hostPhase = .idle → r.wellFormed s.cfg = true →
      pkt = wireBytes s.cfg (encRequest s.cfg r) → hostAcceptedBytes fails < pkt.length →
      fails.length < s.cfg.hostRetryBudget →
      (s.hostWrites = fails ++ [.accepted n] → pkt.length ≤ n →
        ∃ d : Nat, exec (.usbHost (.txh r)) s = .next
          { hostEnd .write fails.length (fails.length + 1) (.hostSent pkt) s with hostWrites := [], draws := d }) ∧
      (s.hostWrites = fails →
        ∃ sent d : Nat, sent < pkt.length ∧ exec (.usbHost (.txh r)) s = .next { s with
          hostAttempts := fails.length, hostPhase := .writing pkt sent, hostWrites := [], draws := d
          outputs := List.replicate fails.length (.hostAttempt .write s.cfg.hostTimeout) })) ∧
    (∀ (pkt : List Byte) (sent : Nat), s.hostPhase = .writing pkt sent →
      sent + hostAcceptedBytes fails < pkt.length →
      s.hostAttempts + fails.length < s.cfg.hostRetryBudget → s.hostWrites = fails ++ [.accepted n] →
      pkt.length ≤ n ∨ ((∀ x ∈ fails, x = .wouldBlock ∨ x = .timeout) ∧ pkt.length ≤ sent + n) →
      ∃ d : Nat, step s = .next
        { hostEnd .write (s.hostAttempts + fails.length) (fails.length + 1) (.hostSent pkt) s with
          hostWrites := [], draws := d }) ∧
    (∀ (pkt : List Byte) (sent : Nat), s.hostPhase = .writing pkt sent →
      sent + hostAcceptedBytes fails < pkt.length →
      s.hostAttempts + fails.length < s.cfg.hostRetryBudget → s.hostWrites = fails → fails ≠ [] →
      ∃ sent' d : Nat, sent' < pkt.length ∧ step s = .next { s with
        hostAttempts := s.hostAttempts + fails.length, hostPhase := .writing pkt sent', hostWrites := [], draws := d
        outputs := List.replicate fails.length (.hostAttempt .write s.cfg.hostTimeout) })

/-- 42_control_packets.md R173, 60_exceptions.md R201: after HOST_RETRY_BUDGET failed attempts (would-blocks,
timeouts, short writes), or at a hard error of the host's driver, a host write ends with a typed error naming
the vendor and product identifier and the failing operation; later outcomes are not used. The same where the
transfer goes on in a later step. The count at the budget's end and the error at once for budget 0 are DEDUCED
(notes/assumptions/16.md), the identifiers are the model's constants (notes/assumptions/9.md), and that a hard
error ends the transfer at once, uncounted, is DEDUCED (notes/assumptions/25.md). -/
def Obligations.HostWriteErrorAfterBudget : Prop :=
  ∀ (fails rest : List HostWriteReply) (e : HardError) (s : State), (∀ x ∈ fails, x.mayFail) →
    (∀ r : Request, s.hostPhase = .idle → r.wellFormed s.cfg = true →
      hostAcceptedBytes fails < (wireBytes s.cfg (encRequest s.cfg r)).length →
      (fails.length = s.cfg.hostRetryBudget → s.hostWrites = fails ++ rest →
        ∃ d : Nat, exec (.usbHost (.txh r)) s = .next
          { hostEnd .write fails.length fails.length (hostErrorOf .write .retriesExhausted) s with
            hostWrites := rest, draws := d }) ∧
      (fails.length < s.cfg.hostRetryBudget → s.hostWrites = fails ++ .hardError e :: rest →
        ∃ d : Nat, exec (.usbHost (.txh r)) s = .next
          { hostEnd .write fails.length (fails.length + 1) (hostErrorOf .write (.hard e)) s with
            hostWrites := rest, draws := d })) ∧
    (∀ (pkt : List Byte) (sent : Nat), s.hostPhase = .writing pkt sent → s.hostWrites ≠ [] →
      sent + hostAcceptedBytes fails < pkt.length →
      (s.hostAttempts + fails.length = s.cfg.hostRetryBudget → s.hostWrites = fails ++ rest →
        ∃ d : Nat, step s = .next
          { hostEnd .write (s.hostAttempts + fails.length) fails.length (hostErrorOf .write .retriesExhausted) s with
            hostWrites := rest, draws := d }) ∧
      (s.hostAttempts + fails.length < s.cfg.hostRetryBudget → s.hostWrites = fails ++ .hardError e :: rest →
        ∃ d : Nat, step s = .next
          { hostEnd .write (s.hostAttempts + fails.length) (fails.length + 1) (hostErrorOf .write (.hard e)) s with
            hostWrites := rest, draws := d }))

/-- 42_control_packets.md R173, 60_exceptions.md R201: the host's read retries within its budget and decodes with
the response table; an Unknown packet is discarded; the budget's end and a hard error end it with a typed
error; with no answer left it waits. So for a read from an idle host, for RXH, whose packet stands after the
answers already there, and where the read goes on in a later step. That the bytes of a short read are dropped, so
that the packet after it is decoded alone, is the model's choice (DESIGN CHOICE, notes/assumptions/16.md, unsafe
for the decode clause where `fails` holds a short read), and so is that a read's data of any length, none
included, is a whole packet and a successful attempt (16.md too). The count at the budget's end is DEDUCED (16.md
too), the identifiers are the model's constants (9.md), the place of RXH's packet is DEDUCED (13.md), a hard
error is not counted (25.md), and that a response is an output to the caller is the model's choice (15.md). -/
def Obligations.HostReadRetriesAndDecodes : Prop :=
  ∀ (fails rest reads : List HostReadReply) (bytes packet : List Byte) (e : HardError) (s : State) (a : Nat)
    (run : Host.Outcome State Fault Refusal), bytes.length ≤ 64 → (∀ x ∈ fails, x.fails) →
    (s.hostPhase = .idle ∧ a = 0 ∧ reads = s.hostReads ∧ run = exec (.usbHost .rxhBlocked) s) ∨
      (s.hostPhase = .idle ∧ a = 0 ∧ reads = s.hostReads ++ [.data packet] ∧ run = exec (.usbHost (.rxh packet)) s) ∨
      (s.hostPhase = .reading ∧ a = s.hostAttempts ∧ reads = s.hostReads ∧ reads ≠ [] ∧ run = step s) →
    (a + fails.length < s.cfg.hostRetryBudget → reads = fails ++ .data bytes :: rest →
      run = .next { hostEnd .read (a + fails.length) (fails.length + 1) (match decResponse s.cfg bytes with
          | none => .discarded
          | some r => .hostReceived r) s with hostReads := rest }) ∧
    (a + fails.length < s.cfg.hostRetryBudget → reads = fails ++ .hardError e :: rest →
      run = .next { hostEnd .read (a + fails.length) (fails.length + 1) (hostErrorOf .read (.hard e)) s with
        hostReads := rest }) ∧
    (a + fails.length = s.cfg.hostRetryBudget → reads = fails ++ rest →
      run = .next { hostEnd .read (a + fails.length) fails.length (hostErrorOf .read .retriesExhausted) s with
        hostReads := rest }) ∧
    (a + fails.length < s.cfg.hostRetryBudget → reads = fails →
      run = .next { s with
        hostAttempts := a + fails.length, hostPhase := .reading, hostReads := []
        outputs := List.replicate fails.length (.hostAttempt .read s.cfg.hostTimeout) })

/-! ### The whole block -/

/-- A step that takes a stimulus runs the operation it decodes to, on the state without that stimulus. -/
def Obligations.StepRunsDecodedOperation : Prop :=
  ∀ (x : Stimulus) (rest : List Stimulus) (i : Instr) (s : State), choose s = .take x rest →
    decode s.cfg s.fsm.tag x = .ok i → i.wellFormed s.cfg = true → step s = exec i { s with pending := rest }

/-- 00_scope.md R7: a stimulus that alone is pending, in a block with no loop running, is taken by the next
step and its operation run. -/
def Obligations.LoneStimulusIsTaken : Prop :=
  ∀ (x : Stimulus) (i : Instr) (s : State), s.pending = [x] → s.rxPhase = .idle → s.txLoop = false →
    s.hostPhase = .idle → stimulusEnabled s x = true → decode s.cfg s.fsm.tag x = .ok i →
    step s = exec i { s with pending := [] }

/-- 60_exceptions.md R205, R206: bus samples and USB-line interrupts are of the highest tier, USB transmit and
receive interrupts of the middle one, the transfer and command tasks of the lowest. A pending event is taken
before any of a lower tier, and within its tier in arrival order. That the tier of a FEED, a lone FSM.EMIT and
BB.EMIT follows `stimulusTier`, that a running write loop keeps the lowest tier, that a task with nothing to
do is passed over, and that a middle interrupt changes nothing, are the model's (notes/assumptions/14.md,
11.md). So is that a USB.RX goes before a running write loop, between two of its calls: a lock that USB.TX holds
over the whole loop would make it wait (DESIGN CHOICE, 14.md, unsafe for this claim). -/
def Obligations.HighestTierGoesFirst : Prop :=
  (∀ (a b : Word) (x : RxInput) (k : UsbInterrupt) (p : Response) (bytes : List Byte),
    stimulusTier (.sample a b) = .high ∧ stimulusTier (.rx x) = .high ∧ stimulusTier (.usbInterrupt k) = .middle ∧
    stimulusTier .pop = .low ∧ stimulusTier (.tx p) = .low ∧ stimulusTier (.packet .request bytes) = .low) ∧
  ∀ (before after : List Stimulus) (x : Stimulus) (s : State),
    s.pending = before ++ x :: after → s.rxPhase = .idle → s.deviceMoves →
    (∀ i : Instr, stimulusTier x = .high → (∀ y ∈ before, stimulusTier y ≠ .high) →
      decode s.cfg s.fsm.tag x = .ok i → step s = exec i { s with pending := before ++ after }) ∧
    (∀ k : UsbInterrupt, x = .usbInterrupt k → (∀ y ∈ s.pending, stimulusTier y ≠ .high) →
      (∀ y ∈ before, stimulusTier y ≠ .middle) →
      step s = .next { s with pending := before ++ after, outputs := [.usbInterrupt k] }) ∧
    (∀ i : Instr, stimulusTier x = .low → (∀ y ∈ s.pending, stimulusTier y ≠ .high ∧ stimulusTier y ≠ .middle) →
      s.txLoop = false → (∀ y ∈ before, stimulusEnabled s y = false) → stimulusEnabled s x = true →
      decode s.cfg s.fsm.tag x = .ok i → step s = exec i { s with pending := before ++ after })

/-- 60_exceptions.md R213: with nothing ready the block idles and its state survives. -/
def Obligations.IdleKeepsState : Prop :=
  ∀ s : State, s.quiescent → step s = .next { s with outputs := [] }

/-- 60_exceptions.md R200: every operation is total: on operands within their bounds it ends in a next state.
For FSM.POP with FQ empty, and for a transfer while one is on its way, that next state is the model's hold,
where the spec gives no step (notes/assumptions/11.md); for an FSM.ADVANCE row outside its sequencing state it
is the dispatch of its word (notes/assumptions/12.md). -/
def Obligations.EveryOperationEndsInANextState : Prop :=
  ∀ (i : Instr) (s : State), s.Inv → i.wellFormed s.cfg = true → ∃ t : State, exec i s = .next t

/-- 60_exceptions.md R200: no step of the block faults from a state within its bounds. -/
def Obligations.StepNeverFaults : Prop :=
  ∀ (e : Fault) (s : State), s.Inv → step s ≠ .fault e

/-- The decoder gives back every well-formed operation the encoder writes, in the sequencing states that
select its row, with every operand. -/
def Obligations.DecodeOfEncodeIsIdentity : Prop :=
  ∀ (c : Config) (tag : Tag) (i : Instr) (x : Stimulus), c.Admitted → i.wellFormed c = true →
    i.selectedIn tag = true → encode c i = some x → decode c tag x = .ok i

/-- 30_encoding.md R75, R82, R84: words written out from the spec's encodings decode to their rows. -/
def Obligations.WrittenWordsDecode : Prop :=
  decode .ref .dpc (.feed 0b0101010101010101#16) = .ok .fsmAdvanceDpcSentinel ∧
  decode .ref .dm (.packet .request [0b11110001#8]) = .ok .reqGetVersion ∧
  decode .ref .dm (.packet .request [0b10100010#8, 0b00000111#8]) = .ok (.reqPing 0xA#4 0x07#8) ∧
  decode .ref .dm (.packet .request [0b00110100#8, 0b11101000#8, 0b00000011#8]) =
    .ok (.reqSetParam 3#4 1000#16) ∧
  decode .ref .dm (.packet .response [0b00001010#8, 0b00000001#8, 0b11101000#8, 0b00000011#8]) =
    .ok (.rspParams [1000#16]) ∧
  decode .ref .dm (.packet .request [0b11111111#8]) = .ok .pktUnknown

/-- Every step keeps every element of the state within the bounds 10_state.md gives it. -/
def Obligations.StepKeepsBounds : Prop :=
  ∀ s t : State, s.Inv → step s = .next t → t.Inv

/-- The state after reset is within those bounds, for every admitted configuration. Of its values only
those R230 and R231 state are the spec's (notes/assumptions/10.md). -/
def Obligations.ResetIsWithinBounds : Prop :=
  (∀ c : Config, c.Admitted → (State.resetWith c).Inv) ∧ State.reset.Inv

/-- 70_reset_and_hazards.md R230, R231: what the spec gives for reset (DetectMarker; FQ empty, STROBE at its
idle level, the configuration as it was built), and the host's attempt count, 0 at each transfer. -/
def Obligations.ResetValues : Prop :=
  (∀ c : Config, (State.resetWith c).fsm = .detectMarker ∧ (State.resetWith c).fq = [] ∧
    (State.resetWith c).strobe = !c.strobeActive ∧ (State.resetWith c).cfg = c) ∧
  (∀ (op : HostOp) (s : State), s.hostPhase = .idle → s.hostReads = [] → s.hostWrites = [] →
    op = .rxhBlocked ∨ (∃ r : Request, r.wellFormed s.cfg = true ∧ op = .txh r) →
    ∃ t : State, exec (.usbHost op) s = .next t ∧ t.hostAttempts = 0)

/-- 10_state.md R24, R33, R34, R35: the ports are written by BB.EMIT alone, RX_BUF and RX_LEN by USB.RX,
TX_BUF, TX_LEN and TX_SENT by USB.TX (which FSM.POP and the answers to GetVersion and Ping start), the attempt
count by host transfers. -/
def Obligations.DatapathHasOneWriter : Prop :=
  ∀ (i : Instr) (s t : State), exec i s = .next t →
    ((∀ w, i ≠ .bbEmit w) → t.paOut = s.paOut ∧ t.pbOut = s.pbOut ∧ t.strobe = s.strobe) ∧
    ((∀ x, i ≠ .usbRx x) → t.rxBuf = s.rxBuf ∧ t.rxLen = s.rxLen ∧ t.rxPhase = s.rxPhase) ∧
    ((∀ p, i ≠ .usbTx p) → i ≠ .fsmPop → i ≠ .reqGetVersion → (∀ p v, i ≠ .reqPing p v) →
      t.txBuf = s.txBuf ∧ t.txLen = s.txLen ∧ t.txSent = s.txSent ∧ t.txLoop = s.txLoop) ∧
    ((∀ op, i ≠ .usbHost op) → t.hostAttempts = s.hostAttempts ∧ t.hostPhase = s.hostPhase)

/-- 10_state.md R30, R31, 20_memory.md R61: FQ changes only by a push at its tail, which FSM.EMIT makes, called
by itself or by a word that BB.SAMPLE or an FSM.ADVANCE row gives in ReadParams, or by the pop of FSM.POP at
its head; the ProtocolState changes only by a word fed to it. That FSM.EMIT may be called by itself is the
model's choice (notes/assumptions/2.md). -/
def Obligations.QueueIsFirstInFirstOut : Prop :=
  ∀ (i : Instr) (s t : State), exec i s = .next t →
    (t.fq = s.fq ∨
      (∃ f, t.fq = s.fq ++ [f] ∧ s.fq.length < 5 ∧
        (i = .fsmEmit f ∨ (feedsWord i ∧ ∃ b, s.fsm = .readParams b ∧ t.fsm = .waitForMarker b.expected))) ∨
      (i = .fsmPop ∧ ∃ f, s.fq = f :: t.fq)) ∧
    (t.fsm ≠ s.fsm → feedsWord i)

/-- 10_state.md R23, 20_memory.md R64: no step writes the configuration. -/
def Obligations.ConfigurationIsFixed : Prop :=
  ∀ s t : State, step s = .next t → t.cfg = s.cfg
end

