-- ==== Sys2Proof/Laws/State.lean ====
section
/-! SUPPORT. What each update of the state leaves in each field, once for all: true by rfl, tagged simp, so
that no proof unfolds a record update. -/

namespace Sys2Proof.Machine

/-! ### `State.fresh` -/

@[simp] theorem State.fresh_cfg (s : State) : s.fresh.cfg = s.cfg := rfl
@[simp] theorem State.fresh_paOut (s : State) : s.fresh.paOut = s.paOut := rfl
@[simp] theorem State.fresh_pbOut (s : State) : s.fresh.pbOut = s.pbOut := rfl
@[simp] theorem State.fresh_strobe (s : State) : s.fresh.strobe = s.strobe := rfl
@[simp] theorem State.fresh_fsm (s : State) : s.fresh.fsm = s.fsm := rfl
@[simp] theorem State.fresh_fq (s : State) : s.fresh.fq = s.fq := rfl
@[simp] theorem State.fresh_rxBuf (s : State) : s.fresh.rxBuf = s.rxBuf := rfl
@[simp] theorem State.fresh_rxLen (s : State) : s.fresh.rxLen = s.rxLen := rfl
@[simp] theorem State.fresh_rxPhase (s : State) : s.fresh.rxPhase = s.rxPhase := rfl
@[simp] theorem State.fresh_txBuf (s : State) : s.fresh.txBuf = s.txBuf := rfl
@[simp] theorem State.fresh_txLen (s : State) : s.fresh.txLen = s.txLen := rfl
@[simp] theorem State.fresh_txSent (s : State) : s.fresh.txSent = s.txSent := rfl
@[simp] theorem State.fresh_txLoop (s : State) : s.fresh.txLoop = s.txLoop := rfl
@[simp] theorem State.fresh_hostAttempts (s : State) : s.fresh.hostAttempts = s.hostAttempts := rfl
@[simp] theorem State.fresh_hostPhase (s : State) : s.fresh.hostPhase = s.hostPhase := rfl
@[simp] theorem State.fresh_pending (s : State) : s.fresh.pending = s.pending := rfl
@[simp] theorem State.fresh_usbPolls (s : State) : s.fresh.usbPolls = s.usbPolls := rfl
@[simp] theorem State.fresh_usbReads (s : State) : s.fresh.usbReads = s.usbReads := rfl
@[simp] theorem State.fresh_usbWrites (s : State) : s.fresh.usbWrites = s.usbWrites := rfl
@[simp] theorem State.fresh_hostReads (s : State) : s.fresh.hostReads = s.hostReads := rfl
@[simp] theorem State.fresh_hostWrites (s : State) : s.fresh.hostWrites = s.hostWrites := rfl
@[simp] theorem State.fresh_outputs (s : State) : s.fresh.outputs = [] := rfl
@[simp] theorem State.fresh_draws (s : State) : s.fresh.draws = s.draws := rfl

/-! ### `State.out` -/

@[simp] theorem State.out_cfg (s : State) (o : Output) : (s.out o).cfg = s.cfg := rfl
@[simp] theorem State.out_paOut (s : State) (o : Output) : (s.out o).paOut = s.paOut := rfl
@[simp] theorem State.out_pbOut (s : State) (o : Output) : (s.out o).pbOut = s.pbOut := rfl
@[simp] theorem State.out_strobe (s : State) (o : Output) : (s.out o).strobe = s.strobe := rfl
@[simp] theorem State.out_fsm (s : State) (o : Output) : (s.out o).fsm = s.fsm := rfl
@[simp] theorem State.out_fq (s : State) (o : Output) : (s.out o).fq = s.fq := rfl
@[simp] theorem State.out_rxBuf (s : State) (o : Output) : (s.out o).rxBuf = s.rxBuf := rfl
@[simp] theorem State.out_rxLen (s : State) (o : Output) : (s.out o).rxLen = s.rxLen := rfl
@[simp] theorem State.out_rxPhase (s : State) (o : Output) : (s.out o).rxPhase = s.rxPhase := rfl
@[simp] theorem State.out_txBuf (s : State) (o : Output) : (s.out o).txBuf = s.txBuf := rfl
@[simp] theorem State.out_txLen (s : State) (o : Output) : (s.out o).txLen = s.txLen := rfl
@[simp] theorem State.out_txSent (s : State) (o : Output) : (s.out o).txSent = s.txSent := rfl
@[simp] theorem State.out_txLoop (s : State) (o : Output) : (s.out o).txLoop = s.txLoop := rfl
@[simp] theorem State.out_hostAttempts (s : State) (o : Output) : (s.out o).hostAttempts = s.hostAttempts := rfl
@[simp] theorem State.out_hostPhase (s : State) (o : Output) : (s.out o).hostPhase = s.hostPhase := rfl
@[simp] theorem State.out_pending (s : State) (o : Output) : (s.out o).pending = s.pending := rfl
@[simp] theorem State.out_usbPolls (s : State) (o : Output) : (s.out o).usbPolls = s.usbPolls := rfl
@[simp] theorem State.out_usbReads (s : State) (o : Output) : (s.out o).usbReads = s.usbReads := rfl
@[simp] theorem State.out_usbWrites (s : State) (o : Output) : (s.out o).usbWrites = s.usbWrites := rfl
@[simp] theorem State.out_hostReads (s : State) (o : Output) : (s.out o).hostReads = s.hostReads := rfl
@[simp] theorem State.out_hostWrites (s : State) (o : Output) : (s.out o).hostWrites = s.hostWrites := rfl
@[simp] theorem State.out_outputs (s : State) (o : Output) : (s.out o).outputs = s.outputs ++ [o] := rfl
@[simp] theorem State.out_draws (s : State) (o : Output) : (s.out o).draws = s.draws := rfl

/-! ### `State.answer` -/

@[simp] theorem State.answer_cfg (s : State) (o : Output) : (s.answer o).cfg = s.cfg := rfl
@[simp] theorem State.answer_paOut (s : State) (o : Output) : (s.answer o).paOut = s.paOut := rfl
@[simp] theorem State.answer_pbOut (s : State) (o : Output) : (s.answer o).pbOut = s.pbOut := rfl
@[simp] theorem State.answer_strobe (s : State) (o : Output) : (s.answer o).strobe = s.strobe := rfl
@[simp] theorem State.answer_fsm (s : State) (o : Output) : (s.answer o).fsm = s.fsm := rfl
@[simp] theorem State.answer_fq (s : State) (o : Output) : (s.answer o).fq = s.fq := rfl
@[simp] theorem State.answer_rxBuf (s : State) (o : Output) : (s.answer o).rxBuf = s.rxBuf := rfl
@[simp] theorem State.answer_rxLen (s : State) (o : Output) : (s.answer o).rxLen = s.rxLen := rfl
@[simp] theorem State.answer_rxPhase (s : State) (o : Output) : (s.answer o).rxPhase = s.rxPhase := rfl
@[simp] theorem State.answer_txBuf (s : State) (o : Output) : (s.answer o).txBuf = s.txBuf := rfl
@[simp] theorem State.answer_txLen (s : State) (o : Output) : (s.answer o).txLen = s.txLen := rfl
@[simp] theorem State.answer_txSent (s : State) (o : Output) : (s.answer o).txSent = s.txSent := rfl
@[simp] theorem State.answer_txLoop (s : State) (o : Output) : (s.answer o).txLoop = s.txLoop := rfl
@[simp] theorem State.answer_hostAttempts (s : State) (o : Output) : (s.answer o).hostAttempts = s.hostAttempts := rfl
@[simp] theorem State.answer_hostPhase (s : State) (o : Output) : (s.answer o).hostPhase = s.hostPhase := rfl
@[simp] theorem State.answer_pending (s : State) (o : Output) : (s.answer o).pending = s.pending := rfl
@[simp] theorem State.answer_usbPolls (s : State) (o : Output) : (s.answer o).usbPolls = s.usbPolls := rfl
@[simp] theorem State.answer_usbReads (s : State) (o : Output) : (s.answer o).usbReads = s.usbReads := rfl
@[simp] theorem State.answer_usbWrites (s : State) (o : Output) : (s.answer o).usbWrites = s.usbWrites := rfl
@[simp] theorem State.answer_hostReads (s : State) (o : Output) : (s.answer o).hostReads = s.hostReads := rfl
@[simp] theorem State.answer_hostWrites (s : State) (o : Output) : (s.answer o).hostWrites = s.hostWrites := rfl
@[simp] theorem State.answer_outputs (s : State) (o : Output) : (s.answer o).outputs = [o] := rfl
@[simp] theorem State.answer_draws (s : State) (o : Output) : (s.answer o).draws = s.draws := rfl

/-! ### `State.hold` -/

@[simp] theorem State.hold_cfg (s : State) : s.hold.cfg = s.cfg := rfl
@[simp] theorem State.hold_paOut (s : State) : s.hold.paOut = s.paOut := rfl
@[simp] theorem State.hold_pbOut (s : State) : s.hold.pbOut = s.pbOut := rfl
@[simp] theorem State.hold_strobe (s : State) : s.hold.strobe = s.strobe := rfl
@[simp] theorem State.hold_fsm (s : State) : s.hold.fsm = s.fsm := rfl
@[simp] theorem State.hold_fq (s : State) : s.hold.fq = s.fq := rfl
@[simp] theorem State.hold_rxBuf (s : State) : s.hold.rxBuf = s.rxBuf := rfl
@[simp] theorem State.hold_rxLen (s : State) : s.hold.rxLen = s.rxLen := rfl
@[simp] theorem State.hold_rxPhase (s : State) : s.hold.rxPhase = s.rxPhase := rfl
@[simp] theorem State.hold_txBuf (s : State) : s.hold.txBuf = s.txBuf := rfl
@[simp] theorem State.hold_txLen (s : State) : s.hold.txLen = s.txLen := rfl
@[simp] theorem State.hold_txSent (s : State) : s.hold.txSent = s.txSent := rfl
@[simp] theorem State.hold_txLoop (s : State) : s.hold.txLoop = s.txLoop := rfl
@[simp] theorem State.hold_hostAttempts (s : State) : s.hold.hostAttempts = s.hostAttempts := rfl
@[simp] theorem State.hold_hostPhase (s : State) : s.hold.hostPhase = s.hostPhase := rfl
@[simp] theorem State.hold_pending (s : State) : s.hold.pending = s.pending := rfl
@[simp] theorem State.hold_usbPolls (s : State) : s.hold.usbPolls = s.usbPolls := rfl
@[simp] theorem State.hold_usbReads (s : State) : s.hold.usbReads = s.usbReads := rfl
@[simp] theorem State.hold_usbWrites (s : State) : s.hold.usbWrites = s.usbWrites := rfl
@[simp] theorem State.hold_hostReads (s : State) : s.hold.hostReads = s.hostReads := rfl
@[simp] theorem State.hold_hostWrites (s : State) : s.hold.hostWrites = s.hostWrites := rfl
@[simp] theorem State.hold_outputs (s : State) : s.hold.outputs = [.held] := rfl
@[simp] theorem State.hold_draws (s : State) : s.hold.draws = s.draws := rfl

/-! ### `State.deliver` -/

@[simp] theorem State.deliver_cfg (s : State) (x : Stimulus) : (s.deliver x).cfg = s.cfg := rfl
@[simp] theorem State.deliver_paOut (s : State) (x : Stimulus) : (s.deliver x).paOut = s.paOut := rfl
@[simp] theorem State.deliver_pbOut (s : State) (x : Stimulus) : (s.deliver x).pbOut = s.pbOut := rfl
@[simp] theorem State.deliver_strobe (s : State) (x : Stimulus) : (s.deliver x).strobe = s.strobe := rfl
@[simp] theorem State.deliver_fsm (s : State) (x : Stimulus) : (s.deliver x).fsm = s.fsm := rfl
@[simp] theorem State.deliver_fq (s : State) (x : Stimulus) : (s.deliver x).fq = s.fq := rfl
@[simp] theorem State.deliver_rxBuf (s : State) (x : Stimulus) : (s.deliver x).rxBuf = s.rxBuf := rfl
@[simp] theorem State.deliver_rxLen (s : State) (x : Stimulus) : (s.deliver x).rxLen = s.rxLen := rfl
@[simp] theorem State.deliver_rxPhase (s : State) (x : Stimulus) : (s.deliver x).rxPhase = s.rxPhase := rfl
@[simp] theorem State.deliver_txBuf (s : State) (x : Stimulus) : (s.deliver x).txBuf = s.txBuf := rfl
@[simp] theorem State.deliver_txLen (s : State) (x : Stimulus) : (s.deliver x).txLen = s.txLen := rfl
@[simp] theorem State.deliver_txSent (s : State) (x : Stimulus) : (s.deliver x).txSent = s.txSent := rfl
@[simp] theorem State.deliver_txLoop (s : State) (x : Stimulus) : (s.deliver x).txLoop = s.txLoop := rfl
@[simp] theorem State.deliver_hostAttempts (s : State) (x : Stimulus) : (s.deliver x).hostAttempts = s.hostAttempts := rfl
@[simp] theorem State.deliver_hostPhase (s : State) (x : Stimulus) : (s.deliver x).hostPhase = s.hostPhase := rfl
@[simp] theorem State.deliver_pending (s : State) (x : Stimulus) : (s.deliver x).pending = s.pending ++ [x] := rfl
@[simp] theorem State.deliver_usbPolls (s : State) (x : Stimulus) : (s.deliver x).usbPolls = s.usbPolls := rfl
@[simp] theorem State.deliver_usbReads (s : State) (x : Stimulus) : (s.deliver x).usbReads = s.usbReads := rfl
@[simp] theorem State.deliver_usbWrites (s : State) (x : Stimulus) : (s.deliver x).usbWrites = s.usbWrites := rfl
@[simp] theorem State.deliver_hostReads (s : State) (x : Stimulus) : (s.deliver x).hostReads = s.hostReads := rfl
@[simp] theorem State.deliver_hostWrites (s : State) (x : Stimulus) : (s.deliver x).hostWrites = s.hostWrites := rfl
@[simp] theorem State.deliver_outputs (s : State) (x : Stimulus) : (s.deliver x).outputs = s.outputs := rfl
@[simp] theorem State.deliver_draws (s : State) (x : Stimulus) : (s.deliver x).draws = s.draws := rfl

/-- Clearing the outputs twice is clearing them once. -/
@[simp] theorem State.fresh_fresh (s : State) : s.fresh.fresh = s.fresh := rfl

/-- A step's single output replaces those of the step before. -/
@[simp] theorem State.fresh_answer (s : State) (o : Output) : s.fresh.answer o = s.answer o := rfl

@[simp] theorem ProtocolState.tag_detectMarker : ProtocolState.detectMarker.tag = .dm := rfl
@[simp] theorem ProtocolState.tag_detectParamsCount (c : Nat) : (ProtocolState.detectParamsCount c).tag = .dpc := rfl
@[simp] theorem ProtocolState.tag_waitForMarker (n : Nat) : (ProtocolState.waitForMarker n).tag = .wfm := rfl
@[simp] theorem ProtocolState.tag_readParams (b : ParamsBuffer) : (ProtocolState.readParams b).tag = .rp := rfl

end Sys2Proof.Machine
end

