-- ==== Sys2Proof/Laws/BitBus.lean ====
section
/-! SUPPORT. What BB.DECODE, BB.ENCODE and the port masks give, bit by bit: cite these instead of unfolding
the folds. -/

namespace Sys2Proof.Machine

/-- `logicalBits` lists every logical bit. -/
theorem mem_logicalBits (i : Fin 16) : i ∈ logicalBits := by
  revert i; decide

/-- One bit of an or-fold. -/
theorem getLsbD_foldl_or (f : Fin 16 → Word) (l : List (Fin 16)) (acc : Word) (k : Nat) :
    (l.foldl (fun w i => w ||| f i) acc).getLsbD k = (acc.getLsbD k || l.any fun i => (f i).getLsbD k) := by
  induction l generalizing acc with
  | nil => simp
  | cons x xs ih => simp [ih, Bool.or_assoc]

/-- One bit of an or-fold over the positions that satisfy `p`. -/
theorem getLsbD_foldl_or_if (p : Fin 16 → Prop) [DecidablePred p] (f : Fin 16 → Word) (l : List (Fin 16))
    (acc : Word) (k : Nat) :
    (l.foldl (fun w i => if p i then w ||| f i else w) acc).getLsbD k
      = (acc.getLsbD k || l.any fun i => decide (p i) && (f i).getLsbD k) := by
  induction l generalizing acc with
  | nil => simp
  | cons x xs ih =>
    simp only [List.foldl_cons, List.any_cons]
    by_cases h : p x
    · simp [h, ih, Bool.or_assoc]
    · simp [h, ih]

/-- A moved bit stands at its target position alone. -/
theorem moveBit_getLsbD (v : Word) (k : Nat) (i j : Fin 16) :
    (moveBit v k i.val).getLsbD j.val = (decide (j = i) && v.getLsbD k) := by
  have hj := j.isLt
  have hi := i.isLt
  simp only [moveBit, BitVec.getLsbD_shiftLeft, BitVec.getLsbD_setWidth, BitVec.getLsbD_ofBool, Fin.ext_iff]
  by_cases h : j.val = i.val
  · simp [h, hi]
  · by_cases h2 : j.val < i.val
    · simp [h2, h]
    · have : j.val - i.val ≠ 0 := by omega
      simp [h, this]

/-- Bit i of BB.DECODE is the physical bit MAP(i) (40_bitbus.md R100). -/
theorem bbDecode_getLsbD (m : BitMap) (a b : Word) (i : Fin 16) :
    (bbDecode m a b).getLsbD i.val = (portOf m[i].port a b).getLsbD m[i].bit.val := by
  unfold bbDecode
  rw [getLsbD_foldl_or (fun i => moveBit (portOf m[i].port a b) m[i].bit.val i.val)]
  rw [Bool.eq_iff_iff]
  simp only [BitVec.getLsbD_zero, Bool.false_or, List.any_eq_true, moveBit_getLsbD, Bool.and_eq_true,
    decide_eq_true_eq]
  constructor
  · rintro ⟨x, -, rfl, h⟩; exact h
  · intro h; exact ⟨i, mem_logicalBits i, rfl, h⟩

/-- Bit k of BB.ENCODE's port p is the logical bit mapped there, or 0 (40_bitbus.md R101). -/
theorem bbEncodePort_getLsbD (m : BitMap) (p : Port) (w : Word) (k : Fin 16) :
    (bbEncodePort m p w).getLsbD k.val = true ↔ ∃ i : Fin 16, m[i] = ⟨p, k⟩ ∧ w.getLsbD i.val = true := by
  unfold bbEncodePort
  rw [getLsbD_foldl_or_if (fun i => m[i].port = p) (fun i => moveBit w i.val m[i].bit.val)]
  simp only [BitVec.getLsbD_zero, Bool.false_or, List.any_eq_true, moveBit_getLsbD, Bool.and_eq_true,
    decide_eq_true_eq]
  constructor
  · rintro ⟨i, -, hp, hk, hw⟩
    exact ⟨i, by rw [← hp, hk], hw⟩
  · rintro ⟨i, hm, hw⟩
    exact ⟨i, mem_logicalBits i, by rw [hm], by rw [hm], hw⟩

/-- Bit k of MASK_P is set exactly at mapped positions (30_encoding.md R74). -/
theorem portMask_getLsbD (m : BitMap) (p : Port) (k : Fin 16) :
    (portMask m p).getLsbD k.val = true ↔ ∃ i : Fin 16, m[i] = ⟨p, k⟩ := by
  have h1 : ∀ b : Fin 16, (1#16 <<< b.val).getLsbD k.val = decide (k = b) := by
    intro b; revert b k; decide
  unfold portMask
  rw [getLsbD_foldl_or_if (fun i => m[i].port = p) (fun i => 1#16 <<< m[i].bit.val)]
  simp only [BitVec.getLsbD_zero, Bool.false_or, List.any_eq_true, h1, Bool.and_eq_true,
    decide_eq_true_eq]
  constructor
  · rintro ⟨i, -, hp, hk⟩
    exact ⟨i, by rw [← hp, hk]⟩
  · rintro ⟨i, hm⟩
    exact ⟨i, mem_logicalBits i, by rw [hm], by rw [hm]⟩

/-- Two words with the same 16 bits are equal. -/
theorem word_ext {v w : Word} (h : ∀ k : Fin 16, v.getLsbD k.val = w.getLsbD k.val) : v = w :=
  BitVec.eq_of_getLsbD_eq fun k hk => h ⟨k, hk⟩

end Sys2Proof.Machine
end

