-- ==== Sys2Proof/Laws/Codec.lean ====
section
/-! SUPPORT. The packet codec's fields and payloads, and what the decoder answers. -/

namespace Sys2Proof

@[simp] theorem lowNibble_headByte (n op : Nibble) : lowNibble (headByte n op) = op := by
  simp only [lowNibble, headByte]
  ext i hi
  simp only [BitVec.getElem_extractLsb', BitVec.getLsbD_append]
  simp [hi]

@[simp] theorem highNibble_headByte (n op : Nibble) : highNibble (headByte n op) = n := by
  simp only [highNibble, headByte]
  ext i hi
  simp only [BitVec.getElem_extractLsb', BitVec.getLsbD_append]
  simp [hi]

@[simp] theorem wordOfBytes_bytes (w : Word) : wordOfBytes (lowByte w) (highByte w) = w := by
  simp only [wordOfBytes, lowByte, highByte]
  ext i hi
  rw [BitVec.getElem_append]
  split
  · simp only [BitVec.getElem_extractLsb', Nat.zero_add]
    rfl
  · rename_i h
    simp only [BitVec.getElem_extractLsb']
    rw [show 8 + (i - 8) = i by omega]
    rfl

@[simp] theorem bytesOfWords_length (ws : List Word) : (bytesOfWords ws).length = 2 * ws.length := by
  induction ws with
  | nil => rfl
  | cons w ws ih => simp [bytesOfWords, ih]; omega

/-- A payload decodes to the values it was made of, whatever stands after it (42_control_packets.md R163). -/
theorem wordsOfBytes_bytesOfWords (ws : List Word) (rest : List Byte) :
    wordsOfBytes ws.length (bytesOfWords ws ++ rest) = some ws := by
  induction ws with
  | nil => rfl
  | cons w ws ih => simp [bytesOfWords, wordsOfBytes, ih]

/-- A payload that decodes has two bytes for each of its values (42_control_packets.md R163). -/
theorem wordsOfBytes_some {n : Nat} {bs : List Byte} {ws : List Word} (h : wordsOfBytes n bs = some ws) :
    ws.length = n ∧ 2 * n ≤ bs.length := by
  induction n generalizing bs ws with
  | zero => simp [wordsOfBytes] at h; simp [← h]
  | succ n ih =>
    match bs, h with
    | [], h => simp [wordsOfBytes] at h
    | [_], h => simp [wordsOfBytes] at h
    | lo :: hi :: rest, h =>
      simp only [wordsOfBytes, Option.map_eq_some_iff] at h
      obtain ⟨vs, hv, rfl⟩ := h
      have := ih hv
      simp; omega

/-- A padded packet fills its buffer (42_control_packets.md R152). -/
theorem padPacket_length {bs : List Byte} (h : bs.length ≤ pktCapacity) :
    (padPacket bs).length = pktCapacity := by
  simp [padPacket]; omega

/-- A decoded opaque packet has its whole body (42_control_packets.md R159). -/
theorem decOpaque_some {l : Nat} {pkt : List Byte} {e : Nibble × List Byte} (hl : 1 ≤ l)
    (h : decOpaque l pkt = some e) : e.2.length + 1 = l ∧ l ≤ pkt.length := by
  match pkt, h with
  | [], h => simp [decOpaque] at h
  | b0 :: rest, h =>
    simp only [decOpaque] at h
    split at h
    · cases h
    · rename_i hlen
      simp only [Option.some.injEq] at h
      subst h
      simp at hlen ⊢
      omega

/-- A request the decoder yields is well formed (42_control_packets.md R150). -/
theorem decRequest_wellFormed {c : Config} (hc : c.Admitted) {pkt : List Byte} {r : Request}
    (h : decRequest c pkt = some r) : r.wellFormed c = true := by
  obtain ⟨-, -, -, he, hd, -⟩ := hc
  match pkt, h with
  | [], h => simp [decRequest] at h
  | b0 :: rest, h =>
    simp only [decRequest] at h
    repeat' split at h
    all_goals try (simp only [Option.some.injEq] at h; subst h; rfl)
    · simp only [Option.map_eq_some_iff] at h
      obtain ⟨e, -, rfl⟩ := h; rfl
    · match rest, h with
      | [], h => simp [decSetParam] at h
      | [_], h => simp [decSetParam] at h
      | _ :: _ :: _, h => simp only [decSetParam, Option.some.injEq] at h; subst h; rfl
    · simp only [Option.map_eq_some_iff] at h
      obtain ⟨e, h2, rfl⟩ := h
      have := decOpaque_some he.1 h2
      simp [Request.wellFormed, this.1]
    · simp only [Option.map_eq_some_iff] at h
      obtain ⟨e, h2, rfl⟩ := h
      have := decOpaque_some hd.1 h2
      simp [Request.wellFormed, this.1]
    · cases h

/-- A response the decoder yields is well formed (42_control_packets.md R151). -/
theorem decResponse_wellFormed {c : Config} (hc : c.Admitted) {pkt : List Byte} {r : Response}
    (h : decResponse c pkt = some r) : r.wellFormed c = true := by
  obtain ⟨-, -, -, -, -, hv, he⟩ := hc
  match pkt, h with
  | [], h => simp [decResponse] at h
  | b0 :: rest, h =>
    simp only [decResponse] at h
    repeat' split at h
    · simp only [Option.map_eq_some_iff] at h
      obtain ⟨e, h2, rfl⟩ := h
      have := decOpaque_some hv.1 h2
      simp [Response.wellFormed, this.1]
    · simp only [Option.map_eq_some_iff] at h
      obtain ⟨e, -, rfl⟩ := h; rfl
    · match rest, h with
      | [], h => simp [decParams] at h
      | n :: rest, h =>
        simp only [decParams] at h
        split at h
        · rename_i hn
          simp only [Option.map_eq_some_iff] at h
          obtain ⟨ws, h2, rfl⟩ := h
          have := wordsOfBytes_some h2
          simp [Response.wellFormed, this.1, hn]
        · cases h
    · simp only [Option.map_eq_some_iff] at h
      obtain ⟨e, h2, rfl⟩ := h
      have := decOpaque_some he.1 h2
      simp [Response.wellFormed, this.1]
    · cases h

/-- `selectIf` answers its instruction exactly when the check holds. -/
theorem selectIf_ok {ok : Bool} {e : DecodeError} {i j : Instr} :
    selectIf ok e i = .ok j ↔ ok = true ∧ i = j := by
  cases ok <;> simp [selectIf]

/-- The row of a well-formed request is well formed. -/
theorem instrOfRequest_wellFormed (c : Config) (r : Request) :
    (instrOfRequest r).wellFormed c = r.wellFormed c := by cases r <;> rfl

/-- The row of a well-formed response is well formed. -/
theorem instrOfResponse_wellFormed (c : Config) (r : Response) :
    (instrOfResponse r).wellFormed c = r.wellFormed c := by cases r <;> rfl

/-- The row of a decoded packet is well formed. -/
theorem instrOfPacket_decPacket_wellFormed {c : Config} (hc : c.Admitted) (d : Direction) (pkt : List Byte) :
    (instrOfPacket (decPacket c d pkt)).wellFormed c = true := by
  cases d with
  | request =>
    cases h : decRequest c pkt with
    | none => simp only [decPacket, h]; rfl
    | some r =>
      simp only [decPacket, h, instrOfPacket, instrOfRequest_wellFormed]
      exact decRequest_wellFormed hc h
  | response =>
    cases h : decResponse c pkt with
    | none => simp only [decPacket, h]; rfl
    | some r =>
      simp only [decPacket, h, instrOfPacket, instrOfResponse_wellFormed]
      exact decResponse_wellFormed hc h

/-- The row FSM.ADVANCE dispatches to is well formed, and the sequencing state selects it (41_frame.md R120). -/
theorem instrOfWord_wellFormed (c : Config) (tag : Tag) (w : Word) :
    (instrOfWord tag w).wellFormed c = true ∧ (instrOfWord tag w).selectedIn tag = true := by
  cases tag with
  | dm => exact ⟨rfl, rfl⟩
  | wfm => exact ⟨rfl, rfl⟩
  | rp => exact ⟨rfl, rfl⟩
  | dpc =>
    by_cases h : w = sentinel
    · rw [show instrOfWord .dpc w = .fsmAdvanceDpcSentinel from if_pos h]
      exact ⟨rfl, rfl⟩
    · rw [show instrOfWord .dpc w = .fsmAdvanceDpcCount w from if_neg h]
      exact ⟨bne_iff_ne.2 h, rfl⟩

/-- Whatever the decoder selects is well formed. -/
theorem decode_wellFormed {c : Config} (hc : c.Admitted) {tag : Tag} {x : Stimulus} {i : Instr}
    (h : decode c tag x = .ok i) : i.wellFormed c = true := by
  cases x with
  | packet d bytes =>
    obtain ⟨-, rfl⟩ := selectIf_ok.1 h
    exact instrOfPacket_decPacket_wellFormed hc d bytes
  | feed w =>
    obtain rfl := Except.ok.inj h
    exact (instrOfWord_wellFormed c tag w).1
  | decodePacket d pkt len => cases d <;> (obtain ⟨h1, rfl⟩ := selectIf_ok.1 h; exact h1)
  | encodePacket p => obtain ⟨h1, rfl⟩ := selectIf_ok.1 h; exact h1
  | rx x => obtain ⟨h1, rfl⟩ := selectIf_ok.1 h; exact h1
  | host op => obtain ⟨h1, rfl⟩ := selectIf_ok.1 h; exact h1
  | frame f => obtain ⟨h1, rfl⟩ := selectIf_ok.1 h; exact h1
  | tx p => obtain ⟨h1, rfl⟩ := selectIf_ok.1 h; exact h1
  | bitbusPair a b => obtain rfl := Except.ok.inj h; rfl
  | bitbusWord w => obtain rfl := Except.ok.inj h; rfl
  | sample a b => obtain rfl := Except.ok.inj h; rfl
  | emit w => obtain rfl := Except.ok.inj h; rfl
  | pop => obtain rfl := Except.ok.inj h; rfl
  | usbInterrupt k => cases h

/-- The packet of a well-formed request has 1 to 64 bytes (30_encoding.md R80). -/
theorem encRequest_length {c : Config} (hc : c.Admitted) {r : Request} (h : r.wellFormed c = true) :
    1 ≤ (encRequest c r).length ∧ (encRequest c r).length ≤ pktCapacity := by
  obtain ⟨-, -, -, he, hd, -⟩ := hc
  cases r <;> simp_all [encRequest, Request.wellFormed, pktCapacity, lengthAdmitted]

/-- The packet of a well-formed response has 1 to 64 bytes (30_encoding.md R80). -/
theorem encResponse_length {c : Config} (hc : c.Admitted) {r : Response} (h : r.wellFormed c = true) :
    1 ≤ (encResponse c r).length ∧ (encResponse c r).length ≤ pktCapacity := by
  obtain ⟨-, -, -, -, -, hv, he⟩ := hc
  cases r with
  | params vs =>
    have : vs.length ≤ 31 := of_decide_eq_true h
    simp only [encResponse, List.length_cons, bytesOfWords_length, pktCapacity]
    omega
  | version n body => simp_all [encResponse, Response.wellFormed, lengthAdmitted]
  | error n body => simp_all [encResponse, Response.wellFormed, lengthAdmitted]
  | pong p v => simp [encResponse, pktCapacity]

/-- A packet of 1 to 64 bytes is 1 to 64 bytes on the wire (30_encoding.md R86). -/
theorem wireBytes_length {c : Config} {bs : List Byte} (h : 1 ≤ bs.length ∧ bs.length ≤ pktCapacity) :
    1 ≤ (wireBytes c bs).length ∧ (wireBytes c bs).length ≤ pktCapacity := by
  cases hm : c.wireMode
  · simpa [wireBytes, hm] using h
  · simp [wireBytes, hm, padPacket_length h.2, pktCapacity]

end Sys2Proof
end

