-- ==== Sys2Proof/Laws/Ops.lean ====
section
/-! SUPPORT. What each shared operation can do, said once: cite these instead of unfolding the operations. -/

namespace Sys2Proof.Machine

/-! ### Frame State Machine -/

@[simp] theorem unwrittenData_length (d n : Nat) : (unwrittenData d n).length = n := by simp [unwrittenData]

@[simp] theorem versionBody_length (c : Config) (d : Nat) : (versionBody c d).length = c.lenVersion - 1 := by
  simp [versionBody]

/-- FSM.EMIT writes FQ and one output (41_frame.md R126). -/
theorem emitFrame_eq (f : List Word) (s : State) : emitFrame f s = { s with
    fq := if s.fq.length < queueDepth then s.fq ++ [f] else s.fq
    outputs := s.outputs ++ [if s.fq.length < queueDepth then .frameSent f else .frameDropped f] } := by
  simp only [emitFrame]
  split <;> rfl

/-- FSM.ADVANCE in `DetectMarker` writes the ProtocolState alone (41_frame.md R121). -/
theorem advanceDm_eq (w : Word) (s : State) : advanceDm w s = { s with
    fsm := if w = sentinel then .detectParamsCount 0 else .detectMarker } := by
  simp only [advanceDm]
  split <;> rfl

/-- FSM.ADVANCE in `DetectParamsCount(c)` on the sentinel (41_frame.md R123). -/
theorem advanceDpcSentinel_eq (c : Nat) (s : State) : ∃ (data : List Word) (d : Nat),
    data.length = s.cfg.maxParams ∧ advanceDpcSentinel c s = { s with
      fsm := if c = 0 then .detectMarker else if s.cfg.maxParams < c then .detectMarker
        else .readParams { expected := c, cursor := 0, data := data }
      draws := d } := by
  simp only [advanceDpcSentinel]
  split
  · exact ⟨_, s.draws, unwrittenData_length 0 _, rfl⟩
  · split
    · exact ⟨_, s.draws, unwrittenData_length 0 _, rfl⟩
    · exact ⟨_, _, unwrittenData_length s.draws _, rfl⟩

/-- FSM.ADVANCE in `WaitForMarker(n)` (41_frame.md R124). -/
theorem advanceWfm_eq (n : Nat) (w : Word) (s : State) : ∃ (data : List Word) (d : Nat),
    data.length = s.cfg.maxParams ∧ advanceWfm n w s = { s with
      fsm := if w = sentinel then .readParams { expected := n, cursor := 0, data := data }
        else if s.cfg.strayPolicy = .ignore then .waitForMarker n else .detectMarker
      draws := d } := by
  simp only [advanceWfm]
  split
  · exact ⟨_, _, unwrittenData_length s.draws _, rfl⟩
  · refine ⟨_, s.draws, unwrittenData_length 0 _, ?_⟩
    cases h : s.cfg.strayPolicy <;> simp

/-- FSM.ADVANCE in `ReadParams` with a cursor inside its bounds (41_frame.md R125). -/
theorem advanceRp_eq {b : ParamsBuffer} (w : Word) (s : State)
    (h : b.cursor < b.expected ∧ b.expected ≤ b.data.length) :
    advanceRp b w s = .next (if b.cursor + 1 = b.expected then
        { emitFrame (b.data.take b.cursor ++ [w]) s with fsm := .waitForMarker b.expected }
      else { s with fsm := .readParams ⟨b.expected, b.cursor + 1, b.data.set b.cursor w⟩ }) := by
  simp only [advanceRp, if_pos h]
  split
  · rename_i he
    have hl : b.cursor < b.data.length := by omega
    have ht : (b.data.set b.cursor w).take b.expected = b.data.take b.cursor ++ [w] := by
      rw [← he, List.take_add_one]
      simp [List.take_set, hl, List.set_eq_of_length_le]
    rw [ht]
  · rfl

/-- What a word can do to the ProtocolState, FQ, the outputs and the draws; all else stays (41_frame.md
R120 to R126). -/
theorem fsmAdvance_frame {w : Word} {s t : State} (h : fsmAdvance w s = .next t) :
    t = { s with fsm := t.fsm, fq := t.fq, outputs := t.outputs, draws := t.draws } := by
  simp only [fsmAdvance] at h
  split at h
  · cases h; rw [advanceDm_eq]
  · split at h
    · cases h
      rename_i c _ _
      obtain ⟨data, d, -, he⟩ := advanceDpcSentinel_eq c s
      rw [he]
    · cases h; rfl
  · cases h
    rename_i n _
    obtain ⟨data, d, -, he⟩ := advanceWfm_eq n w s
    rw [he]
  · rename_i b _
    by_cases hb : b.cursor < b.expected ∧ b.expected ≤ b.data.length
    · rw [advanceRp_eq w s hb] at h
      cases h
      split
      · rw [emitFrame_eq]
      · rfl
    · simp [advanceRp, hb] at h

/-- In its bounds the Frame State Machine has a successor for every word (41_frame.md R120). -/
theorem fsmAdvance_next {s : State} (w : Word) (h : s.fsm.inRange s.cfg.maxParams) :
    ∃ t, fsmAdvance w s = .next t := by
  simp only [fsmAdvance]
  split
  · exact ⟨_, rfl⟩
  · split <;> exact ⟨_, rfl⟩
  · exact ⟨_, rfl⟩
  · rename_i b hb
    rw [hb] at h
    exact ⟨_, advanceRp_eq w s ⟨h.2.2.1, by rw [h.2.2.2]; exact h.2.1⟩⟩

/-- A row delivered in any state does what FSM.ADVANCE does with its word (41_frame.md R120). -/
theorem execFsmAdvanceDm_eq (w : Word) (s : State) : execFsmAdvanceDm w s = fsmAdvance w s.fresh := by
  cases h : s.fsm <;> simp [execFsmAdvanceDm, fsmAdvance, h]

theorem execFsmAdvanceDpcCount_eq (w : Word) (s : State) :
    execFsmAdvanceDpcCount w s = fsmAdvance w s.fresh := by
  cases h : s.fsm <;> simp [execFsmAdvanceDpcCount, fsmAdvance, h]

theorem execFsmAdvanceDpcSentinel_eq (s : State) :
    execFsmAdvanceDpcSentinel s = fsmAdvance sentinel s.fresh := by
  cases h : s.fsm <;> simp [execFsmAdvanceDpcSentinel, fsmAdvance, h]

theorem execFsmAdvanceWfm_eq (w : Word) (s : State) : execFsmAdvanceWfm w s = fsmAdvance w s.fresh := by
  cases h : s.fsm <;> simp [execFsmAdvanceWfm, fsmAdvance, h]

theorem execFsmAdvanceRp_eq (w : Word) (s : State) : execFsmAdvanceRp w s = fsmAdvance w s.fresh := by
  cases h : s.fsm <;> simp [execFsmAdvanceRp, fsmAdvance, h]

/-- The row the dispatch selects does what FSM.ADVANCE does with the word (41_frame.md R120). -/
theorem exec_instrOfWord (tag : Tag) (w : Word) (s : State) :
    exec (instrOfWord tag w) s = fsmAdvance w s.fresh := by
  cases tag with
  | dm => exact execFsmAdvanceDm_eq w s
  | wfm => exact execFsmAdvanceWfm_eq w s
  | rp => exact execFsmAdvanceRp_eq w s
  | dpc =>
    by_cases h : w = sentinel
    · rw [show instrOfWord .dpc w = .fsmAdvanceDpcSentinel from if_pos h, h]
      exact execFsmAdvanceDpcSentinel_eq s
    · rw [show instrOfWord .dpc w = .fsmAdvanceDpcCount w from if_neg h]
      exact execFsmAdvanceDpcCount_eq w s

/-! ### Device receive -/

/-- A packet that fits RX_BUF stands at its start, RX_LEN counts it, and a request in it is handed on
(42_control_packets.md R170). -/
theorem rxTake_eq {bytes : List Byte} (s : State) (h : bytes.length ≤ pktCapacity) :
    rxTake bytes [] s = { afterReceive bytes s.outputs s with usbPolls := s.usbPolls } := by
  have hb : bytes.take pktCapacity = bytes := List.take_of_length_le h
  simp only [rxTake, hb, List.take_left]
  cases bytes with
  | nil => simp [afterReceive, decRequest]
  | cons b bs =>
    rw [if_neg (by simp)]
    cases hd : decRequest s.cfg (b :: bs) <;> simp [afterReceive, hd, State.out]

/-- The end of a receive writes RX_BUF, RX_LEN, the phase, the answers left, the hand-over and the outputs
(42_control_packets.md R170). -/
theorem rxTake_frame (bytes : List Byte) (rest : List ReadReply) (s : State) :
    ∃ (handed : List Stimulus) (o : List Output),
      rxTake bytes rest s = { s with
        usbReads := rest, rxPhase := .idle
        rxBuf := bytes.take pktCapacity ++ s.rxBuf.drop (bytes.take pktCapacity).length
        rxLen := (bytes.take pktCapacity).length
        pending := s.pending ++ handed, outputs := o } := by
  simp only [rxTake]
  split
  · exact ⟨[], s.outputs, by rw [List.append_nil]⟩
  · split
    · exact ⟨[], _, by rw [List.append_nil]; rfl⟩
    · exact ⟨_, _, rfl⟩

/-- The read loop writes what the receive writes, and nothing else (42_control_packets.md R170). -/
theorem rxRun_frame (rs : List ReadReply) (s : State) :
    ∃ (ph : RxPhase) (left : List ReadReply) (buf : List Byte) (len : Nat) (handed : List Stimulus)
      (o : List Output), rxRun rs s = { s with
        usbReads := left, rxPhase := ph, rxBuf := buf, rxLen := len
        pending := s.pending ++ handed, outputs := o } := by
  induction rs generalizing s with
  | nil => exact ⟨.reading, [], s.rxBuf, s.rxLen, [], s.outputs, by rw [List.append_nil]; rfl⟩
  | cons r rs ih =>
    cases r with
    | wouldBlock =>
      obtain ⟨l, le, b, n, hd, o, he⟩ := ih (s.out (.usbRead .wouldBlock))
      exact ⟨l, le, b, n, hd, o, he⟩
    | data bytes =>
      obtain ⟨hd, o, he⟩ := rxTake_frame bytes rs (s.out (.usbRead (.data bytes)))
      exact ⟨.idle, rs, _, _, hd, o, he⟩

/-- Reads that would block cost calls and nothing else (42_control_packets.md R170). -/
theorem rxRun_blocks (k : Nat) (rs : List ReadReply) (s : State) :
    rxRun (List.replicate k .wouldBlock ++ rs) s =
      rxRun rs { s with outputs := s.outputs ++ List.replicate k (.usbRead .wouldBlock) } := by
  induction k generalizing s with
  | zero => simp
  | succ k ih =>
    rw [List.replicate_succ, List.cons_append, rxRun, ih]
    simp [State.out, List.replicate_succ]

/-- The polls write what the receive writes, and the poll answers left (42_control_packets.md R170). -/
theorem pollRun_frame (ps : List PollReply) (s : State) :
    ∃ (ph : RxPhase) (polls : List PollReply) (left : List ReadReply) (buf : List Byte) (len : Nat)
      (handed : List Stimulus) (o : List Output), pollRun ps s = { s with
        usbPolls := polls, usbReads := left, rxPhase := ph, rxBuf := buf, rxLen := len
        pending := s.pending ++ handed, outputs := o } := by
  induction ps generalizing s with
  | nil => exact ⟨.polling, [], s.usbReads, s.rxBuf, s.rxLen, [], s.outputs, by rw [List.append_nil]; rfl⟩
  | cons p ps ih =>
    match p with
    | .wouldBlock =>
      obtain ⟨ph, l, le, b, n, hd, o, he⟩ := ih (s.out (.usbPoll .wouldBlock))
      exact ⟨ph, l, le, b, n, hd, o, he⟩
    | .ready false => exact ⟨.idle, ps, s.usbReads, s.rxBuf, s.rxLen, [], _, by rw [List.append_nil]; rfl⟩
    | .ready true =>
      obtain ⟨ph, le, b, n, hd, o, he⟩ :=
        rxRun_frame s.usbReads ({ s with usbPolls := ps }.out (.usbPoll (.ready true)))
      exact ⟨ph, ps, le, b, n, hd, o, he⟩

/-- Polls that would block cost calls and nothing else (42_control_packets.md R170). -/
theorem pollRun_blocks (k : Nat) (ps : List PollReply) (s : State) :
    pollRun (List.replicate k .wouldBlock ++ ps) s =
      pollRun ps { s with outputs := s.outputs ++ List.replicate k (.usbPoll .wouldBlock) } := by
  induction k generalizing s with
  | zero => simp
  | succ k ih =>
    rw [List.replicate_succ, List.cons_append, pollRun, ih]
    simp [State.out, List.replicate_succ]

/-- What USB.RX brings changes the transport's answers alone. -/
theorem rxArrive_frame (x : RxInput) (s : State) :
    rxArrive x s = { s with usbPolls := (rxArrive x s).usbPolls, usbReads := (rxArrive x s).usbReads } := by
  cases x <;> rfl

/-- What a USB.RX that starts or goes on can change (42_control_packets.md R170). -/
theorem execUsbRx_frame {x : RxInput} {s t : State} (h : execUsbRx x s = .next t) :
    ∃ handed : List Stimulus, t = { s with
      usbPolls := t.usbPolls, usbReads := t.usbReads, rxPhase := t.rxPhase, rxBuf := t.rxBuf, rxLen := t.rxLen
      pending := s.pending ++ handed, outputs := t.outputs } := by
  simp only [execUsbRx] at h
  split at h
  · cases h; exact ⟨[], by rw [List.append_nil]; rfl⟩
  · cases h; exact ⟨[], by rw [List.append_nil]; rfl⟩
  · cases h
    obtain ⟨ph, l, le, b, n, hd, o, he⟩ := pollRun_frame (rxArrive x s).usbPolls (rxArrive x s).fresh
    refine ⟨hd, ?_⟩
    rw [he, rxArrive_frame]
    rfl

theorem rxContinue_frame (s : State) : ∃ handed : List Stimulus, rxContinue s = { s with
      usbPolls := (rxContinue s).usbPolls, usbReads := (rxContinue s).usbReads, rxPhase := (rxContinue s).rxPhase
      rxBuf := (rxContinue s).rxBuf, rxLen := (rxContinue s).rxLen
      pending := s.pending ++ handed, outputs := (rxContinue s).outputs } := by
  cases hp : s.rxPhase with
  | idle => exact ⟨[], by simp [rxContinue, hp, State.ext_iff]⟩
  | polling =>
    obtain ⟨ph, l, le, b, n, hd, o, he⟩ := pollRun_frame s.usbPolls s.fresh
    exact ⟨hd, by simp only [rxContinue, hp]; rw [he]; rfl⟩
  | reading =>
    obtain ⟨ph, le, b, n, hd, o, he⟩ := rxRun_frame s.usbReads s.fresh
    exact ⟨hd, by simp only [rxContinue, hp]; rw [he]; rfl⟩

/-! ### Device transmit -/

/-- The write loop writes TX_SENT, the loop, the answers left and the outputs (42_control_packets.md R171). -/
theorem txRun_frame (rs : List WriteReply) (s : State) :
    ∃ (sent : Nat) (loop : Bool) (left : List WriteReply) (o : List Output),
      txRun rs s = { s with txSent := sent, txLoop := loop, usbWrites := left, outputs := o } := by
  induction rs generalizing s with
  | nil => exact ⟨_, _, _, _, rfl⟩
  | cons r rs ih =>
    simp only [txRun]
    split
    · obtain ⟨n, l, le, o, he⟩ := ih (txCall r s)
      rw [he]
      cases r <;> exact ⟨n, l, le, o, rfl⟩
    · exact ⟨_, _, _, _, rfl⟩

/-- After the write loop TX_SENT has moved on by what was accepted, and the loop goes on exactly while
bytes are left (42_control_packets.md R171). -/
theorem txRun_sent (rs : List WriteReply) (s : State) (h : s.txSent ≤ s.txLen) :
    (txRun rs s).txSent = min s.txLen (s.txSent + acceptedBytes rs) ∧
      ((txRun rs s).txLoop = true ↔ (txRun rs s).txSent < s.txLen) := by
  induction rs generalizing s with
  | nil => exact ⟨(min_eq_right h).symm, decide_eq_true_iff⟩
  | cons r rs ih =>
    by_cases hlt : s.txSent < s.txLen
    · rw [show txRun (r :: rs) s = txRun rs (txCall r s) from if_pos hlt]
      cases r with
      | wouldBlock => exact ih (txCall .wouldBlock s) h
      | accepted n =>
        have hs : (txCall (.accepted n) s).txSent = s.txSent + min n (s.txLen - s.txSent) := rfl
        have hl : (txCall (.accepted n) s).txLen = s.txLen := rfl
        have := ih (txCall (.accepted n) s) (by omega)
        rw [hs, hl] at this
        refine ⟨?_, this.2⟩
        rw [this.1, acceptedBytes]; omega
    · rw [show txRun (r :: rs) s = { s with usbWrites := r :: rs, txLoop := false } from if_neg hlt]
      exact ⟨by simp only; omega, by simp [hlt]⟩

/-- Each call offers the bytes not yet accepted and takes one answer (42_control_packets.md R171). -/
theorem txRun_calls (rs : List WriteReply) (s : State) (hl : s.txLen ≤ s.txBuf.length) :
    (txRun rs s).outputs = s.outputs ++ writeCalls ((s.txBuf.take s.txLen).drop s.txSent) rs ∧
      (txRun rs s).usbWrites = rs.drop (writeCalls ((s.txBuf.take s.txLen).drop s.txSent) rs).length := by
  induction rs generalizing s with
  | nil => cases h : (s.txBuf.take s.txLen).drop s.txSent <;> simp [txRun, writeCalls]
  | cons r rs ih =>
    by_cases hlt : s.txSent < s.txLen
    · rw [show txRun (r :: rs) s = txRun rs (txCall r s) from if_pos hlt]
      obtain ⟨b, bs, hb⟩ : ∃ b bs, (s.txBuf.take s.txLen).drop s.txSent = b :: bs := by
        cases h : (s.txBuf.take s.txLen).drop s.txSent with
        | cons b bs => exact ⟨b, bs, rfl⟩
        | nil =>
          have := congrArg List.length h
          simp at this; omega
      cases r with
      | wouldBlock =>
        have := ih (txCall .wouldBlock s) hl
        simp only [txCall, State.out_txBuf, State.out_txLen, State.out_txSent, State.out_outputs, hb] at this
        rw [hb]
        simpa [writeCalls, txCall, hb] using this
      | accepted n =>
        have := ih (txCall (.accepted n) s) hl
        have hd : (s.txBuf.take s.txLen).drop (s.txSent + min n (s.txLen - s.txSent)) = (b :: bs).drop n := by
          rw [← hb, List.drop_drop]
          by_cases hn : n ≤ s.txLen - s.txSent
          · rw [min_eq_left hn]
          · rw [min_eq_right (by omega), List.drop_of_length_le (by simp; omega),
              List.drop_of_length_le (by simp; omega)]
        simp only [txCall, State.out_txBuf, State.out_txLen, State.out_outputs, hd, hb] at this
        rw [hb]
        simpa [writeCalls, txCall, hb] using this
    · rw [show txRun (r :: rs) s = { s with usbWrites := r :: rs, txLoop := false } from if_neg hlt]
      have : (s.txBuf.take s.txLen).drop s.txSent = [] := List.drop_of_length_le (by simp; omega)
      simp [this, writeCalls]

/-- A transport that accepts nothing moves nothing (42_control_packets.md R171). -/
theorem acceptedBytes_eq_zero {rs : List WriteReply} (h : acceptsNothing rs) : acceptedBytes rs = 0 := by
  induction rs with
  | nil => rfl
  | cons r rs ih =>
    have hr := ih fun x hx => h x (List.mem_cons_of_mem _ hx)
    rcases h r List.mem_cons_self with rfl | rfl <;> simp [acceptedBytes, hr]

/-- USB.TX of a packet that fits, when none is on its way (42_control_packets.md R171). -/
theorem startTx_eq {p : Response} {s : State} (hl : s.txLoop = false) (hp : p.wellFormed s.cfg = true) :
    startTx p s = .next (txRun s.usbWrites (loadTx p s.fresh)) := by
  simp [startTx, hl, hp]

/-- What USB.TX can change (42_control_packets.md R171). -/
theorem startTx_frame {p : Response} {s t : State} (h : startTx p s = .next t) :
    t = { s with
      txBuf := t.txBuf, txLen := t.txLen, txSent := t.txSent, txLoop := t.txLoop
      usbWrites := t.usbWrites, outputs := t.outputs } := by
  simp only [startTx] at h
  split at h
  · cases h; rfl
  · split at h
    · cases h
      obtain ⟨n, l, le, o, he⟩ := txRun_frame s.usbWrites (loadTx p s.fresh)
      rw [he]; rfl
    · cases h

/-! ### Host transfers -/

/-- What a host write can change (42_control_packets.md R173). -/
theorem hostWriteRun_frame (pkt : List Byte) (rs : List HostWriteReply) (sent : Nat) (s : State) :
    ∃ (a : Nat) (ph : HostPhase) (left : List HostWriteReply) (o : List Output) (d : Nat),
      hostWriteRun pkt rs sent s =
        { s with hostAttempts := a, hostPhase := ph, hostWrites := left, outputs := o, draws := d } := by
  induction rs generalizing sent s with
  | nil =>
    simp only [hostWriteRun]
    split <;> exact ⟨_, _, _, _, _, rfl⟩
  | cons r rs ih =>
    simp only [hostWriteRun]
    split
    · cases r with
      | wouldBlock =>
        obtain ⟨a, ph, le, o, d, he⟩ := ih sent (hostFailedAttempt .write s)
        exact ⟨a, ph, le, o, d, he⟩
      | timeout =>
        obtain ⟨a, ph, le, o, d, he⟩ := ih sent (hostFailedAttempt .write s)
        exact ⟨a, ph, le, o, d, he⟩
      | hardError e => exact ⟨_, _, _, _, _, rfl⟩
      | accepted n =>
        simp only
        split
        · exact ⟨_, _, _, _, _, rfl⟩
        · obtain ⟨a, ph, le, o, d, he⟩ := ih (if Config.freeHostResumes s.draws then sent + n else 0)
            { hostFailedAttempt .write s with draws := s.draws + 1 }
          exact ⟨a, ph, le, o, d, he⟩
    · exact ⟨_, _, _, _, _, rfl⟩

/-- A response given to the caller changes the outputs alone (42_control_packets.md R165, R173). -/
theorem hostDeliver_eq {bytes : List Byte} (s : State) (h : bytes.length ≤ pktCapacity) :
    hostDeliver bytes s = s.out (match decResponse s.cfg bytes with
      | none => .discarded
      | some r => .hostReceived r) := by
  simp only [hostDeliver, List.take_of_length_le h]
  cases decResponse s.cfg bytes <;> rfl

/-- What a host read can change (42_control_packets.md R173). -/
theorem hostReadRun_frame (rs : List HostReadReply) (s : State) :
    ∃ (a : Nat) (ph : HostPhase) (left : List HostReadReply) (o : List Output),
      hostReadRun rs s = { s with hostAttempts := a, hostPhase := ph, hostReads := left, outputs := o } := by
  induction rs generalizing s with
  | nil =>
    simp only [hostReadRun]
    split <;> exact ⟨_, _, _, _, rfl⟩
  | cons r rs ih =>
    simp only [hostReadRun]
    split
    · cases r with
      | data bytes =>
        simp only [hostDeliver]
        split <;> exact ⟨_, _, _, _, rfl⟩
      | wouldBlock =>
        obtain ⟨a, ph, le, o, he⟩ := ih (hostFailedAttempt .read s)
        exact ⟨a, ph, le, o, he⟩
      | timeout =>
        obtain ⟨a, ph, le, o, he⟩ := ih (hostFailedAttempt .read s)
        exact ⟨a, ph, le, o, he⟩
      | short =>
        obtain ⟨a, ph, le, o, he⟩ := ih (hostFailedAttempt .read s)
        exact ⟨a, ph, le, o, he⟩
      | hardError e => exact ⟨_, _, _, _, rfl⟩
    · exact ⟨_, _, _, _, rfl⟩

/-- Failed host writes are counted, each one attempt, and leave bytes to send (42_control_packets.md R173). -/
theorem hostWriteRun_fails {pkt : List Byte} (fails rs : List HostWriteReply) (sent : Nat) (s : State)
    (hf : ∀ x ∈ fails, x.mayFail) (hs : sent + hostAcceptedBytes fails < pkt.length)
    (hb : s.hostAttempts + fails.length ≤ s.cfg.hostRetryBudget) :
    ∃ sent' d : Nat, sent' < pkt.length ∧ ((∀ x ∈ fails, x = .wouldBlock ∨ x = .timeout) → sent' = sent ∧ d = s.draws) ∧
      hostWriteRun pkt (fails ++ rs) sent s = hostWriteRun pkt rs sent' { s with
        hostAttempts := s.hostAttempts + fails.length, draws := d
        outputs := s.outputs ++ List.replicate fails.length (.hostAttempt .write s.cfg.hostTimeout) } := by
  induction fails generalizing sent s with
  | nil => exact ⟨sent, s.draws, by omega, fun _ => ⟨rfl, rfl⟩, by simp⟩
  | cons x xs ih =>
    simp only [List.length_cons] at hb
    have hx := hf x List.mem_cons_self
    have hlt : s.hostAttempts < s.cfg.hostRetryBudget := by omega
    have ht := fun y hy => hf y (List.mem_cons_of_mem _ hy)
    have hu : ∀ (a : Nat) (o : List Output), o ++ Output.hostAttempt .write s.cfg.hostTimeout ::
        List.replicate a (.hostAttempt .write s.cfg.hostTimeout) =
        o ++ List.replicate (a + 1) (.hostAttempt .write s.cfg.hostTimeout) := by
      intro a o; rw [List.replicate_succ]
    cases x with
    | hardError e => exact absurd hx id
    | wouldBlock | timeout =>
      obtain ⟨sent', d, h1, h2, h3⟩ := ih sent (hostFailedAttempt .write s) ht hs
        (by simp only [hostFailedAttempt, State.out_hostAttempts, State.out_cfg]; omega)
      refine ⟨sent', d, h1, fun h => h2 fun y hy => h y (List.mem_cons_of_mem _ hy), ?_⟩
      simp only [List.cons_append, hostWriteRun, hlt, if_true, h3]
      simp [hostFailedAttempt, State.out, hu, Nat.add_assoc, Nat.add_comm 1]
    | accepted n =>
      simp only [hostAcceptedBytes] at hs
      obtain ⟨sent', d, h1, -, h3⟩ := ih (if Config.freeHostResumes s.draws then sent + n else 0)
        { hostFailedAttempt .write s with draws := s.draws + 1 } ht (by split <;> omega)
        (by simp only [hostFailedAttempt, State.out_hostAttempts, State.out_cfg]; omega)
      refine ⟨sent', d, h1, fun h => absurd (h _ List.mem_cons_self) (by simp), ?_⟩
      simp only [List.cons_append, hostWriteRun, hlt, if_true, if_neg (show ¬ pkt.length ≤ sent + n by omega), h3]
      simp [hostFailedAttempt, State.out, hu, Nat.add_assoc, Nat.add_comm 1]

/-- Failed host reads are counted, each one attempt (42_control_packets.md R173). -/
theorem hostReadRun_fails (fails rs : List HostReadReply) (s : State) (hf : ∀ x ∈ fails, x.fails)
    (hb : s.hostAttempts + fails.length ≤ s.cfg.hostRetryBudget) :
    hostReadRun (fails ++ rs) s = hostReadRun rs { s with
      hostAttempts := s.hostAttempts + fails.length
      outputs := s.outputs ++ List.replicate fails.length (.hostAttempt .read s.cfg.hostTimeout) } := by
  induction fails generalizing s with
  | nil => simp
  | cons x xs ih =>
    simp only [List.length_cons] at hb
    have hx := hf x List.mem_cons_self
    have hlt : s.hostAttempts < s.cfg.hostRetryBudget := by omega
    have h3 := ih (hostFailedAttempt .read s) (fun y hy => hf y (List.mem_cons_of_mem _ hy))
      (by simp only [hostFailedAttempt, State.out_hostAttempts, State.out_cfg]; omega)
    have e : hostReadRun (x :: xs ++ rs) s = hostReadRun (xs ++ rs) (hostFailedAttempt .read s) := by
      cases x <;> first | exact absurd hx id | simp only [List.cons_append, hostReadRun, hlt, if_true]
    rw [e, h3]
    simp [hostFailedAttempt, State.out, List.replicate_succ, Nat.add_assoc, Nat.add_comm 1]

/-- What a host transfer that goes on can change (42_control_packets.md R173). -/
theorem hostContinue_frame (s : State) :
    ∃ (a : Nat) (ph : HostPhase) (ws : List HostWriteReply) (rs : List HostReadReply) (o : List Output) (d : Nat),
      hostContinue s = { s with
        hostAttempts := a, hostPhase := ph, hostWrites := ws, hostReads := rs, outputs := o, draws := d } := by
  simp only [hostContinue]
  split
  · exact ⟨_, _, _, _, _, _, rfl⟩
  · rename_i pkt sent _
    obtain ⟨a, ph, le, o, d, he⟩ := hostWriteRun_frame pkt s.hostWrites sent s.fresh
    exact ⟨a, ph, le, s.hostReads, o, d, by rw [he]; rfl⟩
  · obtain ⟨a, ph, le, o, he⟩ := hostReadRun_frame s.hostReads s.fresh
    exact ⟨a, ph, s.hostWrites, le, o, s.draws, by rw [he]; rfl⟩

/-! ### The choice of the next move -/

/-- A step that takes a stimulus runs the operation it decodes to. -/
theorem runStimulus_eq {x : Stimulus} {i : Instr} {s : State} (h : decode s.cfg s.fsm.tag x = .ok i) :
    runStimulus x s = exec i s := by
  have hd : runDecoded x s = exec i s := by simp only [runDecoded, h]
  cases x <;> first | exact hd | cases h

/-- A stimulus that ends in a next state is an interrupt of the middle tier or ran its operation. -/
theorem runStimulus_next {x : Stimulus} {s t : State} (h : runStimulus x s = .next t) :
    (∃ k, t = takeUsbInterrupt k s) ∨ ∃ i, decode s.cfg s.fsm.tag x = .ok i ∧ exec i s = .next t := by
  have key : runDecoded x s = .next t → ∃ i, decode s.cfg s.fsm.tag x = .ok i ∧ exec i s = .next t := by
    intro h
    simp only [runDecoded] at h
    split at h
    · exact ⟨_, by assumption, h⟩
    · cases h
  cases x <;> first | exact .inr (key h) | (cases h; exact .inl ⟨_, rfl⟩)

/-- `takeFirst` finds the earliest element that satisfies `p`. -/
theorem takeFirst_append {p : Stimulus → Bool} {before : List Stimulus} (x : Stimulus) (after : List Stimulus)
    (hb : ∀ y ∈ before, p y = false) (hx : p x = true) :
    takeFirst p (before ++ x :: after) = some (x, before ++ after) := by
  induction before with
  | nil => simp [takeFirst, hx]
  | cons y ys ih =>
    have hy := hb y List.mem_cons_self
    simp [takeFirst, hy, ih fun z hz => hb z (List.mem_cons_of_mem _ hz)]

/-- `takeFirst` finds nothing when nothing satisfies `p`. -/
theorem takeFirst_none {p : Stimulus → Bool} {l : List Stimulus} (h : ∀ y ∈ l, p y = false) :
    takeFirst p l = none := by
  induction l with
  | nil => rfl
  | cons y ys ih => simp [takeFirst, h y List.mem_cons_self, ih fun z hz => h z (List.mem_cons_of_mem _ hz)]

/-- `takeFirst` takes one element away and keeps the order of the others. -/
theorem takeFirst_split {p : Stimulus → Bool} {l rest : List Stimulus} {x : Stimulus}
    (h : takeFirst p l = some (x, rest)) : ∃ before after, l = before ++ x :: after ∧ rest = before ++ after := by
  induction l generalizing rest with
  | nil => simp [takeFirst] at h
  | cons y ys ih =>
    simp only [takeFirst] at h
    split at h
    · simp only [Option.some.injEq, Prod.mk.injEq] at h
      obtain ⟨rfl, rfl⟩ := h
      exact ⟨[], ys, rfl, rfl⟩
    · simp only [Option.map_eq_some_iff, Prod.mk.injEq] at h
      obtain ⟨⟨z, zs⟩, hz, rfl, rfl⟩ := h
      obtain ⟨before, after, rfl, rfl⟩ := ih hz
      exact ⟨y :: before, after, rfl, rfl⟩

/-- What `takeFirst` takes was pending and satisfies `p`. -/
theorem takeFirst_some {p : Stimulus → Bool} {l rest : List Stimulus} {x : Stimulus}
    (h : takeFirst p l = some (x, rest)) : x ∈ l ∧ p x = true := by
  induction l generalizing rest with
  | nil => simp [takeFirst] at h
  | cons y ys ih =>
    simp only [takeFirst] at h
    split at h
    · rename_i hy
      simp only [Option.some.injEq, Prod.mk.injEq] at h
      obtain ⟨rfl, -⟩ := h
      exact ⟨List.mem_cons_self, hy⟩
    · simp only [Option.map_eq_some_iff, Prod.mk.injEq] at h
      obtain ⟨⟨z, zs⟩, hz, rfl, -⟩ := h
      have := ih hz
      exact ⟨List.mem_cons_of_mem _ this.1, this.2⟩

/-- When the device moves next, nothing outside it is taken (00_scope.md R8). -/
theorem choose_device {s : State} (h : s.deviceMoves) : choose s = chooseDevice s := by
  have h1 : firstOfTier .outside s = none := takeFirst_none fun y hy => by rcases h.2 y hy with h | h <;> simp [h]
  simp [choose, h.1, h1]

/-- What a step can do: a loop goes on, a middle interrupt is taken, an operation runs, or nothing is ready. -/
theorem step_next {s t : State} (h : step s = .next t) :
    (choose s = .hostLoop ∧ t = hostContinue s) ∨ (choose s = .rxLoop ∧ t = rxContinue s) ∨
    (choose s = .txLoop ∧ t = txContinue s) ∨ (choose s = .idle ∧ t = s.fresh) ∨
    ∃ (x : Stimulus) (rest : List Stimulus), choose s = .take x rest ∧
      ((∃ k, t = takeUsbInterrupt k { s with pending := rest }) ∨
        ∃ i, decode s.cfg s.fsm.tag x = .ok i ∧ exec i { s with pending := rest } = .next t) := by
  simp only [step] at h
  split at h
  · cases h; exact .inl ⟨by assumption, rfl⟩
  · cases h; exact .inr (.inl ⟨by assumption, rfl⟩)
  · cases h; exact .inr (.inr (.inl ⟨by assumption, rfl⟩))
  · rename_i x rest hc
    exact .inr (.inr (.inr (.inr ⟨x, rest, hc, runStimulus_next h⟩)))
  · cases h; exact .inr (.inr (.inr (.inl ⟨by assumption, rfl⟩)))

end Sys2Proof.Machine
end

