-- ==== Sys2Proof/Laws/PerInstr.lean ====
section
/-! SUPPORT. Statements about every operation, as syntax, one lemma per constructor. -/

/-- In every configuration the operation has a stimulus, unless it is PKT.Unknown, which "has no
encoding" (42_control_packets.md R165). -/
def Sys2Proof.Laws.EncodeTotal.Statement (i : Sys2Proof.Instr) : Prop :=
  ∀ c : Sys2Proof.Config, Sys2Proof.encode c i = none ↔ i = .pktUnknown

namespace Sys2Proof.Laws.EncodeTotal

/-- An operation with a stimulus that is not PKT.Unknown. -/
theorem of_some {i : Instr} (h : ∀ c, ∃ x, encode c i = some x) (hi : i ≠ .pktUnknown) : Statement i := by
  intro c
  obtain ⟨x, hx⟩ := h c
  simp [hx, hi]

theorem bbDecode (a b : Word) : Statement (.bbDecode a b) := of_some (fun _ => ⟨_, rfl⟩) (by simp)
theorem bbEncode (w : Word) : Statement (.bbEncode w) := of_some (fun _ => ⟨_, rfl⟩) (by simp)
theorem bbSample (a b : Word) : Statement (.bbSample a b) := of_some (fun _ => ⟨_, rfl⟩) (by simp)
theorem bbEmit (w : Word) : Statement (.bbEmit w) := of_some (fun _ => ⟨_, rfl⟩) (by simp)
theorem fsmAdvanceDm (w : Word) : Statement (.fsmAdvanceDm w) := of_some (fun _ => ⟨_, rfl⟩) (by simp)
theorem fsmAdvanceDpcCount (w : Word) : Statement (.fsmAdvanceDpcCount w) := of_some (fun _ => ⟨_, rfl⟩) (by simp)
theorem fsmAdvanceDpcSentinel : Statement .fsmAdvanceDpcSentinel := of_some (fun _ => ⟨_, rfl⟩) (by simp)
theorem fsmAdvanceWfm (w : Word) : Statement (.fsmAdvanceWfm w) := of_some (fun _ => ⟨_, rfl⟩) (by simp)
theorem fsmAdvanceRp (w : Word) : Statement (.fsmAdvanceRp w) := of_some (fun _ => ⟨_, rfl⟩) (by simp)
theorem fsmEmit (frame : List Word) : Statement (.fsmEmit frame) := of_some (fun _ => ⟨_, rfl⟩) (by simp)
theorem fsmPop : Statement .fsmPop := of_some (fun _ => ⟨_, rfl⟩) (by simp)
theorem reqGetVersion : Statement .reqGetVersion := of_some (fun _ => ⟨_, rfl⟩) (by simp)
theorem reqPing (payload : Nibble) (version : Byte) : Statement (.reqPing payload version) :=
  of_some (fun _ => ⟨_, rfl⟩) (by simp)
theorem reqSetParam (index : Nibble) (value : Word) : Statement (.reqSetParam index value) :=
  of_some (fun _ => ⟨_, rfl⟩) (by simp)
theorem reqGetParam (index : Nibble) : Statement (.reqGetParam index) := of_some (fun _ => ⟨_, rfl⟩) (by simp)
theorem reqLedOn : Statement .reqLedOn := of_some (fun _ => ⟨_, rfl⟩) (by simp)
theorem reqLedOff : Statement .reqLedOff := of_some (fun _ => ⟨_, rfl⟩) (by simp)
theorem reqEnableGenerator (n : Nibble) (body : List Byte) : Statement (.reqEnableGenerator n body) :=
  of_some (fun _ => ⟨_, rfl⟩) (by simp)
theorem reqDisableGenerator (n : Nibble) (body : List Byte) : Statement (.reqDisableGenerator n body) :=
  of_some (fun _ => ⟨_, rfl⟩) (by simp)
theorem rspVersion (n : Nibble) (body : List Byte) : Statement (.rspVersion n body) :=
  of_some (fun _ => ⟨_, rfl⟩) (by simp)
theorem rspPong (payload : Nibble) (version : Byte) : Statement (.rspPong payload version) :=
  of_some (fun _ => ⟨_, rfl⟩) (by simp)
theorem rspParams (values : List Word) : Statement (.rspParams values) := of_some (fun _ => ⟨_, rfl⟩) (by simp)
theorem rspError (n : Nibble) (body : List Byte) : Statement (.rspError n body) :=
  of_some (fun _ => ⟨_, rfl⟩) (by simp)
theorem pktUnknown : Statement .pktUnknown := fun _ => ⟨fun _ => rfl, fun _ => rfl⟩
theorem pktDecodeReq (pkt : List Byte) (len : Nat) : Statement (.pktDecodeReq pkt len) :=
  of_some (fun _ => ⟨_, rfl⟩) (by simp)
theorem pktDecodeRsp (pkt : List Byte) (len : Nat) : Statement (.pktDecodeRsp pkt len) :=
  of_some (fun _ => ⟨_, rfl⟩) (by simp)
theorem pktEncode (p : Packet) : Statement (.pktEncode p) := of_some (fun _ => ⟨_, rfl⟩) (by simp)
theorem usbRx (x : RxInput) : Statement (.usbRx x) := of_some (fun _ => ⟨_, rfl⟩) (by simp)
theorem usbTx (p : Response) : Statement (.usbTx p) := of_some (fun _ => ⟨_, rfl⟩) (by simp)
theorem usbHost (op : HostOp) : Statement (.usbHost op) := of_some (fun _ => ⟨_, rfl⟩) (by simp)

end Sys2Proof.Laws.EncodeTotal
end

