-- ==== Sys2Proof/Tests/Slice0.lean ====
section
/-! SUPPORT. The model's own tests: the vectors of spec/95_test_vectors.md and the worked examples of the
rules, in the reference configuration; the checks of well-formedness; and states that meet the
hypotheses of the obligations. -/

namespace Sys2Proof.Tests

open Sys2Proof.Machine

/-! ### Well-formedness refuses ill-formed operands -/

theorem test_wf_count_row_refuses_sentinel : (Instr.fsmAdvanceDpcCount sentinel).wellFormed .ref = false := by decide
theorem test_wf_emit_refuses_empty_frame : (Instr.fsmEmit []).wellFormed .ref = false := by decide
theorem test_wf_emit_refuses_long_frame : (Instr.fsmEmit (List.replicate 17 0)).wellFormed .ref = false := by decide
theorem test_wf_enable_refuses_short_body : (Instr.reqEnableGenerator 2 [1, 2, 3]).wellFormed .ref = false := by decide
theorem test_wf_disable_refuses_body : (Instr.reqDisableGenerator 0 [1]).wellFormed .ref = false := by decide
theorem test_wf_version_refuses_short_body : (Instr.rspVersion 0 [1]).wellFormed .ref = false := by decide
theorem test_wf_params_refuses_32_values : (Instr.rspParams (List.replicate 32 0)).wellFormed .ref = false := by decide
theorem test_wf_error_refuses_empty_body : (Instr.rspError 0 []).wellFormed .ref = false := by decide
theorem test_wf_encode_refuses_unknown : (Instr.pktEncode .unknown).wellFormed .ref = false := by decide
theorem test_wf_decode_req_refuses_length_past_buffer : (Instr.pktDecodeReq [1] 2).wellFormed .ref = false := by decide
theorem test_wf_decode_rsp_refuses_65_bytes : (Instr.pktDecodeRsp (List.replicate 65 0) 1).wellFormed .ref = false := by decide
theorem test_wf_rx_refuses_65_bytes : (Instr.usbRx (.packet (List.replicate 65 0))).wellFormed .ref = false := by decide
theorem test_wf_tx_refuses_short_error : (Instr.usbTx (.error 0 [])).wellFormed .ref = false := by decide
theorem test_wf_txh_refuses_short_body : (Instr.usbHost (.txh (.enableGenerator 0 []))).wellFormed .ref = false := by decide
theorem test_wf_rxh_refuses_65_bytes : (Instr.usbHost (.rxh (List.replicate 65 0))).wellFormed .ref = false := by decide

/-! ### Decoding: words and packets written out from 30_encoding.md R75, R80, R82, R84 -/

theorem test_ref_admitted : Config.ref.Admitted := by decide

/-- A packet decodes to a row (request direction). -/
abbrev decodesReq (bytes : List Byte) (i : Instr) : Prop :=
  (decode .ref .dm (.packet .request bytes)).toOption = some i

/-- A packet decodes to a row (response direction). -/
abbrev decodesRsp (bytes : List Byte) (i : Instr) : Prop :=
  (decode .ref .dm (.packet .response bytes)).toOption = some i

theorem test_decode_getVersion : decodesReq [0b00000001] .reqGetVersion := by decide
theorem test_decode_getVersion_ignores_nibble : decodesReq [0b11110001, 0x99] .reqGetVersion := by decide
theorem test_decode_ping : decodesReq [0b10100010, 0b00000111] (.reqPing 0xA 0x07) := by decide
theorem test_decode_short_ping : decodesReq [0b00000010] .pktUnknown := by decide
theorem test_decode_setParam : decodesReq [0b00110100, 0b11101000, 0b00000011] (.reqSetParam 3 1000) := by decide
theorem test_decode_setParam_index15 : decodesReq [0xF4, 0xFF, 0xFF] (.reqSetParam 15 0xFFFF) := by decide
theorem test_decode_short_setParam : decodesReq [0x04, 0xE8] .pktUnknown := by decide
theorem test_decode_getParam : decodesReq [0b01010101] (.reqGetParam 5) := by decide
theorem test_decode_ledOn : decodesReq [0x16] .reqLedOn := by decide
theorem test_decode_ledOff : decodesReq [0x07] .reqLedOff := by decide
theorem test_decode_enable :
    decodesReq [0x28, 1, 2, 3, 4, 5, 6, 7] (.reqEnableGenerator 2 [1, 2, 3, 4, 5, 6, 7]) := by decide
theorem test_decode_short_enable : decodesReq [0x28, 1, 2, 3, 4, 5, 6] .pktUnknown := by decide
theorem test_decode_disable : decodesReq [0x59] (.reqDisableGenerator 5 []) := by decide
theorem test_decode_response_opcode_is_no_request : decodesReq [0x0A] .pktUnknown := by decide
theorem test_decode_never_opcode : decodesReq [0xFF] .pktUnknown := by decide
theorem test_decode_empty : decodesReq [] .pktUnknown := by decide
theorem test_decode_version : decodesRsp [0x01, 1, 2, 3] (.rspVersion 0 [1, 2, 3]) := by decide
theorem test_decode_request_is_no_version : decodesRsp [0x01] .pktUnknown := by decide
theorem test_decode_pong : decodesRsp [0xA2, 0x07] (.rspPong 0xA 7) := by decide
theorem test_decode_params : decodesRsp [0x0A, 3, 0x0B, 0, 0x15, 0, 0x1F, 0] (.rspParams [11, 21, 31]) := by decide
theorem test_decode_params_empty : decodesRsp [0x0A, 0] (.rspParams []) := by decide
theorem test_decode_params_short : decodesRsp [0x0A, 3, 0x0B, 0, 0x15, 0] .pktUnknown := by decide
theorem test_decode_params_32 : decodesRsp (0x0A :: 0x20 :: List.replicate 62 0) .pktUnknown := by decide
theorem test_decode_error : decodesRsp [0x0B, 4] (.rspError 0 [4]) := by decide
theorem test_decode_rsp_setParam_unknown : decodesRsp [0x34, 0xE8, 0x03] .pktUnknown := by decide
theorem test_decode_feed_dm : (decode .ref .dm (.feed 0x5555)).toOption = some (.fsmAdvanceDm 0x5555) := by decide
theorem test_decode_feed_dpc :
    (decode .ref .dpc (.feed 0b0101010101010101)).toOption = some .fsmAdvanceDpcSentinel := by decide
theorem test_decode_feed_count : (decode .ref .dpc (.feed 7)).toOption = some (.fsmAdvanceDpcCount 7) := by decide
theorem test_decode_feed_wfm : (decode .ref .wfm (.feed 7)).toOption = some (.fsmAdvanceWfm 7) := by decide
theorem test_decode_feed_rp : (decode .ref .rp (.feed 0x5555)).toOption = some (.fsmAdvanceRp 0x5555) := by decide
theorem test_decode_sample :
    (decode .ref .dm (.sample 0x55 0xA22)).toOption = some (.bbSample 0x55 0xA22) := by decide
theorem test_decode_emit : (decode .ref .dm (.emit 0x1234)).toOption = some (.bbEmit 0x1234) := by decide
theorem test_decode_rx : (decode .ref .dm (.rx (.packet [0xFF]))).toOption = some (.usbRx (.packet [0xFF])) := by decide
theorem test_decode_tx : (decode .ref .dm (.tx (.pong 1 2))).toOption = some (.usbTx (.pong 1 2)) := by decide
theorem test_table_getVersion : decodeTableWord 8 1 = some .reqGetVersion := by decide
theorem test_table_setParam : decodeTableWord 8 4 = some (.reqSetParam 0 0) := by decide
theorem test_table_sentinel : decodeTableWord 16 21845 = some .fsmAdvanceDpcSentinel := by decide

/-! ### Encoding: V-PKT-1 and V-PKT-3 -/

theorem test_enc_setParam : encRequest .ref (.setParam 3 1000) = [0x34, 0xE8, 0x03] := by decide
theorem test_enc_ping : encRequest .ref (.ping 0xF 0xFF) = [0xF2, 0xFF] := by decide
theorem test_enc_enable : encRequest .ref (.enableGenerator 2 [1, 2, 3, 4, 5, 6, 7]) = [0x28, 1, 2, 3, 4, 5, 6, 7] := by
  decide
theorem test_enc_params : encResponse .ref (.params [0xFFFF, 0]) = [0x0A, 2, 0xFF, 0xFF, 0, 0] := by decide
theorem test_enc_error : encResponse .ref (.error 0 [4]) = [0x0B, 4] := by decide

/-! ### One step of each operation -/

/-- The reset state with another ProtocolState. -/
def inState (f : ProtocolState) : State := { State.reset with fsm := f }

/-- The outputs of an operation's next state. -/
def outputsOf (i : Instr) (s : State) : Option (List Output) := (nextOf (exec i s)).map (·.outputs)

/-- The ProtocolState after an operation. -/
def fsmOf (i : Instr) (s : State) : Option ProtocolState := (nextOf (exec i s)).map (·.fsm)

/-- The queue after an operation. -/
def fqOf (i : Instr) (s : State) : Option (List (List Word)) := (nextOf (exec i s)).map (·.fq)

-- V-BB-1, V-BB-2
theorem test_bbDecode : outputsOf (.bbDecode 0x1234 0x5678) .reset = some [.word 0x3434] := by decide
theorem test_bbDecode_sentinel : outputsOf (.bbDecode 0x7FD5 0xFAFA) .reset = some [.word 0x5555] := by decide
theorem test_bbEncode : outputsOf (.bbEncode 0xBEEF) .reset = some [.ports 0x806F 0x0725] := by decide
theorem test_bbEncode_ones : outputsOf (.bbEncode 0xFFFF) .reset = some [.ports 0x807F 0x0F27] := by decide
-- V-BB-4
theorem test_bbSample : fsmOf (.bbSample 0x0055 0x0A22) .reset = some (.detectParamsCount 0) := by decide
theorem test_bbSample_unmapped :
    fsmOf (.bbSample 0x7F80 0xF0D8) (inState (.detectParamsCount 2)) = some (.detectParamsCount 3) := by decide
theorem test_bbEmit : (nextOf (exec (.bbEmit 0x1234) .reset)).map (fun t => (t.paOut, t.pbOut, t.strobe)) =
    some (0x0034, 0x0204, false) := by decide
-- V-FSM-1
theorem test_dm_stays : fsmOf (.fsmAdvanceDm 0xFFFF) .reset = some .detectMarker := by decide
theorem test_dm_sentinel : fsmOf (.fsmAdvanceDm 0x5555) .reset = some (.detectParamsCount 0) := by decide
theorem test_dpc_counts : fsmOf (.fsmAdvanceDpcCount 0) (inState (.detectParamsCount 16)) =
    some (.detectParamsCount 17) := by decide
theorem test_dpc_saturates : fsmOf (.fsmAdvanceDpcCount 0x1234) (inState (.detectParamsCount 17)) =
    some (.detectParamsCount 17) := by decide
theorem test_dpc_empty_count : fsmOf .fsmAdvanceDpcSentinel (inState (.detectParamsCount 0)) =
    some .detectMarker := by decide
theorem test_dpc_oversized : fsmOf .fsmAdvanceDpcSentinel (inState (.detectParamsCount 17)) =
    some .detectMarker := by decide
theorem test_dpc_max_accepted : (fsmOf .fsmAdvanceDpcSentinel (inState (.detectParamsCount 16))).map
    (fun f => (f.tag, f.learned)) = some (.rp, some 16) := by decide
theorem test_wfm_ignores : fsmOf (.fsmAdvanceWfm 0) (inState (.waitForMarker 3)) = some (.waitForMarker 3) := by decide
theorem test_wfm_resyncs : fsmOf (.fsmAdvanceWfm 0)
    { inState (.waitForMarker 3) with cfg := { Config.ref with strayPolicy := .resync } } = some .detectMarker := by
  decide
theorem test_rp_stores_sentinel : fsmOf (.fsmAdvanceRp 0x5555) (inState (.readParams ⟨3, 0, [1, 2, 3]⟩)) =
    some (.readParams ⟨3, 1, [0x5555, 2, 3]⟩) := by decide
theorem test_rp_emits : (nextOf (exec (.fsmAdvanceRp 30) (inState (.readParams ⟨3, 2, [10, 20, 0, 9]⟩)))).map
    (fun t => (t.fsm, t.fq)) = some (.waitForMarker 3, [[10, 20, 30]]) := by decide
-- V-FSM-3
theorem test_emit_sent : outputsOf (.fsmEmit [7]) .reset = some [.frameSent [7]] := by decide
theorem test_emit_dropped : fqOf (.fsmEmit [6]) { State.reset with fq := [[1], [2], [3], [4], [5]] } =
    some [[1], [2], [3], [4], [5]] := by decide
theorem test_pop : (nextOf (exec .fsmPop { State.reset with fq := [[1], [2]], usbWrites := [.accepted 4] })).map
    (fun t => (t.fq, t.txBuf.take 4, t.txLen, t.txSent)) = some ([[2]], [0x0A, 1, 1, 0], 4, 4) := by decide
theorem test_pop_empty : outputsOf .fsmPop .reset = some [.held] := by decide
-- R174
theorem test_getVersion_answered : (nextOf (exec .reqGetVersion { State.reset with usbWrites := [.wouldBlock] })).map
    (fun t => (t.txLen, t.txSent, t.txLoop)) = some (4, 0, true) := by decide
theorem test_ping_answered : (nextOf (exec (.reqPing 1 2) { State.reset with usbWrites := [.accepted 2] })).map
    (fun t => (t.txLen, t.txSent, t.txLoop)) = some (2, 2, false) := by decide
theorem test_setParam_command : outputsOf (.reqSetParam 3 1000) .reset = some [.command (.setParam 3 1000)] := by decide
theorem test_setParam_out_of_range : outputsOf (.reqSetParam 3 1000)
    { State.reset with cfg := { Config.ref with declaredIndices := [0, 1, 2] } } = some [.ignored (.setParam 3 1000)] := by
  decide
theorem test_unknown_discarded : outputsOf .pktUnknown .reset = some [.discarded] := by decide
theorem test_rspPong_received : outputsOf (.rspPong 0xA 7) .reset = some [.hostReceived (.pong 0xA 7)] := by decide
-- V-PKT-2, V-PKT-3
theorem test_decodeReq_reads_valid_bytes : outputsOf (.pktDecodeReq [0x02, 0x07] 1) .reset =
    some [.decoded .unknown] := by decide
theorem test_decodeRsp : outputsOf (.pktDecodeRsp [0x0A, 1, 0xE8, 3] 4) .reset =
    some [.decoded (.response (.params [1000]))] := by decide
theorem test_encode : outputsOf (.pktEncode (.request (.getParam 5))) .reset =
    some [.encoded (0x55 :: List.replicate 63 0) 1] := by decide
theorem test_encode_unknown : nextOf (exec (.pktEncode .unknown) .reset) = none := by decide
-- USB vectors
theorem test_rx_one_packet : (nextOf (exec (.usbRx (.packet [0x34, 0xE8, 0x03]))
    { State.reset with usbPolls := [.wouldBlock], usbReads := [.wouldBlock, .wouldBlock] })).map
    (fun t => (t.rxLen, t.rxBuf.take 3, t.pending, t.outputs.length)) =
    some (3, [0x34, 0xE8, 0x03], [.packet .request [0x34, 0xE8, 0x03]], 6) := by decide
theorem test_rx_unknown : outputsOf (.usbRx (.packet [0xFF])) .reset =
    some [.usbPoll (.ready true), .usbRead (.data [0xFF]), .discarded] := by decide
theorem test_tx_resumes : outputsOf (.usbTx (.params [11, 21, 31]))
    { State.reset with usbWrites := [.accepted 3, .wouldBlock, .accepted 0, .accepted 5] } =
    some [.usbWrite [0x0A, 3, 0x0B, 0, 0x15, 0, 0x1F, 0] (.accepted 3), .usbWrite [0, 0x15, 0, 0x1F, 0] .wouldBlock,
      .usbWrite [0, 0x15, 0, 0x1F, 0] (.accepted 0), .usbWrite [0, 0x15, 0, 0x1F, 0] (.accepted 5)] := by decide
theorem test_tx_full64 : (nextOf (exec (.usbTx (.params [11, 21, 31])) { State.reset with
    cfg := { Config.ref with wireMode := .full64 }, usbWrites := [.accepted 32, .accepted 32] })).map
    (fun t => (t.txLen, t.txSent, t.txLoop)) = some (64, 64, false) := by decide
theorem test_host_budget : (nextOf (exec (.usbHost (.txh .getVersion))
    { State.reset with hostWrites := [.timeout, .timeout, .timeout] })).map
    (fun t => (t.hostAttempts, t.hostPhase, t.outputs.length)) = some (3, .idle, 4) := by decide
-- R201: a hard error ends the transfer, and the timeout before it is the one failed attempt
theorem test_host_hard_error : (nextOf (exec (.usbHost (.txh .getVersion))
    { State.reset with hostWrites := [.timeout, .hardError .deviceNotFound, .accepted 1] })).map
    (fun t => (t.hostAttempts, t.hostPhase, t.hostWrites, t.outputs.length)) =
    some (1, .idle, [.accepted 1], 3) := by decide

/-! ### Steps -/

theorem test_step_getVersion : (nextOf (step (State.reset.withFetchWord 8 1))).map (fun t => (t.pending, t.txLen)) =
    some ([], 4) := by decide
theorem test_step_sentinel_row : (nextOf (step (State.reset.withFetchWord 16 21845))).map (·.fsm) =
    some .detectMarker := by decide
theorem test_step_high_tier_first :
    (nextOf (step { State.reset with pending := [.emit 1, .feed 0x5555] })).map (fun t => (t.fsm, t.pending)) =
    some (.detectParamsCount 0, [.emit 1]) := by decide
theorem test_step_middle_tier_before_low :
    (nextOf (step { State.reset with pending := [.emit 1, .usbInterrupt .receive] })).map
      (fun t => (t.outputs, t.pending)) = some ([.usbInterrupt .receive], [.emit 1]) := by decide
theorem test_decode_interrupt : (decode .ref .dm (.usbInterrupt .transmit)).toOption = none := by decide

/-! ### States and operands that meet the hypotheses of the obligations -/

/-- The state after reset of configuration `c`, with these queues and inputs. -/
def world (c : Config) (f : ProtocolState) (fq : List (List Word)) (pending : List Stimulus)
    (reads : List ReadReply) (writes : List WriteReply) : State :=
  { State.resetWith c with fsm := f, fq := fq, pending := pending, usbReads := reads, usbWrites := writes }

theorem world_inv (c : Config) {f : ProtocolState} {fq : List (List Word)} (pending : List Stimulus)
    (reads : List ReadReply) (writes : List WriteReply) (hc : c.Admitted) (hf : f.inRange c.maxParams)
    (hq : fq.length ≤ 5 ∧ ∀ g ∈ fq, 1 ≤ g.length ∧ g.length ≤ c.maxParams) :
    (world c f fq pending reads writes).Inv :=
  ⟨hc, hf, hq.1, hq.2, rfl, (by decide : (List.replicate 64 0#8).length = 64), (by decide : 0 ≤ 64),
    (by decide : (List.replicate 64 0#8).length = 64), (by decide : 1 ≤ 1 ∧ 1 ≤ 64), (by decide : 0 ≤ 1),
    (by decide : false = true → 0 < 1), Nat.zero_le _, trivial⟩

/-- The reference configuration under the policy `resync`. -/
def resyncRef : Config := { Config.ref with strayPolicy := .resync }

/-- A buffer of three words, of which `k` are read. -/
def buffer (k : Nat) : ParamsBuffer := ⟨3, k, List.replicate 16 7⟩

/-- A state in which a Pong is half written. -/
def sending (writes : List WriteReply) : State :=
  { world .ref (.waitForMarker 16) [[1]] [.feed 0x5555, .pop] [] writes with txLen := 2, txSent := 1, txLoop := true }

theorem sending_inv (writes : List WriteReply) : (sending writes).Inv :=
  have h := world_inv .ref (f := .waitForMarker 16) (fq := [[1]]) [.feed 0x5555, .pop] [] writes (by decide)
    ⟨by decide, by decide⟩ (by decide)
  ⟨h.cfg, h.fsm, h.fqDepth, h.fqFrames, h.strobe, h.rxBuf, h.rxLen, h.txBuf, (by decide : 1 ≤ 2 ∧ 2 ≤ 64),
    (by decide : 1 ≤ 2), fun _ => (by decide : 1 < 2), h.hostAttempts, h.hostPhase⟩

/-- An operation or step that ends in a next state with a property. -/
theorem next_with {r : Result} (p : State → Bool) (h : (nextOf r).any p = true) : ∃ t, r = .next t ∧ p t = true := by
  cases r with
  | next t => exact ⟨t, rfl, h⟩
  | fault e => cases h
  | refused e => cases h

/-- A map admitted beside REF_MAP: bits 7 to 9 on port A, the others on port B. -/
def otherMap : BitMap :=
  #v[⟨.B, 0⟩, ⟨.B, 1⟩, ⟨.B, 2⟩, ⟨.B, 3⟩, ⟨.B, 4⟩, ⟨.B, 5⟩, ⟨.B, 6⟩, ⟨.A, 0⟩, ⟨.A, 1⟩, ⟨.A, 2⟩, ⟨.B, 7⟩, ⟨.B, 8⟩,
    ⟨.B, 9⟩, ⟨.B, 10⟩, ⟨.B, 11⟩, ⟨.B, 15⟩]

theorem witness_BbDecodeOfEncodeIsIdentity : refMap.Admitted ∧ otherMap.Admitted := by decide
theorem witness_BbEncodeOfDecodeMasks : refMap.Admitted ∧
    bbEncode refMap (bbDecode refMap 0x806F 0x0725) = (0x806F, 0x0725) ∧
    bbEncode refMap (bbDecode refMap 0xFFFF 0xFFFF) = (0x807F, 0x0F27) := by decide
theorem witness_BbEncodeKeepsPopcount : refMap.Admitted ∧ otherMap.Admitted := by decide
theorem witness_BbCodecIsBitwise : refMap.Admitted ∧ (portOf refMap[15].port 0x8000 0).getLsbD refMap[15].bit.val =
    (portOf refMap[15].port 0xFFFF 0).getLsbD refMap[15].bit.val ∧ (0x8000#16).getLsbD 15 = (0xFFFF#16).getLsbD 15 := by
  decide
theorem witness_SampleAdvancesOnDecodedWord : (world .ref (.readParams (buffer 2)) [[1]] [] [] []).Inv :=
  world_inv _ _ _ _ (by decide) ⟨by decide, by decide, by decide, by decide⟩ (by decide)
theorem witness_DetectMarkerAdvance : (world .ref .detectMarker [[1]] [] [] []).fsm = .detectMarker := rfl
theorem witness_CountingSaturates : (0x5554#16 ≠ 0x5555#16) ∧ (inState (.detectParamsCount 16)).fsm = .detectParamsCount 16 ∧
    (inState (.detectParamsCount 17)).fsm = .detectParamsCount 17 := by decide
theorem witness_SentinelEndsCounting : (inState (.detectParamsCount 0)).fsm = .detectParamsCount 0 ∧
    (inState (.detectParamsCount 16)).fsm = .detectParamsCount 16 ∧
    (inState (.detectParamsCount 17)).fsm = .detectParamsCount 17 := by decide
theorem witness_WaitForMarkerAdvance : (inState (.waitForMarker 16)).fsm = .waitForMarker 16 ∧
    (world resyncRef (.waitForMarker 1) [] [] [] []).fsm = .waitForMarker 1 := by decide
theorem witness_ReadParamsStoresAndEmits : (inState (.readParams (buffer 0))).fsm = .readParams (buffer 0) ∧
    (inState (.readParams (buffer 0))).fsm.inRange 16 ∧ (buffer 0).cursor + 1 ≠ (buffer 0).expected ∧
    (inState (.readParams (buffer 2))).fsm.inRange 16 ∧ (buffer 2).cursor + 1 = (buffer 2).expected :=
  ⟨rfl, ⟨by decide, by decide, by decide, by decide⟩, by decide, ⟨by decide, by decide, by decide, by decide⟩, rfl⟩
theorem witness_EmitPushesOrDrops : (world .ref .detectMarker [[1], [2], [3], [4]] [] [] []).fq.length < 5 ∧
    5 ≤ (world .ref .detectMarker [[1], [2], [3], [4], [5]] [] [] []).fq.length := by decide
theorem witness_PopSendsOldestFrame : (world .ref .detectMarker [[1], [2]] [] [] []).Inv ∧
    (world .ref .detectMarker [[1], [2]] [] [] []).fq = [1] :: [[2]] ∧
    (world .ref .detectMarker [[1], [2]] [] [] []).txLoop = false :=
  ⟨world_inv _ _ _ _ (by decide) trivial (by decide), rfl, rfl⟩
theorem witness_PopWithoutFrameWaits : (world .ref .detectMarker [] [.pop] [] []).fq = [] ∧
    (world .ref .detectMarker [] [.pop] [] []).pending = [.pop] ∧
    (world .ref .detectMarker [] [.pop] [] []).rxPhase = .idle ∧
    (world .ref .detectMarker [] [.pop] [] []).txLoop = false ∧
    (world .ref .detectMarker [] [.pop] [] []).hostPhase = .idle := ⟨rfl, rfl, rfl, rfl, rfl⟩
theorem witness_AdvanceIsTotalAndLocal : (world resyncRef (.detectParamsCount 17) [] [] [] []).Inv ∧
    (0x5555#16 = 0x5555#16) := ⟨world_inv _ _ _ _ (by decide) (by decide : 17 ≤ 16 + 1) (by decide), rfl⟩
theorem witness_LearnedCountStays_ignore : (world .ref (.waitForMarker 16) [] [.feed 0] [] []).Inv ∧
    (world .ref (.waitForMarker 16) [] [.feed 0] [] []).fsm.learned = some 16 ∧
    ∃ t, step (world .ref (.waitForMarker 16) [] [.feed 0] [] []) = .next t ∧ (t.cfg.strayPolicy == .ignore) = true :=
  ⟨world_inv _ _ _ _ (by decide) ⟨by decide, by decide⟩ (by decide), rfl, next_with _ (by decide)⟩
theorem witness_LearnedCountStays_resync : (world resyncRef (.waitForMarker 1) [] [.feed 0] [] []).Inv ∧
    (world resyncRef (.waitForMarker 1) [] [.feed 0] [] []).fsm.learned = some 1 ∧
    ∃ t, step (world resyncRef (.waitForMarker 1) [] [.feed 0] [] []) = .next t ∧ (t.fsm.learned != some 1) = true :=
  ⟨world_inv _ _ _ _ (by decide) ⟨by decide, by decide⟩ (by decide), rfl, next_with _ (by decide)⟩
theorem witness_quiescent (f : ProtocolState) (fq : List (List Word)) : (world .ref f fq [] [] []).quiescent :=
  ⟨rfl, rfl, rfl, rfl⟩
theorem witness_NoFrameWithoutTwoSentinels : (world .ref .detectMarker [[1]] [] [] []).quiescent ∧
    (world .ref .detectMarker [[1]] [] [] []).fsm = .detectMarker ∧ (∀ w ∈ [7#16, 0xFFFF#16], w ≠ 0x5555#16) ∧
    (∀ w ∈ List.replicate 20 0x5554#16, w ≠ 0x5555#16) := ⟨witness_quiescent _ _, rfl, by simp,
    fun w h => by rw [List.eq_of_mem_replicate h]; decide⟩
theorem witness_WellFormedStreamIsCaptured : (world .ref .detectMarker [[1], [2], [3]] [] [] []).quiescent ∧
    (world .ref .detectMarker [[1], [2], [3]] [] [] []).fsm = .detectMarker ∧
    1 ≤ [10#16, 20].length ∧ [10#16, 20].length ≤ Config.ref.maxParams ∧
    [1#16, 2].length = [10#16, 20].length ∧ [11#16, 21].length = [10#16, 20].length ∧
    (∀ w ∈ [1#16, 2] ++ [10, 20] ++ [11, 21], w ≠ 0x5555#16) ∧
    (world .ref .detectMarker [[1], [2], [3]] [] [] []).fq.length + 2 ≤ 5 :=
  ⟨witness_quiescent _ _, rfl, by decide, by decide, rfl, rfl, by simp, by decide⟩
theorem witness_CaptureRealignsAtSentinel : (world .ref (.waitForMarker 2) [[1], [2], [3], [4]] [] [] []).quiescent ∧
    (world .ref (.waitForMarker 2) [[1], [2], [3], [4]] [] [] []).cfg.strayPolicy = .ignore ∧
    (world .ref (.waitForMarker 2) [[1], [2], [3], [4]] [] [] []).fsm = .waitForMarker 2 ∧
    1 ≤ 2 ∧ 2 ≤ Config.ref.maxParams ∧ [0x5555#16, 9].length = 2 ∧ (∀ w ∈ [1#16, 2], w ≠ 0x5555#16) ∧
    (world .ref (.waitForMarker 2) [[1], [2], [3], [4]] [] [] []).fq.length < 5 :=
  ⟨witness_quiescent _ _, rfl, rfl, by decide, by decide, rfl, by simp, by decide⟩
theorem witness_PacketDecodeOfEncodeIsIdentity : State.reset.cfg.Admitted ∧
    (Request.enableGenerator 15 (List.replicate 7 0xFF)).wellFormed State.reset.cfg = true ∧
    (Response.params (List.replicate 31 0xFFFF)).wellFormed State.reset.cfg = true := by decide
theorem witness_BytesPastLengthAreIgnored : Config.ref.Admitted ∧ (Request.disableGenerator 0 []).wellFormed .ref = true ∧
    (Response.error 15 [0xFF]).wellFormed .ref = true := by decide
theorem witness_UnassignedOpcodesAreUnknown :
    (0x00#8).truncate 4 ∉ State.reset.cfg.requestOpcodes ∧ (0xFA#8).truncate 4 ∉ State.reset.cfg.requestOpcodes ∧
    (0x34#8).truncate 4 ∉ State.reset.cfg.responseOpcodes ∧ (0xFC#8).truncate 4 ∉ State.reset.cfg.responseOpcodes ∧
    State.reset.cfg.Admitted ∧ 0x0F#8 &&& 0x0F#8 = 0x0F#8 ∧ 0xFF#8 &&& 0x0F#8 = 0x0F#8 := by decide
theorem witness_EncodeRefusesIllFormed : (Packet.response (.params (List.replicate 32 0))) ≠ .unknown ∧
    (Packet.response (.params (List.replicate 32 0))).wellFormed State.reset.cfg = false ∧
    (Response.version 0 [1]).wellFormed State.reset.cfg = false ∧ State.reset.txLoop = false ∧
    (Request.enableGenerator 0 []).wellFormed State.reset.cfg = false ∧ State.reset.hostPhase = .idle := by decide
theorem witness_TruncatedPacketsAreUnknown : Config.ref.Admitted ∧ (Request.setParam 3 1000).wellFormed .ref = true ∧
    0 < (encRequest .ref (.setParam 3 1000)).length ∧ 2 < (encRequest .ref (.setParam 3 1000)).length ∧
    (Response.params [1]).wellFormed .ref = true ∧ 3 < (encResponse .ref (.params [1])).length := by decide
theorem witness_EncodeFillsBuffer : State.reset.cfg.Admitted ∧
    (Packet.request .getVersion).wellFormed State.reset.cfg = true ∧
    (Packet.response (.params (List.replicate 31 1))).wellFormed State.reset.cfg = true := by decide
theorem witness_SetParamLayout : 0x04#8 &&& 0x0F#8 = 0x04#8 ∧ 0xF4#8 &&& 0x0F#8 = 0x04#8 := by decide
theorem witness_PingAndPongLayout : 0x02#8 &&& 0x0F#8 = 0x02#8 ∧ 0xF2#8 &&& 0x0F#8 = 0x02#8 := by decide
theorem witness_ParamsLayout : Config.ref.Admitted ∧ (List.replicate 31 0xABCD#16).length ≤ 31 ∧
    (List.replicate 31 0xABCD#16)[30]? = some 0xABCD#16 ∧ (0x0A#8).truncate 4 = Config.ref.opParams ∧
    31 < (32#8).toNat ∧ [1#8].length < 2 * (1#8).toNat ∧ (31#8).toNat ≤ 31 ∧
    2 * (31#8).toNat ≤ (List.replicate 62 1#8).length ∧ 30 < (31#8).toNat ∧
    (List.replicate 62 1#8)[2 * 30]? = some 1#8 ∧ (List.replicate 62 1#8)[2 * 30 + 1]? = some 1#8 := by decide
theorem witness_OpaquePacketLayout : Config.ref.Admitted ∧ (0x28#8).truncate 4 = Config.ref.opEnableGenerator ∧
    (List.replicate 6 1#8).length + 1 < Config.ref.lenEnableGenerator ∧
    Config.ref.lenEnableGenerator ≤ (List.replicate 7 1#8).length + 1 ∧
    (0x59#8).truncate 4 = Config.ref.opDisableGenerator ∧ 0xF1#8 &&& 0x0F#8 = 0x01#8 ∧
    (0x0B#8).truncate 4 = Config.ref.opError := by decide
theorem witness_OneByteRequestLayout : Config.ref.Admitted ∧ 0xF1#8 &&& 0x0F#8 = 0x01#8 ∧ 0x55#8 &&& 0x0F#8 = 0x05#8 ∧
    (0xF6#8).truncate 4 = Config.ref.opLedOn ∧ (0x07#8).truncate 4 = Config.ref.opLedOff := by decide
theorem witness_EncodeOfDecodeMayDiffer : Config.ref.Admitted ∧ (List.replicate 31 0xABCD#16).length ≤ 31 ∧
    15#4 ≠ 0#4 := by decide
theorem witness_GetVersionAndPingAreAnswered : (world .ref .detectMarker [] [] [] [.accepted 1]).Inv ∧
    (world .ref .detectMarker [] [] [] [.accepted 1]).txLoop = false ∧ (sending []).Inv ∧ (sending []).txLoop = true :=
  ⟨world_inv _ _ _ _ (by decide) trivial (by decide), rfl, sending_inv _, rfl⟩
theorem witness_OtherCommandsLeaveTheBlock : 15#4 ∈ Config.ref.declaredIndices ∧
    15#4 ∉ ({ Config.ref with declaredIndices := [0, 14] } : Config).declaredIndices := by decide
/-- A device in a receive, with these answers to come and nothing for the host. -/
def receiving (ph : RxPhase) (polls : List PollReply) (reads : List ReadReply) : State :=
  { world .ref .detectMarker [] [.feed 0, .pop] reads [] with rxPhase := ph, usbPolls := polls }
theorem receiving_deviceMoves (ph : RxPhase) (polls : List PollReply) (reads : List ReadReply) :
    (receiving ph polls reads).deviceMoves := ⟨rfl, by simp [receiving, world, stimulusTier]⟩
theorem witness_QuietPollDoesNothing :
    (receiving .idle (List.replicate 2 .wouldBlock) []).rxPhase = .idle ∧
    (receiving .idle (List.replicate 2 .wouldBlock) []).usbPolls = List.replicate 2 .wouldBlock ∧
    (receiving .polling [.ready false] []).deviceMoves ∧
    (receiving .polling [.ready false] []).usbPolls = List.replicate 0 .wouldBlock ++ [.ready false] :=
  ⟨rfl, rfl, receiving_deviceMoves _ _ _, rfl⟩
theorem witness_ReceiveHandsOnOneRequest : (List.replicate 64 0xFF#8).length ≤ 64 ∧
    (receiving .idle [.wouldBlock] (List.replicate 2 .wouldBlock)).usbPolls = List.replicate 1 .wouldBlock ∧
    (receiving .idle [.wouldBlock] (List.replicate 2 .wouldBlock)).usbReads = List.replicate 2 .wouldBlock ∧
    (receiving .polling [.ready true] [.data [0x16]]).deviceMoves ∧
    (receiving .polling [.ready true] [.data [0x16]]).usbPolls = List.replicate 0 .wouldBlock ++ [.ready true] ∧
    (receiving .polling [.ready true] [.data [0x16]]).usbReads = List.replicate 0 .wouldBlock ++ [.data [0x16]] ∧
    (receiving .reading [] [.wouldBlock, .data []]).deviceMoves ∧
    (receiving .reading [] [.wouldBlock, .data []]).usbReads = List.replicate 1 .wouldBlock ++ [.data []] ∧
    decRequest .ref [0x16] = some .ledOn :=
  ⟨by decide, rfl, rfl, receiving_deviceMoves _ _ _, rfl, rfl, receiving_deviceMoves _ _ _, rfl, by decide⟩
theorem witness_BlockedReceiveKeepsLooping : (receiving .idle [] [.wouldBlock]).usbPolls = List.replicate 0 .wouldBlock ∧
    (receiving .idle [] [.wouldBlock]).usbReads = List.replicate 1 .wouldBlock ∧
    (receiving .polling [.wouldBlock] []).deviceMoves ∧
    (receiving .polling [.wouldBlock] []).usbPolls = List.replicate 1 .wouldBlock ∧
    (receiving .reading [] []).deviceMoves ∧ (receiving .reading [] []).usbReads = List.replicate 0 .wouldBlock ∧
    (receiving .reading [] []).rxPhase ≠ .idle :=
  ⟨rfl, rfl, receiving_deviceMoves _ _ _, rfl, receiving_deviceMoves _ _ _, rfl, by decide⟩
theorem witness_TransmitUntilAccepted : (world .ref .detectMarker [] [] [] [.accepted 3]).txLoop = false ∧
    (Response.params [11, 21, 31]).wellFormed (world .ref .detectMarker [] [] [] [.accepted 3]).cfg = true := by decide
/-- The state in which a Pong is half written, with no event of a higher tier. -/
def sendingLow (writes : List WriteReply) : State := { sending writes with pending := [.pop, .emit 1] }
theorem sendingLow_inv (writes : List WriteReply) : (sendingLow writes).Inv :=
  have h := sending_inv writes
  ⟨h.cfg, h.fsm, h.fqDepth, h.fqFrames, h.strobe, h.rxBuf, h.rxLen, h.txBuf, h.txLen, h.txSent, h.txLoop,
    h.hostAttempts, h.hostPhase⟩
theorem witness_WriteCallResumes : (sendingLow [.wouldBlock, .accepted 1]).Inv ∧
    choose (sendingLow [.wouldBlock, .accepted 1]) = .txLoop ∧ (sendingLow []).Inv ∧
    (sendingLow []).txLoop = true ∧ (sendingLow []).deviceMoves ∧ (sendingLow []).rxPhase = .idle ∧
    (∀ x ∈ (sendingLow []).pending, stimulusTier x ≠ .high ∧ stimulusTier x ≠ .middle) :=
  ⟨sendingLow_inv _, by decide, sendingLow_inv _, rfl, ⟨rfl, by simp [sendingLow, stimulusTier]⟩, rfl,
    by simp [sendingLow, stimulusTier]⟩
theorem witness_TransmitNeverGivesUp : (sending [.wouldBlock, .accepted 0]).Inv ∧
    (sending [.wouldBlock, .accepted 0]).txLoop = true ∧ (acceptsNothing (sending [.wouldBlock, .accepted 0]).usbWrites) ∧
    ∃ t, step (sending [.wouldBlock, .accepted 0]) = .next t ∧ t.txLoop = true :=
  ⟨sending_inv _, rfl, by simp [acceptsNothing, sending, world], next_with (·.txLoop) (by decide)⟩
/-- A host in the middle of a transfer, after one failed attempt. -/
def hosting (ph : HostPhase) (reads : List HostReadReply) (writes : List HostWriteReply) : State :=
  { State.reset with hostPhase := ph, hostAttempts := 1, hostReads := reads, hostWrites := writes }
theorem witness_HostWriteSucceedsWithinBudget :
    (∀ x ∈ [HostWriteReply.wouldBlock, .accepted 2], x.mayFail) ∧ State.reset.hostPhase = .idle ∧
    (Request.setParam 3 1000).wellFormed State.reset.cfg = true ∧
    hostAcceptedBytes [.wouldBlock, .accepted 2] < (wireBytes .ref (encRequest .ref (.setParam 3 1000))).length ∧
    [HostWriteReply.wouldBlock, .accepted 2].length < State.reset.cfg.hostRetryBudget ∧
    (wireBytes .ref (encRequest .ref (.setParam 3 1000))).length ≤ 3 ∧
    -- a transfer that goes on with one byte accepted
    1 + hostAcceptedBytes [.timeout] < [0x34#8, 0xE8, 0x03].length ∧
    (hosting (.writing [0x34, 0xE8, 0x03] 1) [] [.timeout, .accepted 2]).hostWrites = [.timeout] ++ [.accepted 2] ∧
    (hosting (.writing [0x34, 0xE8, 0x03] 1) [] [.timeout, .accepted 2]).hostAttempts + 1 <
      State.reset.cfg.hostRetryBudget ∧
    (∀ x ∈ [HostWriteReply.timeout], x = .wouldBlock ∨ x = .timeout) ∧ [0x34#8, 0xE8, 0x03].length ≤ 1 + 2 ∧
    -- and one that waits again
    (hosting (.writing [0x34, 0xE8, 0x03] 1) [] [.accepted 1]).hostWrites = [.accepted 1] ∧
    1 + hostAcceptedBytes [.accepted 1] < [0x34#8, 0xE8, 0x03].length ∧ [HostWriteReply.accepted 1] ≠ [] := by
  simp only [List.mem_cons, List.not_mem_nil, or_false, forall_eq_or_imp, forall_eq, HostWriteReply.mayFail]
  decide
theorem witness_HostWriteErrorAfterBudget :
    (∀ x ∈ [HostWriteReply.accepted 0, .timeout, .accepted 2], x.mayFail) ∧ State.reset.hostPhase = .idle ∧
    (Request.setParam 3 1000).wellFormed State.reset.cfg = true ∧
    hostAcceptedBytes [.accepted 0, .timeout, .accepted 2] <
      (wireBytes .ref (encRequest .ref (.setParam 3 1000))).length ∧
    [HostWriteReply.accepted 0, .timeout, .accepted 2].length = State.reset.cfg.hostRetryBudget ∧
    [HostWriteReply.accepted 0].length < State.reset.cfg.hostRetryBudget ∧
    -- a transfer that goes on after one failed attempt, and meets a hard error or its budget's end
    (hosting (.writing [1, 2, 3] 2) [] [.timeout, .hardError .endpointClaim]).hostWrites ≠ [] ∧
    (hosting (.writing [1, 2, 3] 2) [] [.timeout, .hardError .endpointClaim]).hostWrites =
      [.timeout] ++ .hardError .endpointClaim :: [] ∧ 2 + hostAcceptedBytes [.timeout] < 3 ∧
    1 + [HostWriteReply.timeout].length < State.reset.cfg.hostRetryBudget ∧
    1 + [HostWriteReply.timeout, .wouldBlock].length = State.reset.cfg.hostRetryBudget := by
  simp only [List.mem_cons, List.not_mem_nil, or_false, forall_eq_or_imp, forall_eq, HostWriteReply.mayFail]
  decide
theorem witness_HostReadRetriesAndDecodes : (List.replicate 64 0#8).length ≤ 64 ∧
    (∀ x ∈ [HostReadReply.wouldBlock, .timeout, .short], x.fails) ∧
    ({ State.reset with hostReads := [.wouldBlock, .short] } : State).hostPhase = .idle ∧
    [HostReadReply.wouldBlock, .short].length < State.reset.cfg.hostRetryBudget ∧
    (hosting .reading [.short, .hardError .driverDetach] []).hostReads = [.short] ++ .hardError .driverDetach :: [] ∧
    1 + [HostReadReply.short].length < State.reset.cfg.hostRetryBudget ∧
    0 + [HostReadReply.wouldBlock, .timeout, .short].length = State.reset.cfg.hostRetryBudget ∧
    -- RXH behind a hard error, and a read that waits again
    [.short, .hardError .deviceNotFound] ++ [.data [0x0A, 0]] =
      [HostReadReply.short] ++ .hardError .deviceNotFound :: [.data [0x0A, 0]] ∧
    (hosting .reading [.short] []).hostReads = [.short] ∧ [HostReadReply.short] ≠ [] := by
  simp only [List.mem_cons, List.not_mem_nil, or_false, forall_eq_or_imp, forall_eq, HostReadReply.fails]
  decide
theorem witness_StepRunsDecodedOperation : choose (sending []) = .take (.feed 0x5555) [.pop] ∧
    decode (sending []).cfg (sending []).fsm.tag (.feed 0x5555) = .ok (.fsmAdvanceWfm 0x5555) ∧
    (Instr.fsmAdvanceWfm 0x5555).wellFormed (sending []).cfg = true := ⟨by decide, rfl, by decide⟩
theorem witness_LoneStimulusIsTaken : (world .ref .detectMarker [] [.rx .quiet] [] []).pending = [.rx .quiet] ∧
    (world .ref .detectMarker [] [.rx .quiet] [] []).rxPhase = .idle ∧
    (world .ref .detectMarker [] [.rx .quiet] [] []).txLoop = false ∧
    (world .ref .detectMarker [] [.rx .quiet] [] []).hostPhase = .idle ∧
    stimulusEnabled (world .ref .detectMarker [] [.rx .quiet] [] []) (.rx .quiet) = true ∧
    decode .ref .dm (.rx .quiet) = .ok (.usbRx .quiet) := ⟨rfl, rfl, rfl, rfl, rfl, rfl⟩
theorem witness_HighestTierGoesFirst :
    (world .ref .detectMarker [] ([.emit 1] ++ .feed 2 :: [.pop]) [] []).deviceMoves ∧
    (∀ y ∈ [Stimulus.emit 1], stimulusTier y ≠ .high) ∧ stimulusTier (.feed 2) = .high ∧
    decode .ref .dm (.feed 2) = .ok (.fsmAdvanceDm 2) ∧
    -- the middle tier
    (world .ref .detectMarker [] ([.emit 1] ++ .usbInterrupt .transmit :: [.usbInterrupt .receive]) [] []).deviceMoves ∧
    (∀ y ∈ [Stimulus.emit 1] ++ .usbInterrupt .transmit :: [.usbInterrupt .receive], stimulusTier y ≠ .high) ∧
    (∀ y ∈ [Stimulus.emit 1], stimulusTier y ≠ .middle) ∧
    -- the lowest tier: a POP with no frame is passed over
    (world .ref .detectMarker [] ([.pop] ++ .emit 1 :: [.tx (.pong 1 2)]) [] []).deviceMoves ∧
    (∀ y ∈ [Stimulus.pop] ++ .emit 1 :: [.tx (.pong 1 2)], stimulusTier y ≠ .high ∧ stimulusTier y ≠ .middle) ∧
    (∀ y ∈ [Stimulus.pop], stimulusEnabled (world .ref .detectMarker [] ([.pop] ++ .emit 1 :: [.tx (.pong 1 2)]) [] []) y =
      false) ∧ decode .ref .dm (.emit 1) = .ok (.bbEmit 1) :=
  ⟨⟨rfl, by simp [world, stimulusTier]⟩, by decide, rfl, rfl, ⟨rfl, by simp [world, stimulusTier]⟩, by decide, by decide,
    ⟨rfl, by simp [world, stimulusTier]⟩, by decide,
    by decide, rfl⟩
theorem witness_EveryOperationEndsInANextState : (sending [.accepted 1]).Inv ∧
    (Instr.usbTx (.error 0 [4])).wellFormed (sending [.accepted 1]).cfg = true ∧
    (Instr.fsmEmit [0x5555]).wellFormed (sending [.accepted 1]).cfg = true := ⟨sending_inv _, rfl, rfl⟩
theorem witness_StepNeverFaults : (world .ref (.readParams (buffer 2)) [] [.feed 1] [] []).Inv :=
  world_inv _ _ _ _ (by decide) ⟨by decide, by decide, by decide, by decide⟩ (by decide)
theorem witness_DecodeOfEncodeIsIdentity : Config.ref.Admitted ∧ (Instr.reqSetParam 15 0xFFFF).wellFormed .ref = true ∧
    (Instr.reqSetParam 15 0xFFFF).selectedIn .dm = true ∧
    encode .ref (.reqSetParam 15 0xFFFF) = some (.packet .request [0xF4, 0xFF, 0xFF]) ∧
    (Instr.fsmAdvanceDpcCount 0x5554).wellFormed .ref = true ∧ (Instr.fsmAdvanceDpcCount 0x5554).selectedIn .dpc = true ∧
    encode .ref (.fsmAdvanceDpcCount 0x5554) = some (.feed 0x5554) := by decide
theorem witness_StepKeepsBounds : (sending [.accepted 1]).Inv ∧
    ∃ t, step (sending [.accepted 1]) = .next t ∧ (t.fsm.tag == .rp) = true := ⟨sending_inv _, next_with _ (by decide)⟩
theorem witness_ResetIsWithinBounds : Config.ref.Admitted ∧ resyncRef.Admitted := by decide
theorem witness_ResetValues : State.reset.hostPhase = .idle ∧ State.reset.hostReads = [] ∧ State.reset.hostWrites = [] ∧
    Request.getVersion.wellFormed State.reset.cfg = true := by decide
theorem witness_DatapathHasOneWriter : ∃ t, exec (.fsmEmit [1]) State.reset = .next t ∧ (t.fq == [[1]]) = true :=
  next_with _ (by decide)
theorem witness_QueueIsFirstInFirstOut : ∃ t, exec (.fsmAdvanceRp 9) (inState (.readParams (buffer 2))) = .next t ∧
    (t.fsm != (inState (.readParams (buffer 2))).fsm && t.fq == [[7, 7, 9]]) = true := next_with _ (by decide)
theorem witness_ConfigurationIsFixed : ∃ t, step (sending [.accepted 1]) = .next t ∧ (t.fsm.tag == .rp) = true :=
  next_with _ (by decide)

end Sys2Proof.Tests
end

section
/-! SUPPORT. What the scheduler chooses when one stimulus is pending, and the step that takes it: O47, O48. -/

namespace Sys2Proof.Machine

/-- A step that takes a stimulus runs the operation it decodes to, on the state without it (00_scope.md R7). -/
theorem step_of_take {s : State} {x : Stimulus} {rest : List Stimulus} {i : Instr}
    (hc : choose s = .take x rest) (hd : decode s.cfg s.fsm.tag x = .ok i) :
    step s = exec i { s with pending := rest } := by
  have hstep : step s = runStimulus x { s with pending := rest } := by simp only [step, hc]
  rw [hstep]
  exact runStimulus_eq hd

/-- Settles O47: the step that takes a stimulus is the run of what it decodes to. -/
theorem stepRunsDecodedOperation : Obligations.StepRunsDecodedOperation := by
  intro x rest i s hc hd _
  exact step_of_take hc hd

/-- A lone enabled stimulus is the first of its own tier, and no other tier has one. -/
theorem firstOfTier_lone {s : State} {x : Stimulus} (t : Tier) (hp : s.pending = [x])
    (he : stimulusEnabled s x = true) :
    firstOfTier t s = if stimulusTier x = t then some (x, []) else none := by
  simp [firstOfTier, hp, takeFirst, he]

/-- With no loop running, a lone enabled stimulus is chosen, whatever its tier (60_exceptions.md R206). -/
theorem choose_lone {s : State} {x : Stimulus} (hp : s.pending = [x]) (hrx : s.rxPhase = .idle)
    (htx : s.txLoop = false) (hh : s.hostPhase = .idle) (he : stimulusEnabled s x = true) :
    choose s = .take x [] := by
  have hfirst := fun t => firstOfTier_lone t hp he
  have hhost : hostReady s = false := by simp only [hostReady, hh]
  cases ht : stimulusTier x with
  | outside => simp [choose, hhost, hfirst, ht]
  | high => simp [choose, chooseDevice, hhost, hrx, hfirst, ht]
  | middle => simp [choose, chooseDevice, chooseBelowHigh, hhost, hrx, hfirst, ht]
  | low => simp [choose, chooseDevice, chooseBelowHigh, chooseLow, hhost, hrx, htx, hfirst, ht]

/-- Settles O48: the scheduler chooses the lone stimulus, and the step that takes it runs its operation. -/
theorem loneStimulusIsTaken : Obligations.LoneStimulusIsTaken := by
  intro x i s hp hrx htx hh he hd
  exact step_of_take (choose_lone hp hrx htx hh he) hd

end Sys2Proof.Machine
end

section
/-! SUPPORT. The commands whose effect is outside the block (42_control_packets.md R174): O36. -/

namespace Sys2Proof.Machine

/-- A command with a parameter index in the declared range is given to the application. -/
theorem indexedCommand_of_mem {index : Nibble} {s : State} (r : Request) (h : index ∈ s.cfg.declaredIndices) :
    indexedCommand index r s = .next { s with outputs := [.command r] } := by
  simp only [indexedCommand, if_pos h, State.answer]

/-- A command with a parameter index out of the declared range is ignored. -/
theorem indexedCommand_of_not_mem {index : Nibble} {s : State} (r : Request) (h : index ∉ s.cfg.declaredIndices) :
    indexedCommand index r s = .next { s with outputs := [.ignored r] } := by
  simp only [indexedCommand, if_neg h, State.answer]

/-- Settles O36: the two indexed commands by the range of their index; the four others answer outright. -/
theorem otherCommandsLeaveTheBlock : Obligations.OtherCommandsLeaveTheBlock := by
  intro index n value body s
  refine ⟨fun hin => ⟨?_, ?_⟩, fun hout => ⟨?_, ?_⟩, rfl, rfl, rfl, rfl⟩
  · exact indexedCommand_of_mem (.setParam index value) hin
  · exact indexedCommand_of_mem (.getParam index) hin
  · exact indexedCommand_of_not_mem (.setParam index value) hout
  · exact indexedCommand_of_not_mem (.getParam index) hout

end Sys2Proof.Machine
end

section
/-! SUPPORT. Every operation and every loop keeps the bounds of 10_state.md: O55. The bounds speak of the fields of
`State.Inv` alone, so an update of another field keeps them by `{ h with }`, and an update of one of them owes its
own bound and nothing else. -/

namespace Sys2Proof.Machine

/-! ### Updates of the state -/

theorem State.Inv.fresh {s : State} (h : s.Inv) : s.fresh.Inv := { h with }

theorem State.Inv.out {s : State} (h : s.Inv) (o : Output) : (s.out o).Inv := { h with }

theorem State.Inv.answer {s : State} (h : s.Inv) (o : Output) : (s.answer o).Inv := { h with }

theorem State.Inv.hold {s : State} (h : s.Inv) : s.hold.Inv := h.answer .held

theorem State.Inv.withPending {s : State} (h : s.Inv) (xs : List Stimulus) : { s with pending := xs }.Inv := { h with }

theorem State.Inv.withUsbPolls {s : State} (h : s.Inv) (ps : List PollReply) : { s with usbPolls := ps }.Inv :=
  { h with }

theorem State.Inv.withHostReads {s : State} (h : s.Inv) (rs : List HostReadReply) : { s with hostReads := rs }.Inv :=
  { h with }

theorem State.Inv.withHostWrites {s : State} (h : s.Inv) (rs : List HostWriteReply) :
    { s with hostWrites := rs }.Inv := { h with }

theorem State.Inv.withDraws {s : State} (h : s.Inv) (d : Nat) : { s with draws := d }.Inv := { h with }

/-- A ProtocolState within its bounds, however many values were drawn for its DATA. -/
theorem State.Inv.withFsm {s : State} (h : s.Inv) {f : ProtocolState} (d : Nat)
    (hf : f.inRange s.cfg.maxParams) : { s with fsm := f, draws := d }.Inv := { h with fsm := hf }

/-! ### Frame State Machine -/

/-- A push happens with room in FQ alone, and a drop leaves FQ as it was (41_frame.md R126). -/
theorem emitFrame_inv {f : List Word} {s : State} (h : s.Inv) (hf : 1 ≤ f.length ∧ f.length ≤ s.cfg.maxParams) :
    (emitFrame f s).Inv := by
  rw [emitFrame_eq]
  by_cases hroom : s.fq.length < queueDepth
  · have hdepth : (s.fq ++ [f]).length ≤ queueDepth := by simpa using hroom
    have hframes : ∀ g ∈ s.fq ++ [f], 1 ≤ g.length ∧ g.length ≤ s.cfg.maxParams := by
      simpa only [List.forall_mem_append, List.forall_mem_singleton] using And.intro h.fqFrames hf
    simp only [if_pos hroom]
    exact { h with fqDepth := hdepth, fqFrames := hframes }
  · simp only [if_neg hroom]
    exact { h with }

theorem advanceDm_inv {s : State} (h : s.Inv) (w : Word) : (advanceDm w s).Inv := by
  rw [advanceDm_eq]
  refine h.withFsm s.draws ?_
  split
  · exact Nat.zero_le _
  · trivial

/-- The count saturates at MAX_PARAMS + 1 (41_frame.md R122). -/
theorem advanceDpcCount_inv {s : State} (h : s.Inv) (c : Nat) : (advanceDpcCount c s).Inv :=
  h.withFsm s.draws (min_le_right (c + 1) (s.cfg.maxParams + 1))

/-- ReadParams is entered with a count of 1 to MAX_PARAMS alone (41_frame.md R123). -/
theorem advanceDpcSentinel_inv {s : State} (h : s.Inv) (c : Nat) : (advanceDpcSentinel c s).Inv := by
  obtain ⟨data, d, hdata, he⟩ := advanceDpcSentinel_eq c s
  rw [he]
  refine h.withFsm d ?_
  split
  · trivial
  · split
    · trivial
    · have hc : 1 ≤ c ∧ c ≤ s.cfg.maxParams := by omega
      exact ⟨hc.1, hc.2, hc.1, hdata⟩

/-- `WaitForMarker(n)` keeps the n it has learned, or loses it (41_frame.md R124). -/
theorem advanceWfm_inv {s : State} (h : s.Inv) {n : Nat} (w : Word) (hn : 1 ≤ n ∧ n ≤ s.cfg.maxParams) :
    (advanceWfm n w s).Inv := by
  obtain ⟨data, d, hdata, he⟩ := advanceWfm_eq n w s
  rw [he]
  refine h.withFsm d ?_
  split
  · exact ⟨hn.1, hn.2, hn.1, hdata⟩
  · split
    · exact hn
    · trivial

/-! ### Outcomes -/

/-- An outcome whose next state, if it has one, is within its bounds. -/
def WithinBounds : Result → Prop
  | .next t => t.Inv
  | .fault _ => True
  | .refused _ => True

@[simp] theorem withinBounds_next (t : State) : WithinBounds (.next t) ↔ t.Inv := Iff.rfl

@[simp] theorem withinBounds_refused (e : Refusal) : WithinBounds (.refused e) := trivial

theorem WithinBounds.inv {r : Result} {t : State} (h : WithinBounds r) (hr : r = .next t) : t.Inv := by
  subst hr; exact h

/-- The last word completes a frame of `expected` words; another moves the cursor on below it (41_frame.md R125). -/
theorem advanceRp_inv {s : State} (h : s.Inv) {b : ParamsBuffer} (w : Word)
    (hb : (ProtocolState.readParams b).inRange s.cfg.maxParams) : WithinBounds (advanceRp b w s) := by
  obtain ⟨hpos, hmax, hcursor, hdata⟩ := hb
  rw [advanceRp_eq w s ⟨hcursor, by omega⟩]
  split
  · have hframe : (b.data.take b.cursor ++ [w]).length = b.expected := by simp; omega
    have hemit : (emitFrame (b.data.take b.cursor ++ [w]) s).Inv := emitFrame_inv h (by omega)
    have hcfg : (emitFrame (b.data.take b.cursor ++ [w]) s).cfg = s.cfg := by rw [emitFrame_eq]
    exact hemit.withFsm _ ⟨hpos, by rw [hcfg]; exact hmax⟩
  · have hnext : b.cursor + 1 < b.expected := by omega
    exact h.withFsm s.draws ⟨hpos, hmax, hnext, by simpa using hdata⟩

theorem fsmAdvance_inv {s : State} (h : s.Inv) (w : Word) : WithinBounds (fsmAdvance w s) := by
  have hfsm := h.fsm
  simp only [fsmAdvance]
  split
  case h_1 => exact advanceDm_inv h w
  case h_2 c hc =>
    split
    · exact advanceDpcSentinel_inv h c
    · exact advanceDpcCount_inv h c
  case h_3 n hn =>
    rw [hn] at hfsm
    exact advanceWfm_inv h w hfsm
  case h_4 b hb =>
    rw [hb] at hfsm
    exact advanceRp_inv h w hfsm

/-! ### Device receive -/

/-- What is received takes the place of as many bytes of RX_BUF, at most all 64 (42_control_packets.md R170). -/
theorem rxTake_inv {s : State} (h : s.Inv) (bytes : List Byte) (rest : List ReadReply) :
    (rxTake bytes rest s).Inv := by
  obtain ⟨handed, o, he⟩ := rxTake_frame bytes rest s
  have hgot : (bytes.take pktCapacity).length ≤ pktCapacity := List.length_take_le _ _
  have hbuf : (bytes.take pktCapacity ++ s.rxBuf.drop (bytes.take pktCapacity).length).length = pktCapacity := by
    rw [List.length_append, List.length_drop, h.rxBuf]
    omega
  rw [he]
  exact { h with rxBuf := hbuf, rxLen := hgot }

theorem rxRun_inv {s : State} (h : s.Inv) (rs : List ReadReply) : (rxRun rs s).Inv := by
  induction rs generalizing s with
  | nil => exact { h with }
  | cons r rs ih =>
    cases r with
    | wouldBlock => exact ih (h.out _)
    | data bytes => exact rxTake_inv (h.out _) bytes rs

theorem pollRun_inv {s : State} (h : s.Inv) (ps : List PollReply) : (pollRun ps s).Inv := by
  induction ps generalizing s with
  | nil => exact { h with }
  | cons p ps ih =>
    match p with
    | .wouldBlock => exact ih (h.out _)
    | .ready false => exact { h with }
    | .ready true => exact rxRun_inv ((h.withUsbPolls ps).out _) s.usbReads

theorem rxContinue_inv {s : State} (h : s.Inv) : (rxContinue s).Inv := by
  cases hp : s.rxPhase with
  | idle => simpa only [rxContinue, hp] using h.fresh
  | polling => simpa only [rxContinue, hp] using pollRun_inv h.fresh s.usbPolls
  | reading => simpa only [rxContinue, hp] using rxRun_inv h.fresh s.usbReads

theorem execUsbRx_inv {s : State} (h : s.Inv) (x : RxInput) : WithinBounds (execUsbRx x s) := by
  have harrive : (rxArrive x s).Inv := by rw [rxArrive_frame]; exact { h with }
  cases hp : s.rxPhase with
  | idle => simpa only [execUsbRx, hp, withinBounds_next] using pollRun_inv harrive.fresh _
  | polling => simpa only [execUsbRx, hp, withinBounds_next] using h.hold
  | reading => simpa only [execUsbRx, hp, withinBounds_next] using h.hold

/-! ### Device transmit -/

/-- TX_SENT never passes TX_LEN, and the loop runs only below it (42_control_packets.md R171). -/
theorem txRun_inv {s : State} (h : s.Inv) (rs : List WriteReply) : (txRun rs s).Inv := by
  obtain ⟨hsent, hloop⟩ := txRun_sent rs s h.txSent
  obtain ⟨sent, loop, left, o, he⟩ := txRun_frame rs s
  rw [he] at hsent hloop ⊢
  have hle : sent ≤ s.txLen := hsent.trans_le (min_le_left _ _)
  exact { h with txSent := hle, txLoop := hloop.1 }

/-- A well-formed packet fills TX_BUF and has 1 to 64 bytes to send (42_control_packets.md R171). -/
theorem loadTx_inv {s : State} (h : s.Inv) {p : Response} (hp : p.wellFormed s.cfg = true)
    (hl : s.txLoop = false) : (loadTx p s).Inv := by
  have hlen := encResponse_length h.cfg hp
  have hloop : s.txLoop = true → 0 < (wireBytes s.cfg (encResponse s.cfg p)).length := by simp [hl]
  exact { h with
    txBuf := padPacket_length hlen.2
    txLen := wireBytes_length hlen
    txSent := Nat.zero_le _
    txLoop := hloop }

theorem startTx_inv {s : State} (h : s.Inv) (p : Response) : WithinBounds (startTx p s) := by
  cases hl : s.txLoop with
  | true => simpa [startTx, hl] using h.hold
  | false =>
    by_cases hp : p.wellFormed s.cfg = true
    · rw [startTx_eq hl hp]
      exact txRun_inv (loadTx_inv h.fresh hp hl) s.usbWrites
    · simp [startTx, hl, hp]

/-! ### Host transfers -/

theorem hostFail_inv {s : State} (h : s.Inv) (t : HostTransfer) (cause : HostErrorCause) :
    (hostFail t cause s).Inv := { h with hostPhase := trivial }

theorem hostHardError_inv {s : State} (h : s.Inv) (t : HostTransfer) (e : HardError) :
    (hostHardError t e s).Inv := hostFail_inv (h.out _) t (.hard e)

/-- An attempt is made while the budget is not used up, so counting it stays within (42_control_packets.md R173). -/
theorem hostFailedAttempt_inv {s : State} (h : s.Inv) (t : HostTransfer)
    (hb : s.hostAttempts < s.cfg.hostRetryBudget) : (hostFailedAttempt t s).Inv := { h with hostAttempts := hb }

/-- A host write that goes on has bytes left, whether it resumes or restarts (42_control_packets.md R173). -/
theorem hostWriteRun_inv {s : State} (h : s.Inv) {pkt : List Byte} (hpkt : pkt.length ≤ pktCapacity)
    (rs : List HostWriteReply) {sent : Nat} (hsent : sent < pkt.length) : (hostWriteRun pkt rs sent s).Inv := by
  induction rs generalizing sent s with
  | nil =>
    simp only [hostWriteRun]
    split
    · exact { h with hostPhase := ⟨hpkt, hsent⟩ }
    · exact hostFail_inv (h.withHostWrites _) _ _
  | cons r rs ih =>
    simp only [hostWriteRun]
    split
    case isFalse => exact hostFail_inv (h.withHostWrites _) _ _
    case isTrue hb =>
      have hfailed := hostFailedAttempt_inv h .write hb
      cases r with
      | wouldBlock => exact ih hfailed hsent
      | timeout => exact ih hfailed hsent
      | hardError e => exact hostHardError_inv (h.withHostWrites rs) .write e
      | accepted n =>
        dsimp only
        split
        · exact { h with hostPhase := trivial }
        · have hleft : (if Config.freeHostResumes s.draws then sent + n else 0) < pkt.length := by split <;> omega
          exact ih (hfailed.withDraws _) hleft

theorem hostDeliver_inv {s : State} (h : s.Inv) (bytes : List Byte) : (hostDeliver bytes s).Inv := by
  simp only [hostDeliver]
  split <;> exact h.out _

theorem hostReadRun_inv {s : State} (h : s.Inv) (rs : List HostReadReply) : (hostReadRun rs s).Inv := by
  induction rs generalizing s with
  | nil =>
    simp only [hostReadRun]
    split
    · exact { h with hostPhase := trivial }
    · exact hostFail_inv (h.withHostReads _) _ _
  | cons r rs ih =>
    simp only [hostReadRun]
    split
    case isFalse => exact hostFail_inv (h.withHostReads _) _ _
    case isTrue hb =>
      have hfailed := hostFailedAttempt_inv h .read hb
      cases r with
      | wouldBlock => exact ih hfailed
      | timeout => exact ih hfailed
      | short => exact ih hfailed
      | hardError e => exact hostHardError_inv (h.withHostReads rs) .read e
      | data bytes =>
        have hidle : { s with hostReads := rs, hostPhase := .idle }.Inv := { h with hostPhase := trivial }
        exact hostDeliver_inv (hidle.out _) bytes

theorem hostStart_inv {s : State} (h : s.Inv) : (hostStart s).Inv := { h with hostAttempts := Nat.zero_le _ }

theorem hostContinue_inv {s : State} (h : s.Inv) : (hostContinue s).Inv := by
  have hphase := h.hostPhase
  simp only [hostContinue]
  split
  case h_1 => exact h.fresh
  case h_2 pkt sent hp =>
    rw [hp] at hphase
    exact hostWriteRun_inv h.fresh hphase.1 s.hostWrites hphase.2
  case h_3 => exact hostReadRun_inv h.fresh s.hostReads

theorem execUsbHost_inv {s : State} (h : s.Inv) (op : HostOp) : WithinBounds (execUsbHost op s) := by
  simp only [execUsbHost]
  split
  case h_1 => exact h.hold
  case h_2 => exact h.hold
  case h_3 =>
    cases op with
    | rxh bytes => exact hostReadRun_inv (hostStart_inv h) _
    | rxhBlocked => exact hostReadRun_inv (hostStart_inv h) _
    | txh r =>
      dsimp only
      split
      case isFalse => trivial
      case isTrue hr =>
        have hwire := wireBytes_length (c := s.cfg) (encRequest_length h.cfg hr)
        exact hostWriteRun_inv (hostStart_inv h) hwire.2 _ hwire.1

/-! ### Operations -/

/-- BB.EMIT leaves STROBE at its idle level (40_bitbus.md R103). -/
theorem execBbEmit_inv {s : State} (h : s.Inv) (w : Word) : WithinBounds (execBbEmit w s) := { h with strobe := rfl }

/-- FSM.POP takes the head of FQ away or waits (41_frame.md R127). -/
theorem execFsmPop_inv {s : State} (h : s.Inv) : WithinBounds (execFsmPop s) := by
  simp only [execFsmPop]
  split
  case h_1 => exact h.hold
  case h_2 f rest hfq =>
    split
    · exact h.hold
    · have hdepth : rest.length ≤ queueDepth := by
        have := h.fqDepth
        rw [hfq, List.length_cons] at this
        omega
      have hframes : ∀ g ∈ rest, 1 ≤ g.length ∧ g.length ≤ s.cfg.maxParams := fun g hg =>
        h.fqFrames g (hfq ▸ List.mem_cons_of_mem f hg)
      have hpopped : { s with fq := rest }.Inv := { h with fqDepth := hdepth, fqFrames := hframes }
      exact startTx_inv hpopped (.params f)

theorem execReqGetVersion_inv {s : State} (h : s.Inv) : WithinBounds (execReqGetVersion s) := by
  simp only [execReqGetVersion]
  split
  · exact h.hold
  · exact startTx_inv (h.withDraws _) _

theorem execReqPing_inv {s : State} (h : s.Inv) (payload : Nibble) (version : Byte) :
    WithinBounds (execReqPing payload version s) := by
  simp only [execReqPing]
  split
  · exact h.hold
  · exact startTx_inv (h.withDraws _) _

theorem execPktEncode_inv {s : State} (h : s.Inv) (p : Packet) : WithinBounds (execPktEncode p s) := by
  simp only [execPktEncode]
  split
  · trivial
  · split
    · exact h.answer _
    · trivial

/-- A completed frame is pushed with its 1 to MAX_PARAMS words (10_state.md R30). -/
theorem execFsmEmit_inv {s : State} (h : s.Inv) {f : List Word} (hf : frameWellFormed s.cfg f = true) :
    WithinBounds (execFsmEmit f s) :=
  emitFrame_inv h.fresh (by simpa [frameWellFormed] using hf)

/-- An operation that gives the Frame State Machine a word keeps the bounds (41_frame.md R120). -/
theorem exec_inv_of_word {s : State} (h : s.Inv) {i : Instr} {w : Word} (hw : exec i s = fsmAdvance w s.fresh) :
    WithinBounds (exec i s) := by
  rw [hw]
  exact fsmAdvance_inv h.fresh w

/-- Every operation on operands within their bounds keeps the bounds of the state. -/
theorem exec_inv {s : State} {i : Instr} (h : s.Inv) (hi : i.wellFormed s.cfg = true) : WithinBounds (exec i s) := by
  cases i with
  | bbSample a b => exact fsmAdvance_inv h.fresh _
  | bbEmit w => exact execBbEmit_inv h w
  | fsmAdvanceDm w => exact exec_inv_of_word h (execFsmAdvanceDm_eq w s)
  | fsmAdvanceDpcCount w => exact exec_inv_of_word h (execFsmAdvanceDpcCount_eq w s)
  | fsmAdvanceDpcSentinel => exact exec_inv_of_word h (execFsmAdvanceDpcSentinel_eq s)
  | fsmAdvanceWfm w => exact exec_inv_of_word h (execFsmAdvanceWfm_eq w s)
  | fsmAdvanceRp w => exact exec_inv_of_word h (execFsmAdvanceRp_eq w s)
  | fsmEmit f => exact execFsmEmit_inv h hi
  | fsmPop => exact execFsmPop_inv h
  | reqGetVersion => exact execReqGetVersion_inv h
  | reqPing payload version => exact execReqPing_inv h payload version
  | pktEncode p => exact execPktEncode_inv h p
  | usbRx x => exact execUsbRx_inv h x
  | usbTx p => exact startTx_inv h p
  | usbHost op => exact execUsbHost_inv h op
  | bbDecode | bbEncode | reqSetParam | reqGetParam | reqLedOn | reqLedOff | reqEnableGenerator
  | reqDisableGenerator | rspVersion | rspPong | rspParams | rspError | pktUnknown | pktDecodeReq | pktDecodeRsp =>
    exact h.answer _

/-- Settles O55: over the moves a step can make, since what the decoder selects is well formed. -/
theorem stepKeepsBounds : Obligations.StepKeepsBounds := by
  intro s t h hstep
  obtain ⟨-, rfl⟩ | ⟨-, rfl⟩ | ⟨-, rfl⟩ | ⟨-, rfl⟩ | ⟨x, rest, -, htake⟩ := step_next hstep
  · exact hostContinue_inv h
  · exact rxContinue_inv h
  · exact txRun_inv h.fresh s.usbWrites
  · exact h.fresh
  · have hrest := h.withPending rest
    obtain ⟨k, rfl⟩ | ⟨i, hdecode, hexec⟩ := htake
    · exact hrest.answer (.usbInterrupt k)
    · exact (exec_inv hrest (decode_wellFormed h.cfg hdecode)).inv hexec

end Sys2Proof.Machine
end

section
/-! SUPPORT. What the two packet decoders answer, and that they read Pkt[0..len-1] alone: O26. -/

namespace Sys2Proof.Machine

/-- PKT.DECODE_REQ answers what the first len bytes decode to, and changes nothing (42_control_packets.md R150). -/
theorem exec_pktDecodeReq (pkt : List Byte) (len : Nat) (s : State) :
    exec (.pktDecodeReq pkt len) s =
      .next { s with outputs := [.decoded (decPacket s.cfg .request (pkt.take len))] } := rfl

/-- PKT.DECODE_RSP answers what the first len bytes decode to, and changes nothing (42_control_packets.md R151). -/
theorem exec_pktDecodeRsp (pkt : List Byte) (len : Nat) (s : State) :
    exec (.pktDecodeRsp pkt len) s =
      .next { s with outputs := [.decoded (decPacket s.cfg .response (pkt.take len))] } := rfl

/-- Settles O26: each decoder reads a prefix of len bytes, and that prefix leaves out what stands behind the packet. -/
theorem decodersOnlyAnswer : Obligations.DecodersOnlyAnswer := by
  intro pkt junk s
  have hprefix : (pkt ++ junk).take pkt.length = pkt := List.take_left
  constructor
  · rw [exec_pktDecodeReq, hprefix]
  · rw [exec_pktDecodeRsp, hprefix]

end Sys2Proof.Machine
end

section
/-! SUPPORT. No operation and no loop writes the configuration: O60. Each shared operation has a lemma of
Sys2Proof/Laws/Ops.lean that names the fields it can write, and cfg is none of them. -/

namespace Sys2Proof.Machine

/-! ### Shared operations and loops -/

theorem fsmAdvance_cfg {w : Word} {s t : State} (h : fsmAdvance w s = .next t) : t.cfg = s.cfg := by
  rw [fsmAdvance_frame h]

theorem startTx_cfg {p : Response} {s t : State} (h : startTx p s = .next t) : t.cfg = s.cfg := by
  rw [startTx_frame h]

@[simp] theorem emitFrame_cfg (f : List Word) (s : State) : (emitFrame f s).cfg = s.cfg := by
  rw [emitFrame_eq]

@[simp] theorem txContinue_cfg (s : State) : (txContinue s).cfg = s.cfg := by
  obtain ⟨sent, loop, left, o, he⟩ := txRun_frame s.usbWrites s.fresh
  rw [txContinue, he, State.fresh_cfg]

@[simp] theorem rxContinue_cfg (s : State) : (rxContinue s).cfg = s.cfg := by
  obtain ⟨handed, he⟩ := rxContinue_frame s
  rw [he]

@[simp] theorem hostWriteRun_cfg (pkt : List Byte) (rs : List HostWriteReply) (sent : Nat) (s : State) :
    (hostWriteRun pkt rs sent s).cfg = s.cfg := by
  obtain ⟨a, ph, left, o, d, he⟩ := hostWriteRun_frame pkt rs sent s
  rw [he]

@[simp] theorem hostReadRun_cfg (rs : List HostReadReply) (s : State) : (hostReadRun rs s).cfg = s.cfg := by
  obtain ⟨a, ph, left, o, he⟩ := hostReadRun_frame rs s
  rw [he]

@[simp] theorem hostContinue_cfg (s : State) : (hostContinue s).cfg = s.cfg := by
  obtain ⟨a, ph, ws, rs, o, d, he⟩ := hostContinue_frame s
  rw [he]

/-! ### Operations -/

theorem execFsmPop_cfg {s t : State} (h : execFsmPop s = .next t) : t.cfg = s.cfg := by
  simp only [execFsmPop] at h
  split at h
  case h_1 => cases h; rfl
  case h_2 f rest hfq =>
    split at h
    · cases h; rfl
    · exact startTx_cfg (s := { s with fq := rest }) h

theorem execReqGetVersion_cfg {s t : State} (h : execReqGetVersion s = .next t) : t.cfg = s.cfg := by
  simp only [execReqGetVersion] at h
  split at h
  · cases h; rfl
  · exact startTx_cfg (s := { s with draws := s.draws + 1 }) h

theorem execReqPing_cfg {payload : Nibble} {version : Byte} {s t : State}
    (h : execReqPing payload version s = .next t) : t.cfg = s.cfg := by
  simp only [execReqPing] at h
  split at h
  · cases h; rfl
  · exact startTx_cfg (s := { s with draws := s.draws + 1 }) h

theorem execPktEncode_cfg {p : Packet} {s t : State} (h : execPktEncode p s = .next t) : t.cfg = s.cfg := by
  simp only [execPktEncode] at h
  split at h
  · cases h
  · split at h
    · cases h; rfl
    · cases h

theorem execUsbRx_cfg {x : RxInput} {s t : State} (h : execUsbRx x s = .next t) : t.cfg = s.cfg := by
  obtain ⟨handed, he⟩ := execUsbRx_frame h
  rw [he]

theorem execUsbHost_cfg {op : HostOp} {s t : State} (h : execUsbHost op s = .next t) : t.cfg = s.cfg := by
  simp only [execUsbHost] at h
  split at h
  case h_1 => cases h; rfl
  case h_2 => cases h; rfl
  case h_3 =>
    cases op with
    | rxh bytes => cases h; exact hostReadRun_cfg _ _
    | rxhBlocked => cases h; exact hostReadRun_cfg _ _
    | txh r =>
      dsimp only at h
      split at h
      · cases h; exact hostWriteRun_cfg _ _ _ _
      · cases h

/-- An operation that gives the Frame State Machine a word leaves the configuration (41_frame.md R120). -/
theorem exec_cfg_of_word {i : Instr} {w : Word} {s t : State} (h : exec i s = .next t)
    (hw : exec i s = fsmAdvance w s.fresh) : t.cfg = s.cfg :=
  fsmAdvance_cfg (s := s.fresh) (hw.symm.trans h)

/-- Every operation leaves the configuration, whatever its operands and the state it starts in. -/
theorem exec_cfg {i : Instr} {s t : State} (h : exec i s = .next t) : t.cfg = s.cfg := by
  cases i with
  | bbSample a b => exact exec_cfg_of_word (w := bbDecode s.cfg.bitMap a b) h rfl
  | fsmAdvanceDm w => exact exec_cfg_of_word h (execFsmAdvanceDm_eq w s)
  | fsmAdvanceDpcCount w => exact exec_cfg_of_word h (execFsmAdvanceDpcCount_eq w s)
  | fsmAdvanceDpcSentinel => exact exec_cfg_of_word h (execFsmAdvanceDpcSentinel_eq s)
  | fsmAdvanceWfm w => exact exec_cfg_of_word h (execFsmAdvanceWfm_eq w s)
  | fsmAdvanceRp w => exact exec_cfg_of_word h (execFsmAdvanceRp_eq w s)
  | fsmEmit f => cases h; exact emitFrame_cfg f s.fresh
  | fsmPop => exact execFsmPop_cfg h
  | reqGetVersion => exact execReqGetVersion_cfg h
  | reqPing payload version => exact execReqPing_cfg (payload := payload) (version := version) h
  | pktEncode p => exact execPktEncode_cfg h
  | usbRx x => exact execUsbRx_cfg h
  | usbTx p => exact startTx_cfg h
  | usbHost op => exact execUsbHost_cfg h
  | bbDecode | bbEncode | bbEmit | reqSetParam | reqGetParam | reqLedOn | reqLedOff | reqEnableGenerator
  | reqDisableGenerator | rspVersion | rspPong | rspParams | rspError | pktUnknown | pktDecodeReq | pktDecodeRsp =>
    cases h; rfl

/-- Settles O60: over the moves a step can make; taking a stimulus from the pending ones leaves cfg too. -/
theorem configurationIsFixed : Obligations.ConfigurationIsFixed := by
  intro s t hstep
  obtain ⟨-, rfl⟩ | ⟨-, rfl⟩ | ⟨-, rfl⟩ | ⟨-, rfl⟩ | ⟨x, rest, -, htake⟩ := step_next hstep
  · exact hostContinue_cfg s
  · exact rxContinue_cfg s
  · exact txContinue_cfg s
  · exact State.fresh_cfg s
  · obtain ⟨k, rfl⟩ | ⟨i, -, hexec⟩ := htake
    · exact State.answer_cfg _ (.usbInterrupt k)
    · exact exec_cfg (s := { s with pending := rest }) hexec

end Sys2Proof.Machine
end

section
/-! SUPPORT. The four operations of the BitBus Codec, over its bit-by-bit laws (40_bitbus.md R100 to R104): O1, O2,
O3, O7, O8. -/

namespace Sys2Proof.Machine

/-! ### What each operation ends in -/

/-- BB.DECODE answers the decoded word, and changes nothing (40_bitbus.md R100). -/
theorem exec_bbDecode (a b : Word) (s : State) :
    exec (.bbDecode a b) s = .next { s with outputs := [.word (bbDecode s.cfg.bitMap a b)] } := rfl

/-- BB.ENCODE answers the encoded pair, and changes nothing (40_bitbus.md R101). -/
theorem exec_bbEncode (w : Word) (s : State) :
    exec (.bbEncode w) s = .next { s with
      outputs := [.ports (bbEncodePort s.cfg.bitMap .A w) (bbEncodePort s.cfg.bitMap .B w)] } := rfl

/-- BB.SAMPLE gives the decoded word to FSM.ADVANCE (40_bitbus.md R102). -/
theorem exec_bbSample (a b : Word) (s : State) :
    exec (.bbSample a b) s = fsmAdvance (bbDecode s.cfg.bitMap a b) s.fresh := rfl

/-- BB.EMIT writes the encoded pair and ends its strobe pulse at the idle level (40_bitbus.md R103). -/
theorem exec_bbEmit (w : Word) (s : State) :
    exec (.bbEmit w) s = .next { s with
      paOut := (bbEncode s.cfg.bitMap w).1
      pbOut := (bbEncode s.cfg.bitMap w).2
      strobe := !s.cfg.strobeActive
      draws := s.draws + 1
      outputs := portWrites s.cfg.bitMap s.draws w ++
        [.strobe s.cfg.strobeActive, .strobe !s.cfg.strobeActive] } := rfl

/-! ### Encode, read back -/

/-- The value of a port of the encoded pair. -/
theorem portOf_bbEncode (m : BitMap) (p : Port) (w : Word) :
    portOf p (bbEncode m w).1 (bbEncode m w).2 = bbEncodePort m p w := by
  cases p <;> rfl

/-- Where no two logical bits share a position, the bit at MAP(i) is logical bit i alone (30_encoding.md R71, K1). -/
theorem bbEncodePort_getLsbD_mapped {m : BitMap} (hm : m.Injective) (w : Word) (i : Fin 16) :
    (bbEncodePort m m[i].port w).getLsbD m[i].bit.val = w.getLsbD i.val := by
  rw [Bool.eq_iff_iff, bbEncodePort_getLsbD]
  constructor
  · rintro ⟨j, hj, hw⟩
    obtain rfl := hm j i hj
    exact hw
  · exact fun hw => ⟨i, rfl, hw⟩

/-! ### The pins -/

/-- The encoded value of a port is 0 outside its mapped positions (30_encoding.md R73). -/
theorem bbEncodePort_and_portMask (m : BitMap) (p : Port) (w : Word) :
    bbEncodePort m p w &&& portMask m p = bbEncodePort m p w := by
  refine word_ext fun k => ?_
  rw [BitVec.getLsbD_and, Bool.and_eq_left_iff_imp, bbEncodePort_getLsbD, portMask_getLsbD]
  exact fun ⟨i, hi, _⟩ => ⟨i, hi⟩

/-- Whatever the unmapped pins do, the mapped ones carry the value written (30_encoding.md R74). -/
theorem pinsOf_and_portMask (m : BitMap) (d : Nat) (p : Port) (v : Word) :
    pinsOf m d p v &&& portMask m p = v &&& portMask m p := by
  refine word_ext fun k => ?_
  simp only [pinsOf, BitVec.getLsbD_and, BitVec.getLsbD_or, BitVec.getLsbD_not]
  cases (portMask m p).getLsbD k.val <;> simp

/-- The two port writes stand in one of the two orders (20_memory.md R60). -/
theorem portWrites_mem (m : BitMap) (d : Nat) (w : Word) :
    portWrites m d w ∈
      [[.portWrite .A (pinsOf m d .A (bbEncode m w).1), .portWrite .B (pinsOf m d .B (bbEncode m w).2)],
        [.portWrite .B (pinsOf m d .B (bbEncode m w).2), .portWrite .A (pinsOf m d .A (bbEncode m w).1)]] := by
  simp only [portWrites]
  split <;> simp

/-! ### The obligations -/

/-- Settles O1: the output is the decoded word, whose bits `bbDecode_getLsbD` gives. -/
theorem bbDecodeReadsMappedBits : Obligations.BbDecodeReadsMappedBits := fun a b s =>
  ⟨bbDecode s.cfg.bitMap a b, exec_bbDecode a b s, bbDecode_getLsbD s.cfg.bitMap a b⟩

/-- Settles O2: the output is the encoded pair, whose bits `bbEncodePort_getLsbD` gives for each port. -/
theorem bbEncodePlacesLogicalBits : Obligations.BbEncodePlacesLogicalBits := fun w s =>
  ⟨bbEncodePort s.cfg.bitMap .A w, bbEncodePort s.cfg.bitMap .B w, exec_bbEncode w s,
    bbEncodePort_getLsbD s.cfg.bitMap .A w, bbEncodePort_getLsbD s.cfg.bitMap .B w⟩

/-- Settles O3: decoding reads bit i at MAP(i), where encoding put it; of the constraints on a map, K1 is used. -/
theorem bbDecodeOfEncodeIsIdentity : Obligations.BbDecodeOfEncodeIsIdentity := by
  intro m w ⟨hinj, _, _⟩
  refine word_ext fun i => ?_
  rw [bbDecode_getLsbD, portOf_bbEncode, bbEncodePort_getLsbD_mapped hinj]

/-- Settles O7: the sample and the row its word selects are one run of FSM.ADVANCE, which a state within its bounds
completes. -/
theorem sampleAdvancesOnDecodedWord : Obligations.SampleAdvancesOnDecodedWord := by
  intro a b s hs
  obtain ⟨t, ht⟩ := fsmAdvance_next (bbDecode s.cfg.bitMap a b) hs.fresh.fsm
  refine ⟨instrOfWord s.fsm.tag (bbDecode s.cfg.bitMap a b), t, rfl, ?_, ?_, ?_⟩
  · rw [exec_bbSample, ht]
  · rw [exec_instrOfWord, ht]
  · exact fsmAdvance_frame (s := s.fresh) ht

/-- Settles O8: both writes stand before the pulse, and masking the pins leaves the encoded value. -/
theorem emitWritesPortsThenStrobes : Obligations.EmitWritesPortsThenStrobes := by
  intro w s
  have hpins (p : Port) :
      pinsOf s.cfg.bitMap s.draws p (bbEncodePort s.cfg.bitMap p w) &&& portMask s.cfg.bitMap p =
        bbEncodePort s.cfg.bitMap p w := by
    rw [pinsOf_and_portMask, bbEncodePort_and_portMask]
  exact ⟨_, _, portWrites s.cfg.bitMap s.draws w, portWrites_mem s.cfg.bitMap s.draws w, hpins .A, hpins .B,
    exec_bbEmit w s⟩

end Sys2Proof.Machine
end

section
/-! SUPPORT. The rows of FSM.ADVANCE, each in the sequencing state that selects it, and FSM.EMIT (41_frame.md R121 to
R126): O9, O10, O11, O12, O13, O14. -/

namespace Sys2Proof.Machine

/-! ### What each row does in its own sequencing state -/

theorem exec_fsmAdvanceDm {s : State} (w : Word) (h : s.fsm = .detectMarker) :
    exec (.fsmAdvanceDm w) s = .next (advanceDm w s.fresh) := by
  simp [exec, execFsmAdvanceDm, h]

theorem exec_fsmAdvanceDpcCount {s : State} {w : Word} {c : Nat} (hw : w ≠ sentinel)
    (h : s.fsm = .detectParamsCount c) : exec (.fsmAdvanceDpcCount w) s = .next (advanceDpcCount c s.fresh) := by
  simp [exec, execFsmAdvanceDpcCount, h, hw]

theorem exec_fsmAdvanceDpcSentinel {s : State} {c : Nat} (h : s.fsm = .detectParamsCount c) :
    exec .fsmAdvanceDpcSentinel s = .next (advanceDpcSentinel c s.fresh) := by
  simp [exec, execFsmAdvanceDpcSentinel, h]

theorem exec_fsmAdvanceWfm {s : State} {n : Nat} (w : Word) (h : s.fsm = .waitForMarker n) :
    exec (.fsmAdvanceWfm w) s = .next (advanceWfm n w s.fresh) := by
  simp [exec, execFsmAdvanceWfm, h]

theorem exec_fsmAdvanceRp {s : State} {b : ParamsBuffer} (w : Word) (h : s.fsm = .readParams b) :
    exec (.fsmAdvanceRp w) s = advanceRp b w s.fresh := by
  simp [exec, execFsmAdvanceRp, h]

theorem exec_fsmEmit (f : List Word) (s : State) : exec (.fsmEmit f) s = .next (emitFrame f s.fresh) := rfl

/-- The bounds of `ReadParams` put the cursor before the end of the frame, and the frame within DATA, which has
MAX_PARAMS entries (10_state.md R26). -/
theorem cursor_lt_of_inRange {b : ParamsBuffer} {m : Nat} (h : (ProtocolState.readParams b).inRange m) :
    b.cursor < b.expected ∧ b.expected ≤ b.data.length := by
  obtain ⟨-, hexpected, hcursor, hdata⟩ := h
  exact ⟨hcursor, hdata ▸ hexpected⟩

/-! ### FSM.EMIT with and without room -/

theorem emitFrame_of_lt {s : State} (f : List Word) (h : s.fq.length < queueDepth) :
    emitFrame f s = { s with fq := s.fq ++ [f] }.out (.frameSent f) := if_pos h

theorem emitFrame_of_le {s : State} (f : List Word) (h : queueDepth ≤ s.fq.length) :
    emitFrame f s = s.out (.frameDropped f) := if_neg (Nat.not_lt.mpr h)

/-! ### The obligations -/

/-- Settles O9: `advanceDm` writes the ProtocolState alone. -/
theorem detectMarkerAdvance : Obligations.DetectMarkerAdvance := by
  intro w s h
  rw [exec_fsmAdvanceDm w h, advanceDm_eq]
  rfl

/-- Settles O10: a word other than the sentinel takes the counting row. -/
theorem countingSaturates : Obligations.CountingSaturates := fun _ _ _ hw h =>
  exec_fsmAdvanceDpcCount hw h

/-- Settles O11: `advanceDpcSentinel_eq` gives the three ends of a count, and DATA where the last one opens it. -/
theorem sentinelEndsCounting : Obligations.SentinelEndsCounting := by
  intro c s h
  obtain ⟨data, d, hlength, hnext⟩ := advanceDpcSentinel_eq c s.fresh
  refine ⟨data, d, hlength, ?_⟩
  rw [exec_fsmAdvanceDpcSentinel h, hnext]
  rfl

/-- Settles O12: `advanceWfm_eq` gives the sentinel's branch and the two policies. -/
theorem waitForMarkerAdvance : Obligations.WaitForMarkerAdvance := by
  intro w n s h
  obtain ⟨data, d, hlength, hnext⟩ := advanceWfm_eq n w s.fresh
  refine ⟨data, d, hlength, ?_⟩
  rw [exec_fsmAdvanceWfm w h, hnext]
  rfl

/-- Settles O13: within its bounds the word is stored without a fault; at the last word the stored entries are the
frame that `emitFrame` sends or drops. -/
theorem readParamsStoresAndEmits : Obligations.ReadParamsStoresAndEmits := by
  intro w b s h hrange
  have hbounds := cursor_lt_of_inRange (h ▸ hrange)
  rw [exec_fsmAdvanceRp w h, advanceRp_eq w s.fresh hbounds]
  constructor
  · intro hmore
    rw [if_neg hmore]
    rfl
  · intro hlast
    rw [if_pos hlast, emitFrame_eq]
    rfl

/-- Settles O14: the two branches of `emitFrame`, on either side of QUEUE_DEPTH. -/
theorem emitPushesOrDrops : Obligations.EmitPushesOrDrops := by
  intro f s
  rw [exec_fsmEmit]
  constructor
  · intro hroom
    rw [emitFrame_of_lt (s := s.fresh) f hroom]
    rfl
  · intro hfull
    rw [emitFrame_of_le (s := s.fresh) f hfull]
    rfl

end Sys2Proof.Machine
end

section
/-! SUPPORT. The layout of each packet, on encode and on decode (42_control_packets.md R153 to R164): O29, O30, O31, O32,
O33. -/

namespace Sys2Proof

/-! ### The fields of a packet in the spec's shifts and masks (30_encoding.md R80, 20_memory.md R52) -/

/-- Concatenation as the spec writes it: the high part shifted above the low one. -/
theorem append_eq_or_shiftLeft {v w : Nat} (hi : BitVec v) (lo : BitVec w) :
    hi ++ lo = lo.zeroExtend (v + w) ||| (hi.zeroExtend (v + w) <<< w) := by
  rw [BitVec.append_def, BitVec.shiftLeftZeroExtend_eq, BitVec.setWidth'_eq, BitVec.or_comm]

theorem headByte_eq_or (n op : Nibble) : headByte n op = op.zeroExtend 8 ||| (n.zeroExtend 8 <<< 4) :=
  append_eq_or_shiftLeft n op

theorem headByte_zero (op : Nibble) : headByte 0#4 op = op.zeroExtend 8 := by
  rw [headByte_eq_or, BitVec.zeroExtend, BitVec.setWidth_zero, BitVec.zero_shiftLeft, BitVec.or_zero]

theorem lowNibble_eq_truncate (b : Byte) : lowNibble b = b.truncate 4 := rfl

/-- As a rewrite from right to left it comes before `lowNibble_eq_truncate`, which matches any truncation to a nibble. -/
theorem highNibble_eq_truncate (b : Byte) : highNibble b = (b >>> 4).truncate 4 := rfl

theorem lowByte_eq_truncate (w : Word) : lowByte w = w.truncate 8 := rfl

theorem highByte_eq_truncate (w : Word) : highByte w = (w >>> 8).truncate 8 := rfl

theorem wordOfBytes_eq_or (lo hi : Byte) : wordOfBytes lo hi = lo.zeroExtend 16 ||| (hi.zeroExtend 16 <<< 8) :=
  append_eq_or_shiftLeft hi lo

/-- The opcode of a byte read with the mask of its low bits. -/
theorem lowNibble_of_and {b : Byte} {op : Nibble} (h : b &&& 0x0F#8 = op.zeroExtend 8) : lowNibble b = op := by
  have hmask : lowNibble (b &&& 0x0F#8) = lowNibble b := by
    rw [lowNibble, BitVec.extractLsb'_and]
    exact BitVec.and_allOnes
  rw [← hmask, h, ← headByte_zero, lowNibble_headByte]

/-! ### The payload of Params (42_control_packets.md R163) -/

/-- Value k of an encoded payload stands little-endian at 2k. -/
theorem bytesOfWords_getElem? {ws : List Word} {k : Nat} {w : Word} (h : ws[k]? = some w) :
    (bytesOfWords ws)[2 * k]? = some (lowByte w) ∧ (bytesOfWords ws)[2 * k + 1]? = some (highByte w) := by
  induction ws generalizing k with
  | nil => cases h
  | cons v vs ih =>
    cases k with
    | zero => cases h; exact ⟨rfl, rfl⟩
    | succ k => exact ih h

/-- A payload with two bytes for each of its values decodes. -/
theorem wordsOfBytes_of_le {n : Nat} {bs : List Byte} (h : 2 * n ≤ bs.length) : ∃ ws, wordsOfBytes n bs = some ws := by
  induction n generalizing bs with
  | zero => exact ⟨[], rfl⟩
  | succ n ih =>
    match bs, h with
    | lo :: hi :: rest, h =>
      obtain ⟨ws, hws⟩ := ih (bs := rest) (by simp only [List.length_cons] at h; omega)
      exact ⟨wordOfBytes lo hi :: ws, by rw [wordsOfBytes, hws]; rfl⟩

/-- A payload that lacks value bytes does not decode. -/
theorem wordsOfBytes_of_lt {n : Nat} {bs : List Byte} (h : bs.length < 2 * n) : wordsOfBytes n bs = none :=
  Option.eq_none_iff_forall_not_mem.mpr fun _ hws => absurd (wordsOfBytes_some hws).2 (Nat.not_le.mpr h)

/-- Value k of a decoded payload is read little-endian at 2k. -/
theorem wordsOfBytes_getElem? {n k : Nat} {bs : List Byte} {ws : List Word} {lo hi : Byte}
    (h : wordsOfBytes n bs = some ws) (hk : k < n) (hlo : bs[2 * k]? = some lo) (hhi : bs[2 * k + 1]? = some hi) :
    ws[k]? = some (wordOfBytes lo hi) := by
  induction n generalizing k bs ws with
  | zero => cases hk
  | succ n ih =>
    match bs, h with
    | b0 :: b1 :: rest, h =>
      obtain ⟨vs, hvs, rfl⟩ := Option.map_eq_some_iff.mp h
      cases k with
      | zero => cases hlo; cases hhi; rfl
      | succ k => exact List.getElem?_cons_succ.trans (ih hvs (Nat.lt_of_succ_lt_succ hk) hlo hhi)

/-- A count above 31, or more values than the packet holds, is Unknown. -/
theorem decParams_of_bad_count (b0 : Byte) {n : Byte} {rest : List Byte}
    (h : 31 < n.toNat ∨ rest.length < 2 * n.toNat) : decParams (b0 :: n :: rest) = none := by
  obtain hn | hrest := h
  · exact if_neg (Nat.not_le.mpr hn)
  · rw [decParams, wordsOfBytes_of_lt hrest, Option.map_none, ite_self]

theorem decParams_of_words (b0 : Byte) {n : Byte} {rest : List Byte} {ws : List Word} (hn : n.toNat ≤ 31)
    (h : wordsOfBytes n.toNat rest = some ws) : decParams (b0 :: n :: rest) = some (.params ws) :=
  (if_pos hn).trans (congrArg _ h)

/-! ### Opaque packets (42_control_packets.md R159 to R161, R164) -/

theorem decOpaque_map_cons {α : Type} (f : Nibble → List Byte → α) (l : Nat) (b0 : Byte) (body : List Byte) :
    (decOpaque l (b0 :: body)).map (fun e => f e.1 e.2) =
      if body.length + 1 < l then none else some (f (highNibble b0) (body.take (l - 1))) := by
  rw [decOpaque, List.length_cons]
  split <;> rfl

/-! ### The row of the opcode table an opcode selects (42_control_packets.md R150, R151): the opcodes a configuration
chooses are distinct from each other and from the fixed ones (30_encoding.md R83) -/

section DecodeRows

variable {c : Config} {b0 : Byte} (rest : List Byte)

theorem decRequest_of_opVersion (h : lowNibble b0 = opVersion) : decRequest c (b0 :: rest) = some .getVersion :=
  if_pos h

theorem decRequest_of_opPing (h : lowNibble b0 = opPing) :
    decRequest c (b0 :: rest) = (decEcho (b0 :: rest)).map fun e => .ping e.1 e.2 := by
  simp [decRequest, h, opVersion, opPing]

theorem decRequest_of_opSetParam (h : lowNibble b0 = opSetParam) :
    decRequest c (b0 :: rest) = decSetParam (b0 :: rest) := by
  simp [decRequest, h, opVersion, opPing, opSetParam]

theorem decRequest_of_opGetParam (h : lowNibble b0 = opGetParam) :
    decRequest c (b0 :: rest) = some (.getParam (highNibble b0)) := by
  simp [decRequest, h, opVersion, opPing, opSetParam, opGetParam]

/-- An opcode the configuration chooses is past the four fixed rows of the request table. -/
theorem decRequest_of_chosen (hc : c.requestOpcodes.Nodup)
    (h : lowNibble b0 ∈ [c.opLedOn, c.opLedOff, c.opEnableGenerator, c.opDisableGenerator]) :
    decRequest c (b0 :: rest) =
      if lowNibble b0 = c.opLedOn then some .ledOn
      else if lowNibble b0 = c.opLedOff then some .ledOff
      else if lowNibble b0 = c.opEnableGenerator then
        (decOpaque c.lenEnableGenerator (b0 :: rest)).map fun e => .enableGenerator e.1 e.2
      else if lowNibble b0 = c.opDisableGenerator then
        (decOpaque c.lenDisableGenerator (b0 :: rest)).map fun e => .disableGenerator e.1 e.2
      else none := by
  have hfixed : lowNibble b0 ∉ [opVersion, opPing, opSetParam, opGetParam] := fun hmem =>
    List.disjoint_of_nodup_append (l₁ := [opVersion, opPing, opSetParam, opGetParam]) hc hmem h
  simp only [List.mem_cons, List.not_mem_nil, or_false, not_or] at hfixed
  obtain ⟨hversion, hping, hset, hget⟩ := hfixed
  rw [decRequest, if_neg hversion, if_neg hping, if_neg hset, if_neg hget]

/-- Each opcode the configuration chooses is none of those the request table tests before it. -/
theorem chosenRequestOpcodes_distinct (hc : c.requestOpcodes.Nodup) :
    c.opLedOff ≠ c.opLedOn ∧
    (c.opEnableGenerator ≠ c.opLedOn ∧ c.opEnableGenerator ≠ c.opLedOff) ∧
    (c.opDisableGenerator ≠ c.opLedOn ∧ c.opDisableGenerator ≠ c.opLedOff ∧
      c.opDisableGenerator ≠ c.opEnableGenerator) := by
  have hchosen : [c.opLedOn, c.opLedOff, c.opEnableGenerator, c.opDisableGenerator].Nodup :=
    hc.of_append_right (l₁ := [opVersion, opPing, opSetParam, opGetParam])
  simp only [List.nodup_cons, List.mem_cons, List.not_mem_nil, or_false, not_or] at hchosen
  obtain ⟨⟨honOff, honEnable, honDisable⟩, ⟨hoffEnable, hoffDisable⟩, henableDisable, -⟩ := hchosen
  exact ⟨Ne.symm honOff, ⟨Ne.symm honEnable, Ne.symm hoffEnable⟩,
    Ne.symm honDisable, Ne.symm hoffDisable, Ne.symm henableDisable⟩

theorem decRequest_of_opLedOn (hc : c.requestOpcodes.Nodup) (h : lowNibble b0 = c.opLedOn) :
    decRequest c (b0 :: rest) = some .ledOn := by
  rw [decRequest_of_chosen rest hc (by simp [h]), if_pos h]

theorem decRequest_of_opLedOff (hc : c.requestOpcodes.Nodup) (h : lowNibble b0 = c.opLedOff) :
    decRequest c (b0 :: rest) = some .ledOff := by
  obtain ⟨hon, -⟩ := chosenRequestOpcodes_distinct hc
  rw [decRequest_of_chosen rest hc (by simp [h]), h, if_neg hon, if_pos rfl]

theorem decRequest_of_opEnableGenerator (hc : c.requestOpcodes.Nodup) (h : lowNibble b0 = c.opEnableGenerator) :
    decRequest c (b0 :: rest) =
      (decOpaque c.lenEnableGenerator (b0 :: rest)).map fun e => .enableGenerator e.1 e.2 := by
  obtain ⟨-, ⟨hon, hoff⟩, -⟩ := chosenRequestOpcodes_distinct hc
  rw [decRequest_of_chosen rest hc (by simp [h]), h, if_neg hon, if_neg hoff, if_pos rfl]

theorem decRequest_of_opDisableGenerator (hc : c.requestOpcodes.Nodup) (h : lowNibble b0 = c.opDisableGenerator) :
    decRequest c (b0 :: rest) =
      (decOpaque c.lenDisableGenerator (b0 :: rest)).map fun e => .disableGenerator e.1 e.2 := by
  obtain ⟨-, -, hon, hoff, henable⟩ := chosenRequestOpcodes_distinct hc
  rw [decRequest_of_chosen rest hc (by simp [h]), h, if_neg hon, if_neg hoff, if_neg henable,
    if_pos rfl]

theorem decResponse_of_opVersion (h : lowNibble b0 = opVersion) :
    decResponse c (b0 :: rest) = (decOpaque c.lenVersion (b0 :: rest)).map fun e => .version e.1 e.2 :=
  if_pos h

theorem decResponse_of_opPing (h : lowNibble b0 = opPing) :
    decResponse c (b0 :: rest) = (decEcho (b0 :: rest)).map fun e => .pong e.1 e.2 := by
  simp [decResponse, h, opVersion, opPing]

/-- An opcode the configuration chooses is past the two fixed rows of the response table. -/
theorem decResponse_of_chosen (hc : c.responseOpcodes.Nodup) (h : lowNibble b0 ∈ [c.opParams, c.opError]) :
    decResponse c (b0 :: rest) =
      if lowNibble b0 = c.opParams then decParams (b0 :: rest)
      else if lowNibble b0 = c.opError then (decOpaque c.lenError (b0 :: rest)).map fun e => .error e.1 e.2
      else none := by
  have hfixed : lowNibble b0 ∉ [opVersion, opPing] := fun hmem =>
    List.disjoint_of_nodup_append (l₁ := [opVersion, opPing]) hc hmem h
  simp only [List.mem_cons, List.not_mem_nil, or_false, not_or] at hfixed
  obtain ⟨hversion, hping⟩ := hfixed
  rw [decResponse, if_neg hversion, if_neg hping]

theorem decResponse_of_opParams (hc : c.responseOpcodes.Nodup) (h : lowNibble b0 = c.opParams) :
    decResponse c (b0 :: rest) = decParams (b0 :: rest) := by
  rw [decResponse_of_chosen rest hc (by simp [h]), if_pos h]

theorem decResponse_of_opError (hc : c.responseOpcodes.Nodup) (h : lowNibble b0 = c.opError) :
    decResponse c (b0 :: rest) = (decOpaque c.lenError (b0 :: rest)).map fun e => .error e.1 e.2 := by
  have hchosen : [c.opParams, c.opError].Nodup := hc.of_append_right (l₁ := [opVersion, opPing])
  have hne : c.opParams ≠ c.opError := by simpa using hchosen
  rw [decResponse_of_chosen rest hc (by simp [h]), h, if_neg hne.symm, if_pos rfl]

end DecodeRows

/-! ### The obligations -/

/-- Settles O29: each opcode selects its row, which reads byte 0 alone. -/
theorem oneByteRequestLayout : Obligations.OneByteRequestLayout := by
  intro c ⟨_, _, ⟨hnodup, _⟩, _⟩
  simp only [← highNibble_eq_truncate]
  simp only [← lowNibble_eq_truncate]
  refine ⟨rfl, fun index => ?_, ?_, ?_, fun b0 rest => ⟨fun h => ?_, fun h => ?_, fun h => ?_, fun h => ?_⟩⟩
  · exact congrArg ([·]) (headByte_eq_or index opGetParam)
  · exact congrArg ([·]) (headByte_zero c.opLedOn)
  · exact congrArg ([·]) (headByte_zero c.opLedOff)
  · exact decRequest_of_opVersion rest (lowNibble_of_and h)
  · exact decRequest_of_opGetParam rest (lowNibble_of_and h)
  · exact decRequest_of_opLedOn rest hnodup h
  · exact decRequest_of_opLedOff rest hnodup h

/-- Settles O30: byte 0 carries the index over the opcode, bytes 1 and 2 the halves of the value. -/
theorem setParamLayout : Obligations.SetParamLayout := by
  intro c index value
  refine ⟨?_, fun b0 b1 b2 rest h => ?_⟩
  · rw [encRequest, headByte_eq_or, lowByte_eq_truncate, highByte_eq_truncate]
    rfl
  · have hop : lowNibble b0 = opSetParam := lowNibble_of_and h
    refine ⟨decRequest_of_opSetParam [] hop, decRequest_of_opSetParam [b1] hop, ?_⟩
    rw [decRequest_of_opSetParam _ hop, decSetParam, highNibble_eq_truncate, wordOfBytes_eq_or]

/-- Settles O31: both directions have the row of opcode 2, and it reads the same two fields. -/
theorem pingAndPongLayout : Obligations.PingAndPongLayout := by
  intro c payload version
  simp only [← highNibble_eq_truncate]
  refine ⟨?_, ?_, fun b0 b1 rest h => ?_⟩
  · exact congrArg ([·, version]) (headByte_eq_or payload opPing)
  · exact congrArg ([·, version]) (headByte_eq_or payload opPing)
  · have hop : lowNibble b0 = opPing := lowNibble_of_and h
    exact ⟨decRequest_of_opPing [] hop, decResponse_of_opPing [] hop, decRequest_of_opPing (b1 :: rest) hop,
      decResponse_of_opPing (b1 :: rest) hop⟩

/-- Settles O32: the payload laws place value k at 2k behind the opcode and n, on encode and on decode. -/
theorem paramsLayout : Obligations.ParamsLayout := by
  intro c vs ⟨_, _, ⟨_, _, hnodup, _⟩, _⟩ _
  simp only [← highByte_eq_truncate]
  simp only [← lowByte_eq_truncate, ← lowNibble_eq_truncate, ← wordOfBytes_eq_or]
  refine ⟨?_, ?_, rfl, fun k v hv => ?_, fun b0 n rest hop => ⟨?_, fun hbad => ?_, fun hn hrest => ?_⟩⟩
  · simp only [encResponse, List.length_cons, bytesOfWords_length]
    omega
  · exact congrArg some (headByte_zero c.opParams)
  · obtain ⟨hlow, hhigh⟩ := bytesOfWords_getElem? hv
    rw [Nat.add_comm 2, show 3 + 2 * k = 2 * k + 1 + 2 by omega]
    exact ⟨hlow, hhigh⟩
  · exact decResponse_of_opParams [] hnodup hop
  · rw [decResponse_of_opParams _ hnodup hop]
    exact decParams_of_bad_count b0 hbad
  · obtain ⟨ws, hws⟩ := wordsOfBytes_of_le hrest
    refine ⟨ws, ?_, (wordsOfBytes_some hws).1, fun k lo hi hk hlo hhi => ?_⟩
    · rw [decResponse_of_opParams _ hnodup hop]
      exact decParams_of_words b0 hn hws
    · exact wordsOfBytes_getElem? hws hk hlo hhi

/-- Settles O33: each of the four opcodes selects its row, whose decoder is `decOpaque` at the row's length. -/
theorem opaquePacketLayout : Obligations.OpaquePacketLayout := by
  intro c n body ⟨_, _, ⟨hreq, _, hrsp, _⟩, _⟩
  simp only [← highNibble_eq_truncate]
  simp only [← lowNibble_eq_truncate]
  refine ⟨?_, ?_, ?_, ?_, fun b0 => ⟨fun h => ?_, fun h => ?_, fun h => ?_, fun h => ?_⟩⟩
  · rw [encRequest, headByte_eq_or]
  · rw [encRequest, headByte_eq_or]
  · rw [encResponse, headByte_eq_or]
    rfl
  · rw [encResponse, headByte_eq_or]
  · rw [decRequest_of_opEnableGenerator body hreq h]
    exact decOpaque_map_cons Request.enableGenerator c.lenEnableGenerator b0 body
  · rw [decRequest_of_opDisableGenerator body hreq h]
    exact decOpaque_map_cons Request.disableGenerator c.lenDisableGenerator b0 body
  · rw [decResponse_of_opVersion body (lowNibble_of_and h)]
    exact decOpaque_map_cons Response.version c.lenVersion b0 body
  · rw [decResponse_of_opError body hrsp h]
    exact decOpaque_map_cons Response.error c.lenError b0 body

end Sys2Proof
end

section
/-! SUPPORT. What reset leaves, and the attempt count of a host transfer that starts: O57. -/

namespace Sys2Proof.Machine

/-- A host write with no answer from the transport counts no attempt, whether or not its budget is used up. -/
theorem hostWriteRun_nil_hostAttempts (pkt : List Byte) (sent : Nat) (s : State) :
    (hostWriteRun pkt [] sent s).hostAttempts = s.hostAttempts := by
  rw [hostWriteRun]
  split <;> rfl

/-- A host read with no answer from the transport counts no attempt, whether or not its budget is used up. -/
theorem hostReadRun_nil_hostAttempts (s : State) : (hostReadRun [] s).hostAttempts = s.hostAttempts := by
  rw [hostReadRun]
  split <;> rfl

/-- An idle host starts a read that waits for the transport, with no failed attempt (42_control_packets.md R173). -/
theorem exec_usbHost_rxhBlocked {s : State} (h : s.hostPhase = .idle) :
    exec (.usbHost .rxhBlocked) s = .next (hostReadRun s.hostReads (hostStart s)) := by
  simp only [exec, execUsbHost, h]

/-- An idle host starts the write of a well-formed request, with no failed attempt (42_control_packets.md R173). -/
theorem exec_usbHost_txh {s : State} {r : Request} (h : s.hostPhase = .idle) (hr : r.wellFormed s.cfg = true) :
    exec (.usbHost (.txh r)) s =
      .next (hostWriteRun (wireBytes s.cfg (encRequest s.cfg r)) s.hostWrites 0 (hostStart s)) := by
  simp only [exec, execUsbHost, h, if_pos hr]

/-- Settles O57: reset gives its values by definition; a transfer starts at count 0, and no answer moves it. -/
theorem resetValues : Obligations.ResetValues := by
  refine ⟨fun c => ⟨rfl, rfl, rfl, rfl⟩, fun op s hidle hreads hwrites hop => ?_⟩
  obtain rfl | ⟨r, hr, rfl⟩ := hop
  · refine ⟨_, exec_usbHost_rxhBlocked hidle, ?_⟩
    rw [hreads]
    exact hostReadRun_nil_hostAttempts (hostStart s)
  · refine ⟨_, exec_usbHost_txh hidle hr, ?_⟩
    rw [hwrites]
    exact hostWriteRun_nil_hostAttempts _ 0 (hostStart s)

end Sys2Proof.Machine
end

section
/-! SUPPORT. The round trip of the packet codec and of the decoder that selects an operation (42_control_packets.md R150
to R152, R166; 30_encoding.md R85, R86): O22, O53, O23, O25. -/

namespace Sys2Proof

/-! ### Decode of encode, whatever stands behind the packet -/

/-- A body that fills its packet comes back whole, with N, and nothing of what stands behind it does. -/
theorem decOpaque_map_headByte {α : Type} (f : Nibble → List Byte → α) {l : Nat} (n op : Nibble) {body : List Byte}
    (junk : List Byte) (h : body.length + 1 = l) :
    (decOpaque l (headByte n op :: (body ++ junk))).map (fun e => f e.1 e.2) = some (f n body) := by
  subst h
  rw [decOpaque_map_cons, if_neg (by simp), highNibble_headByte, Nat.add_sub_cancel, List.take_left]

/-- A request comes back from its packet, whatever stands behind it (30_encoding.md R86). -/
theorem decRequest_encRequest_append {c : Config} (hc : c.Admitted) {r : Request} (hr : r.wellFormed c = true)
    (junk : List Byte) : decRequest c (encRequest c r ++ junk) = some r := by
  obtain ⟨-, -, ⟨hnodup, -⟩, -⟩ := hc
  cases r with
  | getVersion => exact decRequest_of_opVersion junk (lowNibble_headByte _ _)
  | ping payload version =>
    refine (decRequest_of_opPing (version :: junk) (lowNibble_headByte _ _)).trans ?_
    simp [decEcho]
  | setParam index value =>
    refine (decRequest_of_opSetParam (lowByte value :: highByte value :: junk) (lowNibble_headByte _ _)).trans ?_
    simp [decSetParam]
  | getParam index =>
    refine (decRequest_of_opGetParam junk (lowNibble_headByte _ _)).trans ?_
    rw [highNibble_headByte]
  | ledOn => exact decRequest_of_opLedOn junk hnodup (lowNibble_headByte _ _)
  | ledOff => exact decRequest_of_opLedOff junk hnodup (lowNibble_headByte _ _)
  | enableGenerator n body =>
    refine (decRequest_of_opEnableGenerator (body ++ junk) hnodup (lowNibble_headByte _ _)).trans ?_
    exact decOpaque_map_headByte Request.enableGenerator n _ junk (eq_of_beq hr)
  | disableGenerator n body =>
    refine (decRequest_of_opDisableGenerator (body ++ junk) hnodup (lowNibble_headByte _ _)).trans ?_
    exact decOpaque_map_headByte Request.disableGenerator n _ junk (eq_of_beq hr)

/-- The count byte of a Params packet reads as its number of values, at most 31 (42_control_packets.md R163). -/
theorem toNat_ofNat_length {vs : List Word} (h : vs.length ≤ maxPacketParams) :
    (BitVec.ofNat 8 vs.length).toNat = vs.length := by
  simp only [maxPacketParams] at h
  rw [BitVec.toNat_ofNat]
  omega

/-- A response comes back from its packet, whatever stands behind it (30_encoding.md R86). -/
theorem decResponse_encResponse_append {c : Config} (hc : c.Admitted) {r : Response} (hr : r.wellFormed c = true)
    (junk : List Byte) : decResponse c (encResponse c r ++ junk) = some r := by
  obtain ⟨-, -, ⟨-, -, hnodup, -⟩, -⟩ := hc
  cases r with
  | version n body =>
    refine (decResponse_of_opVersion (body ++ junk) (lowNibble_headByte _ _)).trans ?_
    exact decOpaque_map_headByte Response.version n _ junk (eq_of_beq hr)
  | pong payload version =>
    refine (decResponse_of_opPing (version :: junk) (lowNibble_headByte _ _)).trans ?_
    simp [decEcho]
  | params vs =>
    have hlen : vs.length ≤ maxPacketParams := of_decide_eq_true hr
    refine (decResponse_of_opParams _ hnodup (lowNibble_headByte _ _)).trans ?_
    refine decParams_of_words _ ?_ ?_
    · rwa [toNat_ofNat_length hlen]
    · rw [toNat_ofNat_length hlen]
      exact wordsOfBytes_bytesOfWords vs junk
  | error n body =>
    refine (decResponse_of_opError (body ++ junk) hnodup (lowNibble_headByte _ _)).trans ?_
    exact decOpaque_map_headByte Response.error n _ junk (eq_of_beq hr)

theorem decRequest_encRequest {c : Config} (hc : c.Admitted) {r : Request} (hr : r.wellFormed c = true) :
    decRequest c (encRequest c r) = some r := by
  simpa using decRequest_encRequest_append hc hr []

theorem decResponse_encResponse {c : Config} (hc : c.Admitted) {r : Response} (hr : r.wellFormed c = true) :
    decResponse c (encResponse c r) = some r := by
  simpa using decResponse_encResponse_append hc hr []

/-! ### The packet in its buffer and on the wire -/

/-- The valid bytes of a padded packet are the packet (42_control_packets.md R152). -/
theorem padPacket_take (bytes : List Byte) : (padPacket bytes).take bytes.length = bytes := List.take_left

/-- On the wire a packet stands first, and zero bytes may follow it (30_encoding.md R86). -/
theorem wireBytes_eq_append (c : Config) (bytes : List Byte) : ∃ zeros, wireBytes c bytes = bytes ++ zeros := by
  cases hmode : c.wireMode with
  | logical => exact ⟨[], by simp [wireBytes, hmode]⟩
  | full64 => exact ⟨List.replicate (pktCapacity - bytes.length) 0#8, by simp [wireBytes, hmode, padPacket]⟩

/-- Settles O23: both wire modes put bytes behind the packet, and those are ignored as any others are. -/
theorem bytesPastLengthAreIgnored : Obligations.BytesPastLengthAreIgnored := by
  intro c junk hc
  refine ⟨fun r hr => ⟨decRequest_encRequest_append hc hr junk, ?_⟩,
    fun r hr => ⟨decResponse_encResponse_append hc hr junk, ?_⟩⟩
  · obtain ⟨zeros, hwire⟩ := wireBytes_eq_append c (encRequest c r)
    rw [hwire, decRequest_encRequest_append hc hr]
  · obtain ⟨zeros, hwire⟩ := wireBytes_eq_append c (encResponse c r)
    rw [hwire, decResponse_encResponse_append hc hr]

/-- Settles O22: the valid bytes of the padded buffer are the packet, which decodes to its variant. -/
theorem packetDecodeOfEncodeIsIdentity : Obligations.PacketDecodeOfEncodeIsIdentity := by
  intro s hc
  refine ⟨fun r hr => ?_, fun r hr => ?_⟩
  · rw [Machine.exec_pktDecodeReq, padPacket_take]
    simp only [decPacket, decRequest_encRequest hc hr]
  · rw [Machine.exec_pktDecodeRsp, padPacket_take]
    simp only [decPacket, decResponse_encResponse hc hr]

/-! ### The operation a stimulus selects -/

theorem selectIf_of_true {ok : Bool} (h : ok = true) (e : DecodeError) (i : Instr) : selectIf ok e i = .ok i :=
  selectIf_ok.mpr ⟨h, rfl⟩

/-- The packet of a request selects the row of that request (42_control_packets.md R150). -/
theorem decode_packet_encRequest {c : Config} (hc : c.Admitted) (tag : Tag) {r : Request}
    (hr : r.wellFormed c = true) : decode c tag (.packet .request (encRequest c r)) = .ok (instrOfRequest r) := by
  have hfit : bytesFit (encRequest c r) = true := decide_eq_true (encRequest_length hc hr).2
  simp only [decode, selectIf_of_true hfit, decPacket, decRequest_encRequest hc hr, instrOfPacket]

/-- The packet of a response selects the row of that response (42_control_packets.md R151). -/
theorem decode_packet_encResponse {c : Config} (hc : c.Admitted) (tag : Tag) {r : Response}
    (hr : r.wellFormed c = true) : decode c tag (.packet .response (encResponse c r)) = .ok (instrOfResponse r) := by
  have hfit : bytesFit (encResponse c r) = true := decide_eq_true (encResponse_length hc hr).2
  simp only [decode, selectIf_of_true hfit, decPacket, decResponse_encResponse hc hr, instrOfPacket]

/-- Settles O53: the packet rows by the round trip of their direction, the FSM.ADVANCE rows by the state that selects
them, the others by the check on their operands. -/
theorem decodeOfEncodeIsIdentity : Obligations.DecodeOfEncodeIsIdentity := by
  intro c tag i x hc hi htag hx
  cases i with
  | pktUnknown => cases hx
  | reqGetVersion => cases hx; exact decode_packet_encRequest hc tag (r := .getVersion) hi
  | reqPing p v => cases hx; exact decode_packet_encRequest hc tag (r := .ping p v) hi
  | reqSetParam index value => cases hx; exact decode_packet_encRequest hc tag (r := .setParam index value) hi
  | reqGetParam index => cases hx; exact decode_packet_encRequest hc tag (r := .getParam index) hi
  | reqLedOn => cases hx; exact decode_packet_encRequest hc tag (r := .ledOn) hi
  | reqLedOff => cases hx; exact decode_packet_encRequest hc tag (r := .ledOff) hi
  | reqEnableGenerator n body => cases hx; exact decode_packet_encRequest hc tag (r := .enableGenerator n body) hi
  | reqDisableGenerator n body => cases hx; exact decode_packet_encRequest hc tag (r := .disableGenerator n body) hi
  | rspVersion n body => cases hx; exact decode_packet_encResponse hc tag (r := .version n body) hi
  | rspPong p v => cases hx; exact decode_packet_encResponse hc tag (r := .pong p v) hi
  | rspParams vs => cases hx; exact decode_packet_encResponse hc tag (r := .params vs) hi
  | rspError n body => cases hx; exact decode_packet_encResponse hc tag (r := .error n body) hi
  | fsmAdvanceDm w | fsmAdvanceWfm w | fsmAdvanceRp w =>
    obtain rfl := eq_of_beq htag
    cases hx; rfl
  | fsmAdvanceDpcSentinel =>
    obtain rfl := eq_of_beq htag
    cases hx; rfl
  | fsmAdvanceDpcCount w =>
    obtain rfl := eq_of_beq htag
    have hw : w ≠ sentinel := bne_iff_ne.mp hi
    cases hx
    simp only [decode, instrOfWord, if_neg hw]
  | fsmEmit | pktDecodeReq | pktDecodeRsp | pktEncode | usbRx | usbTx | usbHost =>
    cases hx
    exact selectIf_of_true hi _ _
  | bbDecode | bbEncode | bbSample | bbEmit | fsmPop => cases hx; rfl

/-! ### Truncated packets (30_encoding.md R85) -/

/-- An opaque packet that lacks bytes of its body is Unknown. -/
theorem decOpaque_map_take {α : Type} (f : Nibble → List Byte → α) {l j : Nat} (b0 : Byte) {body : List Byte}
    (hl : body.length + 1 = l) (hj : j + 1 < body.length + 1) :
    (decOpaque l (b0 :: body.take j)).map (fun e => f e.1 e.2) = none := by
  rw [decOpaque_map_cons, if_pos (by rw [List.length_take]; omega)]

theorem decRequest_truncated {c : Config} (hc : c.Admitted) {r : Request} (hr : r.wellFormed c = true) {k : Nat}
    (hk : k < (encRequest c r).length) : decRequest c ((encRequest c r).take k) = none := by
  obtain ⟨-, -, ⟨hnodup, -⟩, -⟩ := hc
  cases k with
  | zero => rw [List.take_zero]; rfl
  | succ j =>
    cases r with
    | getVersion | getParam | ledOn | ledOff => exact absurd hk (by simp [encRequest])
    | ping payload version =>
      obtain rfl : j = 0 := by simp only [encRequest, List.length_cons, List.length_nil] at hk; omega
      exact decRequest_of_opPing [] (lowNibble_headByte _ _)
    | setParam index value =>
      obtain rfl | rfl : j = 0 ∨ j = 1 := by simp only [encRequest, List.length_cons, List.length_nil] at hk; omega
      · exact decRequest_of_opSetParam [] (lowNibble_headByte _ _)
      · exact decRequest_of_opSetParam [lowByte value] (lowNibble_headByte _ _)
    | enableGenerator n body =>
      refine (decRequest_of_opEnableGenerator (body.take j) hnodup (lowNibble_headByte _ _)).trans ?_
      exact decOpaque_map_take Request.enableGenerator _ (eq_of_beq hr) hk
    | disableGenerator n body =>
      refine (decRequest_of_opDisableGenerator (body.take j) hnodup (lowNibble_headByte _ _)).trans ?_
      exact decOpaque_map_take Request.disableGenerator _ (eq_of_beq hr) hk

theorem decResponse_truncated {c : Config} (hc : c.Admitted) {r : Response} (hr : r.wellFormed c = true) {k : Nat}
    (hk : k < (encResponse c r).length) : decResponse c ((encResponse c r).take k) = none := by
  obtain ⟨-, -, ⟨-, -, hnodup, -⟩, -⟩ := hc
  cases k with
  | zero => rw [List.take_zero]; rfl
  | succ j =>
    cases r with
    | version n body =>
      refine (decResponse_of_opVersion (body.take j) (lowNibble_headByte _ _)).trans ?_
      exact decOpaque_map_take Response.version _ (eq_of_beq hr) hk
    | pong payload version =>
      obtain rfl : j = 0 := by simp only [encResponse, List.length_cons, List.length_nil] at hk; omega
      exact decResponse_of_opPing [] (lowNibble_headByte _ _)
    | params vs =>
      have hcount := toNat_ofNat_length (of_decide_eq_true hr)
      cases j with
      | zero => exact decResponse_of_opParams [] hnodup (lowNibble_headByte _ _)
      | succ j =>
        have hlack : ((bytesOfWords vs).take j).length < 2 * (BitVec.ofNat 8 vs.length).toNat := by
          simp only [encResponse, List.length_cons, bytesOfWords_length] at hk
          rw [hcount, List.length_take]
          omega
        refine (decResponse_of_opParams _ hnodup (lowNibble_headByte _ _)).trans ?_
        exact decParams_of_bad_count _ (.inr hlack)
    | error n body =>
      refine (decResponse_of_opError (body.take j) hnodup (lowNibble_headByte _ _)).trans ?_
      exact decOpaque_map_take Response.error _ (eq_of_beq hr) hk

/-- Settles O25: a packet cut short at any point, in each direction. -/
theorem truncatedPacketsAreUnknown : Obligations.TruncatedPacketsAreUnknown := fun _ _ hc =>
  ⟨fun _ hr hk => decRequest_truncated hc hr hk, fun _ hr hk => decResponse_truncated hc hr hk⟩

end Sys2Proof
end

section
/-! SUPPORT. What PKT.ENCODE gives and refuses, packets of no row, and packets that encode back differently
(42_control_packets.md R150 to R152, R165, R167): O24, O27, O28, O34, and the fixed answers O37, O54. -/

namespace Sys2Proof

/-! ### Packets of no row (30_encoding.md R85) -/

theorem decRequest_of_not_mem {c : Config} {b0 : Byte} (rest : List Byte) (h : lowNibble b0 ∉ c.requestOpcodes) :
    decRequest c (b0 :: rest) = none := by
  simp only [Config.requestOpcodes, List.mem_cons, List.not_mem_nil, or_false, not_or] at h
  obtain ⟨hversion, hping, hset, hget, hon, hoff, henable, hdisable⟩ := h
  rw [decRequest, if_neg hversion, if_neg hping, if_neg hset, if_neg hget, if_neg hon, if_neg hoff, if_neg henable,
    if_neg hdisable]

theorem decResponse_of_not_mem {c : Config} {b0 : Byte} (rest : List Byte) (h : lowNibble b0 ∉ c.responseOpcodes) :
    decResponse c (b0 :: rest) = none := by
  simp only [Config.responseOpcodes, List.mem_cons, List.not_mem_nil, or_false, not_or] at h
  obtain ⟨hversion, hping, hparams, herror⟩ := h
  rw [decResponse, if_neg hversion, if_neg hping, if_neg hparams, if_neg herror]

/-- Settles O24: an opcode of no row fails every test of its direction's table, and 0xF is in neither table. -/
theorem unassignedOpcodesAreUnknown : Obligations.UnassignedOpcodesAreUnknown := by
  intro b0 rest s
  have hall : (b0 :: rest).take (rest.length + 1) = b0 :: rest := List.take_length (l := b0 :: rest)
  simp only [← lowNibble_eq_truncate]
  refine ⟨fun h => ?_, fun h => ?_, fun ⟨_, _, ⟨_, hreq, _, hrsp⟩, _⟩ hlow => ?_⟩
  · rw [Machine.exec_pktDecodeReq, hall]
    simp only [decPacket, decRequest_of_not_mem rest h]
  · rw [Machine.exec_pktDecodeRsp, hall]
    simp only [decPacket, decResponse_of_not_mem rest h]
  · have hop : lowNibble b0 = opNever := lowNibble_of_and hlow
    rw [hop]
    exact ⟨hreq, hrsp⟩

/-! ### PKT.ENCODE -/

/-- A well-formed packet is a variant with 1 to 64 bytes (30_encoding.md R80). -/
theorem encPacket_of_wellFormed {c : Config} (hc : c.Admitted) {p : Packet} (hp : p.wellFormed c = true) :
    ∃ bytes, encPacket c p = some bytes ∧ 1 ≤ bytes.length ∧ bytes.length ≤ pktCapacity := by
  cases p with
  | request r => exact ⟨encRequest c r, rfl, encRequest_length hc hp⟩
  | response r => exact ⟨encResponse c r, rfl, encResponse_length hc hp⟩
  | unknown => cases hp

/-- Behind the packet its buffer holds zeros (42_control_packets.md R152). -/
theorem padPacket_getElem?_of_le {bytes : List Byte} {i : Nat} (hi : bytes.length ≤ i) (h : i < pktCapacity) :
    (padPacket bytes)[i]? = some 0#8 := by
  rw [padPacket, List.getElem?_append_right hi, List.getElem?_replicate_of_lt (by omega)]

theorem exec_pktEncode_of_wellFormed {p : Packet} {s : Machine.State} {bytes : List Byte}
    (hbytes : encPacket s.cfg p = some bytes) (hp : p.wellFormed s.cfg = true) :
    Machine.exec (.pktEncode p) s = .next { s with outputs := [.encoded (padPacket bytes) bytes.length] } := by
  simp only [Machine.exec, Machine.execPktEncode, hbytes, if_pos hp, Machine.State.answer]

/-- Settles O27: the buffer is the packet padded with zeros to PKT_CAPACITY. -/
theorem encodeFillsBuffer : Obligations.EncodeFillsBuffer := by
  intro p s hc hp
  obtain ⟨bytes, hbytes, hpos, hle⟩ := encPacket_of_wellFormed hc hp
  exact ⟨bytes, padPacket bytes, hbytes, hpos, hle, padPacket_length hle, padPacket_take bytes,
    fun _ hi h => padPacket_getElem?_of_le hi h, exec_pktEncode_of_wellFormed hbytes hp⟩

/-- A variant out of its width is refused by name: it has bytes, but they are not its packet. -/
theorem exec_pktEncode_of_not_wellFormed {p : Packet} {s : Machine.State} (hvariant : p ≠ .unknown)
    (hp : p.wellFormed s.cfg = false) : Machine.exec (.pktEncode p) s = .refused .fieldOutOfWidth := by
  cases p with
  | request r => simp [Machine.exec, Machine.execPktEncode, encPacket, hp]
  | response r => simp [Machine.exec, Machine.execPktEncode, encPacket, hp]
  | unknown => exact absurd rfl hvariant

/-- Settles O28: the refusal of each operation that encodes, in the state where it would start. -/
theorem encodeRefusesIllFormed : Obligations.EncodeRefusesIllFormed := by
  intro s
  refine ⟨rfl, fun p => exec_pktEncode_of_not_wellFormed, fun p hp hloop => ?_, fun r hr hidle => ?_⟩
  · simp [Machine.exec, Machine.execUsbTx, Machine.startTx, hloop, hp]
  · simp [Machine.exec, Machine.execUsbHost, hidle, hr]

/-! ### Packets that encode back differently (42_control_packets.md R167) -/

/-- A nonzero nibble makes another head byte than the one encoding writes. -/
theorem headByte_ne_zeroExtend {n : Nibble} (op : Nibble) (hn : n ≠ 0#4) : op.zeroExtend 8 ≠ headByte n op := by
  intro h
  rw [← headByte_zero] at h
  have := congrArg highNibble h
  rw [highNibble_headByte, highNibble_headByte] at this
  exact hn this.symm

/-- Settles O34: decoding reads the opcode in the low nibble; encoding writes 0 above it. -/
theorem encodeOfDecodeMayDiffer : Obligations.EncodeOfDecodeMayDiffer := by
  intro c n vs ⟨_, _, ⟨hreq, _, hrsp, _⟩, _⟩ hvs
  have hlow (op : Nibble) : lowNibble (headByte n op) = op := lowNibble_headByte n op
  have hon : encRequest c .ledOn = [c.opLedOn.zeroExtend 8] := congrArg ([·]) (headByte_zero c.opLedOn)
  have hoff : encRequest c .ledOff = [c.opLedOff.zeroExtend 8] := congrArg ([·]) (headByte_zero c.opLedOff)
  refine ⟨decRequest_of_opVersion [] (hlow 1#4), rfl, decRequest_of_opLedOn [] hreq (hlow _), hon,
    decRequest_of_opLedOff [] hreq (hlow _), hoff, ?_, fun hn => ⟨?_, ?_, ?_⟩⟩
  · have hpacket : encResponse c (.params vs) =
        c.opParams.zeroExtend 8 :: BitVec.ofNat 8 vs.length :: bytesOfWords vs := by
      rw [encResponse, headByte_zero]
    have hcount := toNat_ofNat_length (vs := vs) hvs
    have hwords : wordsOfBytes vs.length (bytesOfWords vs) = some vs := by
      simpa using wordsOfBytes_bytesOfWords vs []
    refine ⟨_, hpacket, ?_, fun hn h => ?_⟩
    · rw [decResponse_of_opParams _ hrsp (hlow _)]
      exact decParams_of_words _ (by rwa [hcount]) (by rwa [hcount])
    · rw [hpacket] at h
      exact headByte_ne_zeroExtend c.opParams hn (List.cons.inj h).1
  · exact fun h => headByte_ne_zeroExtend 1#4 hn (List.cons.inj h).1
  · exact fun h => headByte_ne_zeroExtend c.opLedOn hn (List.cons.inj (hon.symm.trans h)).1
  · exact fun h => headByte_ne_zeroExtend c.opLedOff hn (List.cons.inj (hoff.symm.trans h)).1

/-! ### Fixed answers -/

/-- Settles O37: each row's whole effect is its output, by definition. -/
theorem responsesReachTheCaller : Obligations.ResponsesReachTheCaller :=
  fun _ _ _ _ _ => ⟨rfl, rfl, rfl, rfl, rfl⟩

/-- Settles O54: the decoder evaluated on the six words. -/
theorem writtenWordsDecode : Obligations.WrittenWordsDecode := by
  refine ⟨?_, ?_, ?_, ?_, ?_, ?_⟩ <;> decide

end Sys2Proof
end

section
/-! SUPPORT. The inferences of the spec about the BitBus Codec (40_bitbus.md R101, R105, R106; 30_encoding.md R74): O4,
O5, O6. -/

namespace Sys2Proof.Machine

/-! ### Encode of decode -/

/-- Encoding a decoded word gives each port back at its mapped positions and 0 at the others (40_bitbus.md R105). -/
theorem bbEncodePort_bbDecode (m : BitMap) (p : Port) (a b : Word) :
    bbEncodePort m p (bbDecode m a b) = portOf p a b &&& portMask m p := by
  refine word_ext fun k => ?_
  rw [Bool.eq_iff_iff, bbEncodePort_getLsbD, BitVec.getLsbD_and, Bool.and_eq_true, portMask_getLsbD]
  constructor
  · rintro ⟨i, hi, hbit⟩
    rw [bbDecode_getLsbD, hi] at hbit
    exact ⟨hbit, i, hi⟩
  · rintro ⟨hbit, i, hi⟩
    refine ⟨i, hi, ?_⟩
    rw [bbDecode_getLsbD, hi]
    exact hbit

theorem bbEncode_bbDecode (m : BitMap) (a b : Word) :
    bbEncode m (bbDecode m a b) = (a &&& portMask m .A, b &&& portMask m .B) := by
  rw [bbEncode, bbEncodePort_bbDecode, bbEncodePort_bbDecode]
  rfl

/-- Masking leaves a port as it is exactly when it is 0 at every unmapped position (30_encoding.md R74). -/
theorem and_portMask_eq_self_iff (m : BitMap) (p : Port) (v : Word) :
    v &&& portMask m p = v ↔ ∀ k : Fin 16, (∀ i : Fin 16, m[i] ≠ ⟨p, k⟩) → v.getLsbD k.val = false := by
  have hbit (k : Fin 16) : (v &&& portMask m p).getLsbD k.val = v.getLsbD k.val ↔
      ((∀ i : Fin 16, m[i] ≠ ⟨p, k⟩) → v.getLsbD k.val = false) := by
    rw [BitVec.getLsbD_and, Bool.and_eq_left_iff_imp, portMask_getLsbD, ← not_exists, ← Bool.not_eq_true,
      not_imp_not]
  constructor
  · exact fun h k => (hbit k).mp (by rw [h])
  · exact fun h => word_ext fun k => (hbit k).mpr (h k)

/-- Settles O4: encode of decode masks each port, and masking is the identity where the unmapped bits are 0. -/
theorem bbEncodeOfDecodeMasks : Obligations.BbEncodeOfDecodeMasks := by
  intro m a b _
  refine ⟨bbEncode_bbDecode m a b, ?_⟩
  rw [bbEncode_bbDecode, Prod.mk.injEq, and_portMask_eq_self_iff, and_portMask_eq_self_iff, forall_and]

/-! ### The number of 1 bits -/

/-- Counting over the 16 positions is the size of a set of them. -/
theorem countP_logicalBits (f : Fin 16 → Bool) :
    logicalBits.countP f = (Finset.univ.filter fun k => f k = true).card := by
  have hnodup : logicalBits.Nodup := by decide
  have hset : (Finset.univ.filter fun k => f k = true) = (logicalBits.filter f).toFinset := by
    ext k
    simp [mem_logicalBits]
  rw [hset, List.toFinset_card_of_nodup (hnodup.filter f), List.countP_eq_length_filter]

/-- Port p has a 1 bit for each 1 bit of the word mapped to it, as no two lie on one position (30_encoding.md R71, K1). -/
theorem countP_bbEncodePort {m : BitMap} (hm : m.Injective) (p : Port) (w : Word) :
    logicalBits.countP (fun k => (bbEncodePort m p w).getLsbD k.val) =
      (Finset.univ.filter fun i : Fin 16 => w.getLsbD i.val = true ∧ m[i].port = p).card := by
  have himage : (Finset.univ.filter fun k : Fin 16 => (bbEncodePort m p w).getLsbD k.val = true) =
      (Finset.univ.filter fun i : Fin 16 => w.getLsbD i.val = true ∧ m[i].port = p).image fun i => m[i].bit := by
    ext k
    simp only [Finset.mem_filter, Finset.mem_univ, true_and, Finset.mem_image, bbEncodePort_getLsbD]
    constructor
    · rintro ⟨i, hi, hw⟩
      exact ⟨i, ⟨hw, by rw [hi]⟩, by rw [hi]⟩
    · rintro ⟨i, ⟨hw, rfl⟩, rfl⟩
      exact ⟨i, rfl, hw⟩
  rw [countP_logicalBits, himage]
  refine Finset.card_image_of_injOn fun i hi j hj hbit => hm i j ?_
  have hport : m[i].port = m[j].port := by
    rw [(Finset.mem_filter.mp hi).2.2, (Finset.mem_filter.mp hj).2.2]
  calc m[i] = ⟨m[i].port, m[i].bit⟩ := rfl
    _ = ⟨m[j].port, m[j].bit⟩ := by rw [hport, show m[i].bit = m[j].bit from hbit]

/-- Every logical bit lies on one of the two ports, so encoding keeps the number of 1 bits. -/
theorem countP_bbEncode {m : BitMap} (hm : m.Injective) (w : Word) :
    logicalBits.countP (fun k => (bbEncode m w).1.getLsbD k.val) +
        logicalBits.countP (fun k => (bbEncode m w).2.getLsbD k.val) =
      logicalBits.countP (fun k => w.getLsbD k.val) := by
  have hother (p : Port) : p = .B ↔ ¬ p = .A := by cases p <;> decide
  rw [bbEncode, countP_bbEncodePort hm, countP_bbEncodePort hm, countP_logicalBits]
  simp only [hother]
  rw [← Finset.filter_filter, ← Finset.filter_filter]
  exact Finset.card_filter_add_card_filter_not _

/-- The mask of a port is the encoding of the word of ones. -/
theorem portMask_eq_bbEncodePort (m : BitMap) (p : Port) : portMask m p = bbEncodePort m p (BitVec.allOnes 16) := by
  refine word_ext fun k => ?_
  have hone (i : Fin 16) : (BitVec.allOnes 16).getLsbD i.val = true := by
    rw [BitVec.getLsbD_allOnes, decide_eq_true i.isLt]
  rw [Bool.eq_iff_iff, portMask_getLsbD, bbEncodePort_getLsbD]
  simp only [hone, and_true]

/-- Settles O5: each 1 bit has its own position; the masks are what the word of ones encodes to. -/
theorem bbEncodeKeepsPopcount : Obligations.BbEncodeKeepsPopcount := by
  intro m w ⟨hm, _, _⟩
  refine ⟨countP_bbEncode hm w, ?_⟩
  rw [portMask_eq_bbEncodePort, portMask_eq_bbEncodePort]
  exact countP_bbEncode hm (BitVec.allOnes 16)

/-! ### The codec is bitwise -/

/-- A physical bit of the encoding is read from at most one bit of the word (40_bitbus.md R106). -/
theorem bbEncodePort_getLsbD_congr {m : BitMap} (hm : m.Injective) (p : Port) (k : Fin 16) :
    ∃ i : Fin 16, ∀ w w' : Word, w.getLsbD i.val = w'.getLsbD i.val →
      (bbEncodePort m p w).getLsbD k.val = (bbEncodePort m p w').getLsbD k.val := by
  by_cases hmapped : ∃ i : Fin 16, m[i] = ⟨p, k⟩
  · obtain ⟨i, hi⟩ := hmapped
    have hread (w : Word) : (bbEncodePort m p w).getLsbD k.val = w.getLsbD i.val := by
      have := bbEncodePort_getLsbD_mapped hm w i
      rwa [hi] at this
    exact ⟨i, fun w w' h => by rw [hread, hread, h]⟩
  · have hzero (w : Word) : (bbEncodePort m p w).getLsbD k.val = false := by
      rw [← Bool.not_eq_true, bbEncodePort_getLsbD]
      exact fun ⟨i, hi, _⟩ => hmapped ⟨i, hi⟩
    exact ⟨0, fun w w' _ => by rw [hzero, hzero]⟩

theorem bbEncodePort_or (m : BitMap) (p : Port) (w₁ w₂ : Word) :
    bbEncodePort m p (w₁ ||| w₂) = bbEncodePort m p w₁ ||| bbEncodePort m p w₂ := by
  refine word_ext fun k => ?_
  rw [Bool.eq_iff_iff, BitVec.getLsbD_or, Bool.or_eq_true]
  simp only [bbEncodePort_getLsbD, BitVec.getLsbD_or, Bool.or_eq_true, and_or_left, exists_or]

/-- Settles O6: decoding reads each bit at one place, so it commutes with each operation that acts bit by bit. -/
theorem bbCodecIsBitwise : Obligations.BbCodecIsBitwise := by
  intro m ⟨hm, _, _⟩
  refine ⟨fun i a b a' b' h => ?_, bbEncodePort_getLsbD_congr hm,
    fun a₁ a₂ b₁ b₂ => ⟨?_, ?_, ?_⟩, fun w₁ w₂ => ?_⟩
  · rwa [bbDecode_getLsbD, bbDecode_getLsbD]
  · refine word_ext fun i => ?_
    cases hport : m[i].port <;> simp only [bbDecode_getLsbD, BitVec.getLsbD_or, hport, portOf]
  · refine word_ext fun i => ?_
    cases hport : m[i].port <;> simp only [bbDecode_getLsbD, BitVec.getLsbD_and, hport, portOf]
  · refine word_ext fun i => ?_
    cases hport : m[i].port <;> simp only [bbDecode_getLsbD, BitVec.getLsbD_xor, hport, portOf]
  · simp only [bbEncode, bbEncodePort_or]

end Sys2Proof.Machine
end

section
/-! SUPPORT. What one operation can do to the state, said once as `Effect`, and what follows of the writer of each element
(10_state.md sections 3 to 5) and of the learned count (41_frame.md R128): O17, O18, O58, O59. -/

namespace Sys2Proof.Machine

/-! ### FSM.ADVANCE -/

/-- A word pushes a frame only where it completes one, which ends ReadParams (41_frame.md R125, R126). -/
theorem fsmAdvance_fq {w : Word} {s t : State} (h : fsmAdvance w s = .next t) :
    t.fq = s.fq ∨ ∃ (f : List Word) (b : ParamsBuffer), t.fq = s.fq ++ [f] ∧ s.fq.length < queueDepth ∧
      s.fsm = .readParams b ∧ t.fsm = .waitForMarker b.expected := by
  cases hf : s.fsm with
  | detectMarker =>
    simp only [fsmAdvance, hf] at h
    cases h
    exact .inl (by rw [advanceDm_eq])
  | detectParamsCount c =>
    simp only [fsmAdvance, hf] at h
    split at h
    · cases h
      obtain ⟨data, d, -, he⟩ := advanceDpcSentinel_eq c s
      exact .inl (by rw [he])
    · cases h
      exact .inl rfl
  | waitForMarker n =>
    simp only [fsmAdvance, hf] at h
    cases h
    obtain ⟨data, d, -, he⟩ := advanceWfm_eq n w s
    exact .inl (by rw [he])
  | readParams b =>
    simp only [fsmAdvance, hf] at h
    by_cases hb : b.cursor < b.expected ∧ b.expected ≤ b.data.length
    · rw [advanceRp_eq w s hb] at h
      cases h
      split
      · by_cases hroom : s.fq.length < queueDepth
        · exact .inr ⟨b.data.take b.cursor ++ [w], b, by rw [emitFrame_of_lt _ hroom]; rfl, hroom, rfl, rfl⟩
        · exact .inl (by rw [emitFrame_of_le _ (Nat.le_of_not_lt hroom)]; rfl)
      · exact .inl rfl
    · simp [advanceRp, hb] at h

/-- A word keeps a learned count, but for a stray one under `resync` (41_frame.md R128). -/
theorem fsmAdvance_learned {n : Nat} {w : Word} {s t : State} (h : fsmAdvance w s = .next t)
    (hn : s.fsm.learned = some n) : t.fsm.learned = some n ∨
      (s.cfg.strayPolicy = .resync ∧ s.fsm = .waitForMarker n ∧ t.fsm = .detectMarker) := by
  cases hf : s.fsm with
  | detectMarker => rw [hf] at hn; cases hn
  | detectParamsCount c => rw [hf] at hn; cases hn
  | waitForMarker m =>
    rw [hf] at hn
    obtain rfl := Option.some.inj hn
    simp only [fsmAdvance, hf] at h
    cases h
    obtain ⟨data, d, -, he⟩ := advanceWfm_eq m w s
    rw [he]
    by_cases hw : w = sentinel
    · exact .inl (by simp [hw, ProtocolState.learned])
    · cases hpolicy : s.cfg.strayPolicy with
      | ignore => exact .inl (by simp [hw, ProtocolState.learned])
      | resync => exact .inr ⟨rfl, rfl, by simp [hw]⟩
  | readParams b =>
    rw [hf] at hn
    obtain rfl := Option.some.inj hn
    simp only [fsmAdvance, hf] at h
    by_cases hb : b.cursor < b.expected ∧ b.expected ≤ b.data.length
    · rw [advanceRp_eq w s hb] at h
      cases h
      split
      · exact .inl rfl
      · exact .inl rfl
    · simp [advanceRp, hb] at h

/-- Settles O17: every row does what FSM.ADVANCE does with its word, and that has a successor within the bounds. -/
theorem advanceIsTotalAndLocal : Obligations.AdvanceIsTotalAndLocal := by
  intro w s hs
  obtain ⟨t, ht⟩ := fsmAdvance_next w hs.fresh.fsm
  refine ⟨instrOfWord s.fsm.tag w, t, rfl, (instrOfWord_wellFormed s.cfg s.fsm.tag w).2, ?_,
    fsmAdvance_frame (s := s.fresh) ht, ?_, ?_, ?_, ?_, ?_⟩
  · rw [exec_instrOfWord, ht]
  · exact (execFsmAdvanceDm_eq w s).trans ht
  · exact (execFsmAdvanceDpcCount_eq w s).trans ht
  · exact (execFsmAdvanceWfm_eq w s).trans ht
  · exact (execFsmAdvanceRp_eq w s).trans ht
  · rintro rfl
    exact (execFsmAdvanceDpcSentinel_eq s).trans ht

/-! ### Operations that start a transmission, with none on its way and with one -/

theorem startTx_of_busy {s : State} (p : Response) (h : s.txLoop = true) : startTx p s = .next s.hold := if_pos h

theorem execReqGetVersion_of_busy {s : State} (h : s.txLoop = true) : execReqGetVersion s = .next s.hold := if_pos h

theorem execReqGetVersion_of_free {s : State} (h : s.txLoop = false) :
    execReqGetVersion s = startTx (.version (Config.freeVersionN s.draws) (versionBody s.cfg s.draws))
      { s with draws := s.draws + 1 } := if_neg (Bool.eq_false_iff.mp h)

theorem execReqPing_of_busy {s : State} (payload : Nibble) (version : Byte) (h : s.txLoop = true) :
    execReqPing payload version s = .next s.hold := if_pos h

theorem execReqPing_of_free {s : State} (payload : Nibble) (version : Byte) (h : s.txLoop = false) :
    execReqPing payload version s =
      startTx (.pong (Config.freePongPayload s.draws) (Config.freePongVersion s.draws))
        { s with draws := s.draws + 1 } := if_neg (Bool.eq_false_iff.mp h)

theorem execFsmPop_of_empty {s : State} (h : s.fq = []) : execFsmPop s = .next s.hold := by
  simp only [execFsmPop, h]

theorem execFsmPop_of_busy {s : State} (h : s.txLoop = true) : execFsmPop s = .next s.hold := by
  cases hfq : s.fq with
  | nil => exact execFsmPop_of_empty hfq
  | cons f rest => simp only [execFsmPop, hfq, if_pos h]

theorem execFsmPop_of_free {s : State} {f : List Word} {rest : List (List Word)} (hfq : s.fq = f :: rest)
    (h : s.txLoop = false) : execFsmPop s = startTx (.params f) { s with fq := rest } := by
  simp only [execFsmPop, hfq, if_neg (Bool.eq_false_iff.mp h)]

/-! ### What one operation can do -/

/-- The operations that start USB.TX whatever FQ holds (42_control_packets.md R171, R174). -/
def startsTx (i : Instr) : Prop := (∃ p, i = .usbTx p) ∨ i = .reqGetVersion ∨ ∃ p v, i = .reqPing p v

/-- What an operation can do to a state, by the elements it writes (10_state.md sections 3 to 5). -/
inductive Effect (s : State) : Instr → State → Prop where
  /-- it answers or waits: the outputs alone -/
  | answered (i : Instr) (o : List Output) : Effect s i { s with outputs := o }
  /-- it gives the Frame State Machine a word -/
  | advanced {i : Instr} {w : Word} {t : State} (hi : feedsWord i) (ht : fsmAdvance w s.fresh = .next t) :
    Effect s i t
  /-- it pushes a frame or drops it -/
  | framed (f : List Word) : Effect s (.fsmEmit f) (emitFrame f s.fresh)
  /-- it writes the ports -/
  | emitted (w a b : Word) (l : Bool) (d : Nat) (o : List Output) :
    Effect s (.bbEmit w) { s with paOut := a, pbOut := b, strobe := l, draws := d, outputs := o }
  /-- it starts a transmission -/
  | transmitted {i : Instr} (hi : startsTx i) (hloop : s.txLoop = false) (buf : List Byte) (len sent : Nat)
    (loop : Bool) (left : List WriteReply) (d : Nat) (o : List Output) :
    Effect s i { s with
      txBuf := buf, txLen := len, txSent := sent, txLoop := loop, usbWrites := left, draws := d, outputs := o }
  /-- it takes the head of FQ and starts its transmission -/
  | popped {f : List Word} {rest : List (List Word)} (hfq : s.fq = f :: rest) (hloop : s.txLoop = false)
    (buf : List Byte) (len sent : Nat) (loop : Bool) (left : List WriteReply) (o : List Output) :
    Effect s .fsmPop { s with
      fq := rest, txBuf := buf, txLen := len, txSent := sent, txLoop := loop, usbWrites := left, outputs := o }
  /-- it receives, and may hand a request on -/
  | received (x : RxInput) (polls : List PollReply) (reads : List ReadReply) (ph : RxPhase) (buf : List Byte)
    (len : Nat) (handed : List Stimulus) (o : List Output) :
    Effect s (.usbRx x) { s with
      usbPolls := polls, usbReads := reads, rxPhase := ph, rxBuf := buf, rxLen := len
      pending := s.pending ++ handed, outputs := o }
  /-- it makes the attempts of a host transfer -/
  | hosted (op : HostOp) (a : Nat) (ph : HostPhase) (ws : List HostWriteReply) (rs : List HostReadReply) (d : Nat)
    (o : List Output) :
    Effect s (.usbHost op) { s with
      hostAttempts := a, hostPhase := ph, hostWrites := ws, hostReads := rs, draws := d, outputs := o }

/-- With no transmission on its way USB.TX writes the elements of a transmission, after `d` draws. -/
theorem startTx_effect {i : Instr} {p : Response} {s t : State} (d : Nat) (hi : startsTx i) (hloop : s.txLoop = false)
    (h : startTx p { s with draws := d } = .next t) : Effect s i t := by
  rw [startTx_frame h]
  exact .transmitted hi hloop _ _ _ _ _ d _

theorem execUsbTx_effect {p : Response} {s t : State} (h : execUsbTx p s = .next t) : Effect s (.usbTx p) t := by
  cases hloop : s.txLoop with
  | true =>
    cases (startTx_of_busy p hloop).symm.trans h
    exact .answered _ _
  | false => exact startTx_effect s.draws (.inl ⟨p, rfl⟩) hloop h

theorem execReqGetVersion_effect {s t : State} (h : execReqGetVersion s = .next t) : Effect s .reqGetVersion t := by
  cases hloop : s.txLoop with
  | true =>
    cases (execReqGetVersion_of_busy hloop).symm.trans h
    exact .answered _ _
  | false => exact startTx_effect _ (.inr (.inl rfl)) hloop ((execReqGetVersion_of_free hloop).symm.trans h)

theorem execReqPing_effect {payload : Nibble} {version : Byte} {s t : State}
    (h : execReqPing payload version s = .next t) : Effect s (.reqPing payload version) t := by
  cases hloop : s.txLoop with
  | true =>
    cases (execReqPing_of_busy payload version hloop).symm.trans h
    exact .answered _ _
  | false =>
    exact startTx_effect _ (.inr (.inr ⟨payload, version, rfl⟩)) hloop
      ((execReqPing_of_free payload version hloop).symm.trans h)

theorem execFsmPop_effect {s t : State} (h : execFsmPop s = .next t) : Effect s .fsmPop t := by
  cases hloop : s.txLoop with
  | true =>
    cases (execFsmPop_of_busy hloop).symm.trans h
    exact .answered _ _
  | false =>
    cases hfq : s.fq with
    | nil =>
      cases (execFsmPop_of_empty hfq).symm.trans h
      exact .answered _ _
    | cons f rest =>
      rw [startTx_frame ((execFsmPop_of_free hfq hloop).symm.trans h)]
      exact .popped hfq hloop _ _ _ _ _ _

theorem execPktEncode_effect {p : Packet} {s t : State} (h : execPktEncode p s = .next t) :
    Effect s (.pktEncode p) t := by
  simp only [execPktEncode] at h
  split at h
  · cases h
  · split at h
    · cases h; exact .answered _ _
    · cases h

theorem execUsbRx_effect {x : RxInput} {s t : State} (h : execUsbRx x s = .next t) : Effect s (.usbRx x) t := by
  obtain ⟨handed, he⟩ := execUsbRx_frame h
  rw [he]
  exact .received x _ _ _ _ _ handed _

theorem execUsbHost_effect {op : HostOp} {s t : State} (h : execUsbHost op s = .next t) : Effect s (.usbHost op) t := by
  have hread (rs : List HostReadReply) : Effect s (.usbHost op) (hostReadRun rs (hostStart s)) := by
    obtain ⟨a, ph, left, o, he⟩ := hostReadRun_frame rs (hostStart s)
    rw [he]
    exact .hosted op a ph s.hostWrites left s.draws o
  simp only [execUsbHost] at h
  split at h
  case h_1 => cases h; exact .answered _ _
  case h_2 => cases h; exact .answered _ _
  case h_3 =>
    cases op with
    | rxh bytes => cases h; exact hread _
    | rxhBlocked => cases h; exact hread _
    | txh r =>
      dsimp only at h
      split at h
      · cases h
        obtain ⟨a, ph, left, o, d, he⟩ :=
          hostWriteRun_frame (wireBytes s.cfg (encRequest s.cfg r)) s.hostWrites 0 (hostStart s)
        rw [he]
        exact .hosted _ a ph left s.hostReads d o
      · cases h

/-- Every operation that ends in a next state has one of these effects. -/
theorem exec_effect {i : Instr} {s t : State} (h : exec i s = .next t) : Effect s i t := by
  cases i with
  | bbSample a b => exact .advanced (.inl ⟨a, b, rfl⟩) h
  | fsmAdvanceDm w => exact .advanced (.inr (.inl ⟨w, rfl⟩)) ((execFsmAdvanceDm_eq w s).symm.trans h)
  | fsmAdvanceDpcCount w =>
    exact .advanced (.inr (.inr (.inl ⟨w, rfl⟩))) ((execFsmAdvanceDpcCount_eq w s).symm.trans h)
  | fsmAdvanceDpcSentinel =>
    exact .advanced (.inr (.inr (.inr (.inl rfl)))) ((execFsmAdvanceDpcSentinel_eq s).symm.trans h)
  | fsmAdvanceWfm w =>
    exact .advanced (.inr (.inr (.inr (.inr (.inl ⟨w, rfl⟩))))) ((execFsmAdvanceWfm_eq w s).symm.trans h)
  | fsmAdvanceRp w =>
    exact .advanced (.inr (.inr (.inr (.inr (.inr ⟨w, rfl⟩))))) ((execFsmAdvanceRp_eq w s).symm.trans h)
  | fsmEmit f => cases h; exact .framed f
  | bbEmit w => cases h; exact .emitted w _ _ _ _ _
  | fsmPop => exact execFsmPop_effect h
  | reqGetVersion => exact execReqGetVersion_effect h
  | reqPing payload version => exact execReqPing_effect h
  | pktEncode p => exact execPktEncode_effect h
  | usbRx x => exact execUsbRx_effect h
  | usbTx p => exact execUsbTx_effect h
  | usbHost op => exact execUsbHost_effect h
  | bbDecode | bbEncode | reqSetParam | reqGetParam | reqLedOn | reqLedOff | reqEnableGenerator
  | reqDisableGenerator | rspVersion | rspPong | rspParams | rspError | pktUnknown | pktDecodeReq | pktDecodeRsp =>
    cases h; exact .answered _ _

/-! ### The writer of each element -/

theorem Effect.ports_eq {s t : State} {i : Instr} (h : Effect s i t) (hi : ∀ w, i ≠ .bbEmit w) :
    t.paOut = s.paOut ∧ t.pbOut = s.pbOut ∧ t.strobe = s.strobe := by
  cases h with
  | emitted w => exact absurd rfl (hi w)
  | advanced _ ht => rw [fsmAdvance_frame ht]; exact ⟨rfl, rfl, rfl⟩
  | framed f => rw [emitFrame_eq]; exact ⟨rfl, rfl, rfl⟩
  | answered | transmitted | popped | received | hosted => exact ⟨rfl, rfl, rfl⟩

theorem Effect.rx_eq {s t : State} {i : Instr} (h : Effect s i t) (hi : ∀ x, i ≠ .usbRx x) :
    t.rxBuf = s.rxBuf ∧ t.rxLen = s.rxLen ∧ t.rxPhase = s.rxPhase := by
  cases h with
  | received x => exact absurd rfl (hi x)
  | advanced _ ht => rw [fsmAdvance_frame ht]; exact ⟨rfl, rfl, rfl⟩
  | framed f => rw [emitFrame_eq]; exact ⟨rfl, rfl, rfl⟩
  | answered | emitted | transmitted | popped | hosted => exact ⟨rfl, rfl, rfl⟩

theorem Effect.tx_eq {s t : State} {i : Instr} (h : Effect s i t) (hi : ¬ startsTx i) (hpop : i ≠ .fsmPop) :
    t.txBuf = s.txBuf ∧ t.txLen = s.txLen ∧ t.txSent = s.txSent ∧ t.txLoop = s.txLoop := by
  cases h with
  | transmitted hstart => exact absurd hstart hi
  | popped => exact absurd rfl hpop
  | advanced _ ht => rw [fsmAdvance_frame ht]; exact ⟨rfl, rfl, rfl, rfl⟩
  | framed f => rw [emitFrame_eq]; exact ⟨rfl, rfl, rfl, rfl⟩
  | answered | emitted | received | hosted => exact ⟨rfl, rfl, rfl, rfl⟩

theorem Effect.host_eq {s t : State} {i : Instr} (h : Effect s i t) (hi : ∀ op, i ≠ .usbHost op) :
    t.hostAttempts = s.hostAttempts ∧ t.hostPhase = s.hostPhase := by
  cases h with
  | hosted op => exact absurd rfl (hi op)
  | advanced _ ht => rw [fsmAdvance_frame ht]; exact ⟨rfl, rfl⟩
  | framed f => rw [emitFrame_eq]; exact ⟨rfl, rfl⟩
  | answered | emitted | transmitted | popped | received => exact ⟨rfl, rfl⟩

/-- Settles O58: the effects that write an element are those of its own operations. -/
theorem datapathHasOneWriter : Obligations.DatapathHasOneWriter := by
  intro i s t h
  have heffect := exec_effect h
  refine ⟨heffect.ports_eq, heffect.rx_eq, fun htx hpop hversion hping => heffect.tx_eq ?_ hpop, heffect.host_eq⟩
  rintro (⟨p, rfl⟩ | rfl | ⟨p, v, rfl⟩)
  · exact htx p rfl
  · exact hversion rfl
  · exact hping p v rfl

/-- Settles O59: FQ is written by a word, by FSM.EMIT and by FSM.POP, and the ProtocolState by a word. -/
theorem queueIsFirstInFirstOut : Obligations.QueueIsFirstInFirstOut := by
  intro i s t h
  cases exec_effect h with
  | answered i o => exact ⟨.inl rfl, fun hne => absurd rfl hne⟩
  | emitted w => exact ⟨.inl rfl, fun hne => absurd rfl hne⟩
  | transmitted => exact ⟨.inl rfl, fun hne => absurd rfl hne⟩
  | received x => exact ⟨.inl rfl, fun hne => absurd rfl hne⟩
  | hosted op => exact ⟨.inl rfl, fun hne => absurd rfl hne⟩
  | popped hfq => exact ⟨.inr (.inr ⟨rfl, _, hfq⟩), fun hne => absurd rfl hne⟩
  | framed f =>
    by_cases hroom : s.fresh.fq.length < queueDepth
    · rw [emitFrame_of_lt f hroom]
      exact ⟨.inr (.inl ⟨f, rfl, hroom, .inl rfl⟩), fun hne => absurd rfl hne⟩
    · rw [emitFrame_of_le f (Nat.le_of_not_lt hroom)]
      exact ⟨.inl rfl, fun hne => absurd rfl hne⟩
  | advanced hi ht =>
    refine ⟨?_, fun _ => hi⟩
    obtain hsame | ⟨f, b, hpush, hroom, hread, hwait⟩ := fsmAdvance_fq ht
    · exact .inl hsame
    · exact .inr (.inl ⟨f, hpush, hroom, .inr ⟨hi, b, hread, hwait⟩⟩)

/-! ### The ProtocolState over a step -/

/-- An operation leaves the ProtocolState, or gives it a word. -/
theorem exec_fsm {i : Instr} {s t : State} (h : exec i s = .next t) :
    t.fsm = s.fsm ∨ ∃ w, fsmAdvance w s.fresh = .next t := by
  cases exec_effect h with
  | advanced hi ht => exact .inr ⟨_, ht⟩
  | framed f => exact .inl (by rw [emitFrame_eq]; rfl)
  | answered | emitted | transmitted | popped | received | hosted => exact .inl rfl

/-- A step leaves the ProtocolState, or takes a stimulus that gives it a word. -/
theorem step_fsm {s t : State} (h : step s = .next t) :
    t.fsm = s.fsm ∨ ∃ w rest, fsmAdvance w { s with pending := rest }.fresh = .next t := by
  obtain ⟨-, rfl⟩ | ⟨-, rfl⟩ | ⟨-, rfl⟩ | ⟨-, rfl⟩ | ⟨x, rest, -, htake⟩ := step_next h
  · obtain ⟨a, ph, ws, rs, o, d, he⟩ := hostContinue_frame s
    exact .inl (by rw [he])
  · obtain ⟨handed, he⟩ := rxContinue_frame s
    exact .inl (by rw [he])
  · obtain ⟨sent, loop, left, o, he⟩ := txRun_frame s.usbWrites s.fresh
    exact .inl (by rw [txContinue, he]; rfl)
  · exact .inl rfl
  · obtain ⟨k, rfl⟩ | ⟨i, -, hexec⟩ := htake
    · exact .inl rfl
    · obtain hsame | ⟨w, hw⟩ := exec_fsm hexec
      · exact .inl hsame
      · exact .inr ⟨w, rest, hw⟩

/-- Settles O18: a step that writes the ProtocolState gives it a word. -/
theorem learnedCountStays : Obligations.LearnedCountStays := by
  intro n s t _ hn h
  have hkey : t.fsm.learned = some n ∨
      (s.cfg.strayPolicy = .resync ∧ s.fsm = .waitForMarker n ∧ t.fsm = .detectMarker) := by
    obtain hsame | ⟨w, rest, hw⟩ := step_fsm h
    · exact .inl (hsame ▸ hn)
    · exact fsmAdvance_learned (s := { s with pending := rest }.fresh) hw hn
  obtain hstay | ⟨hpolicy, hwait, hlost⟩ := hkey
  · exact ⟨fun _ => hstay, fun hne => absurd hstay hne⟩
  · exact ⟨fun hignore => absurd (hignore.symm.trans hpolicy) (by decide), fun _ => ⟨hpolicy, hwait, hlost⟩⟩

end Sys2Proof.Machine
end

section
/-! SUPPORT. Every operation is total, no step faults, reset is within the bounds (60_exceptions.md R200, 10_state.md):
O51, O52, O56. -/

namespace Sys2Proof.Machine

/-! ### The responses the device sends are well formed -/

theorem startTx_next {p : Response} (s : State) (hp : p.wellFormed s.cfg = true) : ∃ t, startTx p s = .next t := by
  cases hloop : s.txLoop with
  | true => exact ⟨_, startTx_of_busy p hloop⟩
  | false => exact ⟨_, startTx_eq hloop hp⟩

/-- A frame of FQ fits a Params packet, since MAX_PARAMS is at most 31 (42_control_packets.md R163). -/
theorem params_wellFormed_of_mem_fq {s : State} (h : s.Inv) {f : List Word} (hf : f ∈ s.fq) :
    (Response.params f).wellFormed s.cfg = true := by
  obtain ⟨-, ⟨-, hmax⟩, -⟩ := h.cfg
  exact decide_eq_true ((h.fqFrames f hf).2.trans hmax)

/-- The body the device answers fills LEN_VERSION with byte 0 (42_control_packets.md R161). -/
theorem versionBody_length_add_one {c : Config} (hc : c.Admitted) (d : Nat) :
    (versionBody c d).length + 1 = c.lenVersion := by
  obtain ⟨-, -, -, -, -, ⟨hpos, -⟩, -⟩ := hc
  rw [versionBody_length, Nat.sub_add_cancel hpos]

theorem version_wellFormed {c : Config} (hc : c.Admitted) (n : Nibble) (d : Nat) :
    (Response.version n (versionBody c d)).wellFormed c = true :=
  beq_iff_eq.mpr (versionBody_length_add_one hc d)

/-! ### Totality, operation by operation -/

theorem execReqGetVersion_next {s : State} (h : s.Inv) : ∃ t, execReqGetVersion s = .next t := by
  cases hloop : s.txLoop with
  | true => exact ⟨_, execReqGetVersion_of_busy hloop⟩
  | false =>
    rw [execReqGetVersion_of_free hloop]
    exact startTx_next _ (version_wellFormed h.cfg _ s.draws)

theorem execReqPing_next (payload : Nibble) (version : Byte) (s : State) :
    ∃ t, execReqPing payload version s = .next t := by
  cases hloop : s.txLoop with
  | true => exact ⟨_, execReqPing_of_busy payload version hloop⟩
  | false =>
    rw [execReqPing_of_free payload version hloop]
    exact startTx_next _ rfl

theorem execFsmPop_next {s : State} (h : s.Inv) : ∃ t, execFsmPop s = .next t := by
  cases hfq : s.fq with
  | nil => exact ⟨_, execFsmPop_of_empty hfq⟩
  | cons f rest =>
    cases hloop : s.txLoop with
    | true => exact ⟨_, execFsmPop_of_busy hloop⟩
    | false =>
      have hwf := params_wellFormed_of_mem_fq h (f := f) (by rw [hfq]; exact List.mem_cons_self)
      rw [execFsmPop_of_free hfq hloop]
      exact startTx_next _ hwf

theorem execUsbRx_next (x : RxInput) (s : State) : ∃ t, execUsbRx x s = .next t := by
  simp only [execUsbRx]
  split <;> exact ⟨_, rfl⟩

/-- An idle host reads, with the packet of RXH behind the answers already there (42_control_packets.md R173). -/
theorem exec_usbHost_rxh {s : State} (bytes : List Byte) (h : s.hostPhase = .idle) :
    exec (.usbHost (.rxh bytes)) s = .next (hostReadRun (s.hostReads ++ [.data bytes]) (hostStart s)) := by
  simp only [exec, execUsbHost, h]

theorem execUsbHost_next {op : HostOp} {s : State} (hop : op.wellFormed s.cfg = true) :
    ∃ t, execUsbHost op s = .next t := by
  cases hphase : s.hostPhase with
  | writing pkt sent => exact ⟨s.hold, by simp only [execUsbHost, hphase]⟩
  | reading => exact ⟨s.hold, by simp only [execUsbHost, hphase]⟩
  | idle =>
    cases op with
    | txh r => exact ⟨_, exec_usbHost_txh hphase hop⟩
    | rxh bytes => exact ⟨_, exec_usbHost_rxh bytes hphase⟩
    | rxhBlocked => exact ⟨_, exec_usbHost_rxhBlocked hphase⟩

/-- An operation that gives the Frame State Machine a word has a successor (41_frame.md R120). -/
theorem exec_next_of_word {s : State} (h : s.Inv) {i : Instr} {w : Word} (hw : exec i s = fsmAdvance w s.fresh) :
    ∃ t, exec i s = .next t := by
  rw [hw]
  exact fsmAdvance_next w h.fresh.fsm

/-- Settles O51: the words by the bounds of the ProtocolState, the transmissions by the widths of what they send. -/
theorem everyOperationEndsInANextState : Obligations.EveryOperationEndsInANextState := by
  intro i s h hi
  cases i with
  | bbSample a b => exact exec_next_of_word h (exec_bbSample a b s)
  | fsmAdvanceDm w => exact exec_next_of_word h (execFsmAdvanceDm_eq w s)
  | fsmAdvanceDpcCount w => exact exec_next_of_word h (execFsmAdvanceDpcCount_eq w s)
  | fsmAdvanceDpcSentinel => exact exec_next_of_word h (execFsmAdvanceDpcSentinel_eq s)
  | fsmAdvanceWfm w => exact exec_next_of_word h (execFsmAdvanceWfm_eq w s)
  | fsmAdvanceRp w => exact exec_next_of_word h (execFsmAdvanceRp_eq w s)
  | fsmPop => exact execFsmPop_next h
  | reqGetVersion => exact execReqGetVersion_next h
  | reqPing payload version => exact execReqPing_next payload version s
  | pktEncode p =>
    obtain ⟨bytes, hbytes, -⟩ := encPacket_of_wellFormed h.cfg hi
    exact ⟨_, exec_pktEncode_of_wellFormed hbytes hi⟩
  | usbRx x => exact execUsbRx_next x s
  | usbTx p => exact startTx_next s hi
  | usbHost op => exact execUsbHost_next hi
  | bbDecode | bbEncode | bbEmit | fsmEmit | reqSetParam | reqGetParam | reqLedOn | reqLedOff | reqEnableGenerator
  | reqDisableGenerator | rspVersion | rspPong | rspParams | rspError | pktUnknown | pktDecodeReq | pktDecodeRsp =>
    exact ⟨_, rfl⟩

/-- A stimulus is taken, run to a next state, or refused by name. -/
theorem runDecoded_ne_fault (x : Stimulus) {s : State} (h : s.Inv) (e : Fault) : runDecoded x s ≠ .fault e := by
  simp only [runDecoded]
  split
  case h_1 i hdecode =>
    obtain ⟨t, ht⟩ := everyOperationEndsInANextState i s h (decode_wellFormed h.cfg hdecode)
    rw [ht]
    exact nofun
  case h_2 => exact nofun

theorem runStimulus_ne_fault (x : Stimulus) {s : State} (h : s.Inv) (e : Fault) : runStimulus x s ≠ .fault e := by
  simp only [runStimulus]
  split
  case h_1 => exact nofun
  case h_2 => exact runDecoded_ne_fault x h e

/-- Settles O52: a loop that goes on and an idle step have a next state; what the decoder selects is total. -/
theorem stepNeverFaults : Obligations.StepNeverFaults := by
  intro e s h
  simp only [step]
  split
  case h_4 x rest _ => exact runStimulus_ne_fault x (h.withPending rest) e
  all_goals exact nofun

/-! ### Reset -/

theorem resetWith_inv {c : Config} (hc : c.Admitted) : (State.resetWith c).Inv where
  cfg := hc
  fsm := trivial
  fqDepth := Nat.zero_le _
  fqFrames := fun _ hf => absurd hf List.not_mem_nil
  strobe := rfl
  rxBuf := List.length_replicate
  rxLen := Nat.zero_le _
  txBuf := List.length_replicate
  txLen := ⟨le_refl 1, show 1 ≤ pktCapacity by decide⟩
  txSent := Nat.zero_le _
  txLoop := fun h => nomatch h
  hostAttempts := Nat.zero_le _
  hostPhase := trivial

/-- Settles O56: each element's reset value is within its bounds, and REF is a configuration the spec admits. -/
theorem resetIsWithinBounds : Obligations.ResetIsWithinBounds :=
  ⟨fun _ hc => resetWith_inv hc, resetWith_inv (show Config.ref.Admitted by decide)⟩

end Sys2Proof.Machine
end

section
/-! SUPPORT. What the scheduler chooses (60_exceptions.md R205, R206, R213): O16, O49, O50. -/

namespace Sys2Proof.Machine

/-! ### The first of a tier -/

theorem firstOfTier_eq_none {t : Tier} {s : State}
    (h : ∀ x ∈ s.pending, stimulusTier x ≠ t ∨ stimulusEnabled s x = false) : firstOfTier t s = none :=
  takeFirst_none fun x hx => by obtain htier | henabled := h x hx <;> simp [*]

/-- The earliest enabled event of a tier is found, whatever else is pending (60_exceptions.md R206). -/
theorem firstOfTier_eq_some {t : Tier} {s : State} {before after : List Stimulus} {x : Stimulus}
    (hp : s.pending = before ++ x :: after)
    (hbefore : ∀ y ∈ before, stimulusTier y ≠ t ∨ stimulusEnabled s y = false)
    (htier : stimulusTier x = t) (henabled : stimulusEnabled s x = true) :
    firstOfTier t s = some (x, before ++ after) := by
  rw [firstOfTier, hp]
  refine takeFirst_append x after (fun y hy => ?_) (by simp [htier, henabled])
  obtain h | h := hbefore y hy <;> simp [h]

/-- What is taken is of its tier, and the others keep their order. -/
theorem of_firstOfTier_eq_some {t : Tier} {s : State} {x : Stimulus} {rest : List Stimulus}
    (h : firstOfTier t s = some (x, rest)) :
    stimulusTier x = t ∧ ∃ before after, s.pending = before ++ x :: after ∧ rest = before ++ after := by
  obtain ⟨-, hx⟩ := takeFirst_some h
  rw [Bool.and_eq_true, beq_iff_eq] at hx
  exact ⟨hx.1, takeFirst_split h⟩

/-! ### With nothing ready -/

theorem step_of_idle {s : State} (h : choose s = .idle) : step s = .next s.fresh := by
  simp only [step, h]

/-- With no loop running and no pending stimulus that has a step, nothing is chosen (60_exceptions.md R213). -/
theorem choose_of_none_enabled {s : State} (hrx : s.rxPhase = .idle) (htx : s.txLoop = false)
    (hhost : s.hostPhase = .idle) (hp : ∀ x ∈ s.pending, stimulusEnabled s x = false) : choose s = .idle := by
  have hnone (t : Tier) : firstOfTier t s = none := firstOfTier_eq_none fun x hx => .inr (hp x hx)
  have hready : hostReady s = false := by simp only [hostReady, hhost]
  simp [choose, chooseDevice, chooseBelowHigh, chooseLow, hready, hrx, htx, hnone]

/-- Settles O50: nothing is pending, so nothing is chosen. -/
theorem idleKeepsState : Obligations.IdleKeepsState := by
  intro s ⟨hp, hrx, htx, hhost⟩
  exact step_of_idle (choose_of_none_enabled hrx htx hhost (by simp [hp]))

/-- Settles O16: with FQ empty FSM.POP holds, and a pending POP is not enabled. -/
theorem popWithoutFrameWaits : Obligations.PopWithoutFrameWaits := by
  intro s hfq
  refine ⟨execFsmPop_of_empty hfq, fun hp hrx htx hhost => ?_⟩
  have hwaits : ∀ x ∈ s.pending, stimulusEnabled s x = false := by simp [hp, stimulusEnabled, hfq]
  exact step_of_idle (choose_of_none_enabled hrx htx hhost hwaits)

/-! ### The tiers -/

/-- With USB.RX at rest and nothing ready outside the device, the highest tier goes first (60_exceptions.md R205). -/
theorem choose_of_high {s : State} {x : Stimulus} {rest : List Stimulus} (hd : s.deviceMoves) (hrx : s.rxPhase = .idle)
    (h : firstOfTier .high s = some (x, rest)) : choose s = .take x rest := by
  simp only [choose_device hd, chooseDevice, hrx, h]

theorem choose_of_middle {s : State} {x : Stimulus} {rest : List Stimulus} (hd : s.deviceMoves)
    (hrx : s.rxPhase = .idle) (hhigh : firstOfTier .high s = none) (h : firstOfTier .middle s = some (x, rest)) :
    choose s = .take x rest := by
  simp only [choose_device hd, chooseDevice, chooseBelowHigh, hrx, hhigh, h]

/-- With none of the two higher tiers the lowest is left (60_exceptions.md R206). -/
theorem choose_eq_chooseLow {s : State} (hd : s.deviceMoves) (hrx : s.rxPhase = .idle)
    (hhigh : firstOfTier .high s = none) (hmiddle : firstOfTier .middle s = none) : choose s = chooseLow s := by
  simp only [choose_device hd, chooseDevice, chooseBelowHigh, hrx, hhigh, hmiddle]

/-- An event of the highest tier has a step in every state. -/
theorem stimulusEnabled_of_high {x : Stimulus} (s : State) (h : stimulusTier x = .high) :
    stimulusEnabled s x = true := by
  cases x with
  | pop => cases h
  | host op => cases h
  | _ => rfl

/-- Settles O49: the first of its tier is what the scheduler finds, with no event of a higher tier before it. -/
theorem highestTierGoesFirst : Obligations.HighestTierGoesFirst := by
  refine ⟨fun _ _ _ _ _ _ => ⟨rfl, rfl, rfl, rfl, rfl, rfl⟩, fun before after x s hp hrx hd => ⟨?_, ?_, ?_⟩⟩
  · intro i htier hbefore hdecode
    have hfirst := firstOfTier_eq_some hp (fun y hy => .inl (hbefore y hy)) htier (stimulusEnabled_of_high s htier)
    exact step_of_take (choose_of_high hd hrx hfirst) hdecode
  · rintro k rfl hhigh hbefore
    have hnone : firstOfTier .high s = none := firstOfTier_eq_none fun y hy => .inl (hhigh y hy)
    have hfirst := firstOfTier_eq_some (t := .middle) hp (fun y hy => .inl (hbefore y hy)) rfl rfl
    simp only [step, choose_of_middle hd hrx hnone hfirst]
    rfl
  · intro i htier habove htx hbefore henabled hdecode
    have hhigh : firstOfTier .high s = none := firstOfTier_eq_none fun y hy => .inl (habove y hy).1
    have hmiddle : firstOfTier .middle s = none := firstOfTier_eq_none fun y hy => .inl (habove y hy).2
    have hfirst := firstOfTier_eq_some hp (fun y hy => .inr (hbefore y hy)) htier henabled
    refine step_of_take ?_ hdecode
    rw [choose_eq_chooseLow hd hrx hhigh hmiddle]
    simp [chooseLow, htx, hfirst]

end Sys2Proof.Machine
end

section
/-! SUPPORT. The device's transmission: what USB.TX sends, its write loop over the transport's answers, and the lowest
tier behind it (42_control_packets.md R171, R174; 41_frame.md R127; 60_exceptions.md R206): O15, O35, O41, O42, O43. -/

namespace Sys2Proof.Machine

/-! ### The write loop -/

/-- The write loop from the start of a step: the calls it makes, the bytes accepted, when it ends, and what stays. -/
theorem txRun_fresh {s : State} (rs : List WriteReply) (hsent : s.txSent ≤ s.txLen)
    (hbuf : s.txLen ≤ s.txBuf.length) :
    ∃ t, txRun rs s.fresh = t ∧
      t.outputs = writeCalls ((s.txBuf.take s.txLen).drop s.txSent) rs ∧
      t.txSent = min s.txLen (s.txSent + acceptedBytes rs) ∧ (t.txLoop = true ↔ t.txSent < s.txLen) ∧
      t = { s with
        txSent := t.txSent, txLoop := t.txLoop, usbWrites := rs.drop t.outputs.length, outputs := t.outputs } := by
  obtain ⟨houtputs, hwrites⟩ := txRun_calls rs s.fresh hbuf
  obtain ⟨hmoved, hloop⟩ := txRun_sent rs s.fresh hsent
  obtain ⟨sent, loop, left, o, he⟩ := txRun_frame rs s.fresh
  generalize txRun rs s.fresh = t at *
  have hleft : t.usbWrites = rs.drop t.outputs.length := by
    rw [houtputs]
    exact hwrites
  refine ⟨t, rfl, houtputs, hmoved, hloop, ?_⟩
  rw [← hleft, he]
  rfl

/-! ### USB.TX -/

/-- TX_BUF holds the bytes on the wire first, in either wire mode (30_encoding.md R86). -/
theorem padPacket_take_wireBytes (c : Config) (bytes : List Byte) :
    (padPacket bytes).take (wireBytes c bytes).length = wireBytes c bytes := by
  cases hmode : c.wireMode with
  | logical => simp only [wireBytes, hmode, padPacket_take]
  | full64 => simp only [wireBytes, hmode, List.take_length]

theorem wireBytes_length_le (c : Config) (bytes : List Byte) :
    (wireBytes c bytes).length ≤ (padPacket bytes).length := by
  rw [← padPacket_take_wireBytes]
  exact List.length_take_le' _ _

/-- USB.TX of a response that fits: the packet is loaded and the write loop runs over it (42_control_packets.md R171). -/
theorem startTx_spec {p : Response} {s : State} (hloop : s.txLoop = false) (hp : p.wellFormed s.cfg = true) :
    ∃ t, startTx p s = .next t ∧
      t.txBuf = padPacket (encResponse s.cfg p) ∧ t.txLen = (wireBytes s.cfg (encResponse s.cfg p)).length ∧
      t.txSent = min t.txLen (acceptedBytes s.usbWrites) ∧ (t.txLoop = true ↔ t.txSent < t.txLen) ∧
      t.outputs = writeCalls (wireBytes s.cfg (encResponse s.cfg p)) s.usbWrites ∧
      t = { s with
        txBuf := t.txBuf, txLen := t.txLen, txSent := t.txSent, txLoop := t.txLoop
        usbWrites := s.usbWrites.drop t.outputs.length, outputs := t.outputs } := by
  obtain ⟨t, ht, houtputs, hsent, hgoes, hframe⟩ :=
    txRun_fresh (s := loadTx p s) s.usbWrites (Nat.zero_le _) (wireBytes_length_le s.cfg (encResponse s.cfg p))
  have hbuf : t.txBuf = padPacket (encResponse s.cfg p) := by rw [hframe]; rfl
  have hlen : t.txLen = (wireBytes s.cfg (encResponse s.cfg p)).length := by rw [hframe]; rfl
  have hoffered : (((loadTx p s).txBuf.take (loadTx p s).txLen).drop (loadTx p s).txSent) =
      wireBytes s.cfg (encResponse s.cfg p) := padPacket_take_wireBytes s.cfg (encResponse s.cfg p)
  rw [hoffered] at houtputs
  refine ⟨t, (startTx_eq hloop hp).trans (congrArg _ ht), hbuf, hlen, ?_, ?_, houtputs, ?_⟩
  · rw [hsent, hlen]
    simp only [loadTx, Nat.zero_add]
  · rw [hgoes, hlen]
    rfl
  · rw [hbuf, hlen]
    exact hframe

theorem wireBytes_eq_ite (c : Config) (bytes : List Byte) :
    wireBytes c bytes = if c.wireMode = .full64 then padPacket bytes else bytes := by
  cases hmode : c.wireMode <;> simp [wireBytes, hmode]

/-- Settles O41: `startTx_spec`, with the length on the wire written by the wire mode. -/
theorem transmitUntilAccepted : Obligations.TransmitUntilAccepted := by
  intro p s hloop hp
  obtain ⟨t, ht, hbuf, hlen, hrest⟩ := startTx_spec hloop hp
  rw [wireBytes_eq_ite] at hlen
  exact ⟨t, ht, hbuf, hlen, hrest⟩

/-- Settles O15: the head fits a packet, since FQ is within its bounds, and USB.TX of it runs on the other frames. -/
theorem popSendsOldestFrame : Obligations.PopSendsOldestFrame := by
  intro f rest s h hfq hloop
  have hf : (Response.params f).wellFormed s.cfg = true :=
    params_wellFormed_of_mem_fq h (by rw [hfq]; exact List.mem_cons_self)
  obtain ⟨t, ht, hbuf, hlen, -⟩ := startTx_spec (s := { s with fq := rest }) hloop hf
  exact ⟨t, (execFsmPop_of_free hfq hloop).trans ht, ht, hbuf, hlen, startTx_frame ht⟩

/-- Settles O35: each answer is USB.TX of the drawn response, after the draw. -/
theorem getVersionAndPingAreAnswered : Obligations.GetVersionAndPingAreAnswered := by
  intro payload version s h
  refine ⟨fun hloop => ⟨?_, ?_⟩, fun hloop => ⟨?_, ?_⟩⟩
  · have hwf := version_wellFormed h.cfg (Config.freeVersionN s.draws) s.draws
    obtain ⟨t, ht⟩ := startTx_next { s with draws := s.draws + 1 } hwf
    exact ⟨_, _, _, t, versionBody_length_add_one h.cfg s.draws, (execReqGetVersion_of_free hloop).trans ht, ht,
      startTx_frame ht⟩
  · obtain ⟨t, ht⟩ := startTx_next (p := .pong (Config.freePongPayload s.draws) (Config.freePongVersion s.draws))
      { s with draws := s.draws + 1 } rfl
    exact ⟨_, _, _, t, (execReqPing_of_free payload version hloop).trans ht, ht, startTx_frame ht⟩
  · exact execReqGetVersion_of_busy hloop
  · exact execReqPing_of_busy payload version hloop

/-! ### The loop over later steps -/

/-- With no answer from the transport a loop that goes on changes nothing. -/
theorem txContinue_of_no_answer {s : State} (h : s.Inv) (hloop : s.txLoop = true) (hwrites : s.usbWrites = []) :
    txContinue s = s.fresh := by
  have hleft : s.txSent < s.txLen := h.txLoop hloop
  rw [txContinue, hwrites, txRun, State.ext_iff]
  simp [hleft, hloop, hwrites]

/-- While the write loop runs and no event of a higher tier is ready, the step is the loop's (60_exceptions.md R206). -/
theorem step_of_txLoop {s : State} (h : s.Inv) (hloop : s.txLoop = true) (hd : s.deviceMoves) (hrx : s.rxPhase = .idle)
    (hp : ∀ x ∈ s.pending, stimulusTier x ≠ .high ∧ stimulusTier x ≠ .middle) :
    step s = .next (txContinue s) := by
  have hlow : choose s = chooseLow s :=
    choose_eq_chooseLow hd hrx (firstOfTier_eq_none fun x hx => .inl (hp x hx).1)
      (firstOfTier_eq_none fun x hx => .inl (hp x hx).2)
  cases hwrites : s.usbWrites with
  | nil =>
    rw [txContinue_of_no_answer h hloop hwrites]
    exact step_of_idle (by simp [hlow, chooseLow, hloop, hwrites])
  | cons r rs =>
    have hchoose : choose s = .txLoop := by simp [hlow, chooseLow, hloop, hwrites]
    simp only [step, hchoose]

/-- Settles O42: the step is the loop's own, whose calls and progress `txRun_fresh` gives. -/
theorem writeCallResumes : Obligations.WriteCallResumes := by
  intro s h hnext
  have hstep : step s = .next (txContinue s) := by
    obtain hchoose | ⟨hloop, hd, hrx, hp⟩ := hnext
    · simp only [step, hchoose]
    · exact step_of_txLoop h hloop hd hrx hp
  obtain ⟨t, ht, houtputs, hsent, hgoes, hframe⟩ :=
    txRun_fresh s.usbWrites h.txSent (h.txLen.2.trans h.txBuf.ge)
  refine ⟨t, hstep.trans (congrArg _ ht), houtputs, hsent, ?_, hframe⟩
  rw [Bool.eq_iff_iff, decide_eq_true_iff]
  exact hgoes

/-! ### A transport that accepts nothing -/

/-- `t` has the transmission of `s`, and the pending stimuli of `s` with others behind them. -/
structure KeepsTransmission (s t : State) : Prop where
  loop : t.txLoop = s.txLoop
  sent : t.txSent = s.txSent
  len : t.txLen = s.txLen
  buf : t.txBuf = s.txBuf
  writes : t.usbWrites = s.usbWrites
  pending : ∃ handed, t.pending = s.pending ++ handed

theorem KeepsTransmission.of_pending_eq {s t : State} (hloop : t.txLoop = s.txLoop) (hsent : t.txSent = s.txSent)
    (hlen : t.txLen = s.txLen) (hbuf : t.txBuf = s.txBuf) (hwrites : t.usbWrites = s.usbWrites)
    (hp : t.pending = s.pending) : KeepsTransmission s t :=
  ⟨hloop, hsent, hlen, hbuf, hwrites, [], by rw [hp, List.append_nil]⟩

/-- While a transmission is on its way no operation touches it, for those that would start another wait. -/
theorem Effect.keepsTransmission {i : Instr} {s t : State} (h : Effect s i t) (hloop : s.txLoop = true) :
    KeepsTransmission s t := by
  cases h with
  | transmitted _ hfree => rw [hloop] at hfree; cases hfree
  | popped _ hfree => rw [hloop] at hfree; cases hfree
  | advanced _ ht => rw [fsmAdvance_frame ht]; exact .of_pending_eq rfl rfl rfl rfl rfl rfl
  | framed f => rw [emitFrame_eq]; exact .of_pending_eq rfl rfl rfl rfl rfl rfl
  | received x polls reads ph buf len handed => exact ⟨rfl, rfl, rfl, rfl, rfl, handed, rfl⟩
  | answered | emitted | hosted => exact .of_pending_eq rfl rfl rfl rfl rfl rfl

theorem hostContinue_keepsTransmission (s : State) : KeepsTransmission s (hostContinue s) := by
  obtain ⟨a, ph, ws, rs, o, d, he⟩ := hostContinue_frame s
  rw [he]
  exact .of_pending_eq rfl rfl rfl rfl rfl rfl

theorem rxContinue_keepsTransmission (s : State) : KeepsTransmission s (rxContinue s) := by
  obtain ⟨handed, he⟩ := rxContinue_frame s
  rw [he]
  exact ⟨rfl, rfl, rfl, rfl, rfl, handed, rfl⟩

/-- While the write loop runs the scheduler takes no task of the lowest tier (60_exceptions.md R206). -/
theorem choose_take_of_txLoop {s : State} {x : Stimulus} {rest : List Stimulus} (hloop : s.txLoop = true)
    (h : choose s = .take x rest) : ∃ t, t ≠ .low ∧ firstOfTier t s = some (x, rest) := by
  have hfirst : firstOfTier .outside s = some (x, rest) ∨ firstOfTier .high s = some (x, rest) ∨
      firstOfTier .middle s = some (x, rest) := by
    simp only [choose, chooseDevice, chooseBelowHigh, chooseLow, hloop] at h
    grind
  obtain h | h | h := hfirst
  · exact ⟨.outside, by decide, h⟩
  · exact ⟨.high, by decide, h⟩
  · exact ⟨.middle, by decide, h⟩

/-- Taking a stimulus of another tier leaves the tasks of the lowest one as they were. -/
theorem lowPending_take {s : State} {x : Stimulus} {rest : List Stimulus} {t : Tier} (ht : t ≠ .low)
    (h : firstOfTier t s = some (x, rest)) : { s with pending := rest }.lowPending = s.lowPending := by
  obtain ⟨rfl, before, after, hp, rfl⟩ := of_firstOfTier_eq_some h
  simp [State.lowPending, hp, ht]

/-- Whatever keeps the transmission keeps the tasks of the lowest tier, in order, before those handed on. -/
theorem KeepsTransmission.lowPending {s t : State} (h : KeepsTransmission s t) :
    ∃ handed, t.lowPending = s.lowPending ++ handed := by
  obtain ⟨handed, hp⟩ := h.pending
  exact ⟨handed.filter fun x => stimulusTier x == .low, by rw [State.lowPending, hp, List.filter_append]; rfl⟩

/-- The calls of a write loop that nothing is accepted of move nothing (42_control_packets.md R171). -/
theorem txContinue_of_acceptsNothing {s : State} (h : s.Inv) (hloop : s.txLoop = true)
    (hnone : acceptsNothing s.usbWrites) :
    ∃ n o, txContinue s = { s with usbWrites := s.usbWrites.drop n, outputs := o } := by
  obtain ⟨t, ht, -, hsent, hgoes, hframe⟩ := txRun_fresh s.usbWrites h.txSent (h.txLen.2.trans h.txBuf.ge)
  have hstill : t.txSent = s.txSent := by
    rw [hsent, acceptedBytes_eq_zero hnone, Nat.add_zero, min_eq_right h.txSent]
  have hruns : t.txLoop = s.txLoop := by rw [hloop, hgoes, hstill]; exact h.txLoop hloop
  rw [hstill, hruns] at hframe
  exact ⟨_, _, ht.trans hframe⟩

/-- Settles O43: the loop's own step moves nothing, and every other move keeps the transmission and the lowest tier. -/
theorem transmitNeverGivesUp : Obligations.TransmitNeverGivesUp := by
  intro s t h hloop hnone hstep
  have hkeeps : KeepsTransmission s t → t.txLoop = true ∧ t.txSent = s.txSent ∧ t.txLen = s.txLen ∧
      t.txBuf = s.txBuf ∧ acceptsNothing t.usbWrites ∧ ∃ handed, t.lowPending = s.lowPending ++ handed :=
    fun k => ⟨k.loop.trans hloop, k.sent, k.len, k.buf, k.writes ▸ hnone, k.lowPending⟩
  obtain ⟨-, rfl⟩ | ⟨-, rfl⟩ | ⟨-, rfl⟩ | ⟨-, rfl⟩ | ⟨x, rest, hchoose, htake⟩ := step_next hstep
  · exact hkeeps (hostContinue_keepsTransmission s)
  · exact hkeeps (rxContinue_keepsTransmission s)
  · obtain ⟨n, o, he⟩ := txContinue_of_acceptsNothing h hloop hnone
    rw [he]
    exact ⟨hloop, rfl, rfl, rfl, fun r hr => hnone r (List.mem_of_mem_drop hr), [], (List.append_nil _).symm⟩
  · exact hkeeps (.of_pending_eq rfl rfl rfl rfl rfl rfl)
  · obtain ⟨tier, htier, hfirst⟩ := choose_take_of_txLoop hloop hchoose
    have htaken : KeepsTransmission { s with pending := rest } t := by
      obtain ⟨k, rfl⟩ | ⟨i, -, hexec⟩ := htake
      · exact .of_pending_eq rfl rfl rfl rfl rfl rfl
      · exact (exec_effect hexec).keepsTransmission hloop
    have hlow := htaken.lowPending
    rw [lowPending_take htier hfirst] at hlow
    exact ⟨htaken.loop.trans hloop, htaken.sent, htaken.len, htaken.buf, htaken.writes ▸ hnone, hlow⟩

end Sys2Proof.Machine
end

section
/-! SUPPORT. The device's receive: its polls and reads over the transport's answers, from the start of USB.RX and in a
later step (42_control_packets.md R170): O38, O39, O40. -/

namespace Sys2Proof.Machine

/-! ### The polls, from the start of a step -/

/-- Polls that all block leave USB.RX at its poll. -/
theorem pollRun_all_block (j : Nat) (s : State) :
    pollRun (List.replicate j .wouldBlock) s.fresh = { s with
      rxPhase := .polling, usbPolls := [], outputs := List.replicate j (.usbPoll .wouldBlock) } := by
  have h := pollRun_blocks j [] s.fresh
  rw [List.append_nil] at h
  rw [h]
  rfl

/-- A poll that is false ends USB.RX. -/
theorem pollRun_then_quiet (j : Nat) (s : State) :
    pollRun (List.replicate j .wouldBlock ++ [.ready false]) s.fresh = { s with
      rxPhase := .idle, usbPolls := []
      outputs := List.replicate j (.usbPoll .wouldBlock) ++ [.usbPoll (.ready false)] } := by
  rw [pollRun_blocks]
  rfl

/-- A poll that is true starts the reads. -/
theorem pollRun_then_ready (j : Nat) (s : State) :
    pollRun (List.replicate j .wouldBlock ++ [.ready true]) s.fresh = rxRun s.usbReads { s with
      usbPolls := [], outputs := List.replicate j (.usbPoll .wouldBlock) ++ [.usbPoll (.ready true)] } := by
  rw [pollRun_blocks]
  rfl

/-! ### The reads -/

/-- Reads that all block leave USB.RX in its read loop (92_eei_decisions.md D25). -/
theorem rxRun_all_block (k : Nat) (s : State) :
    rxRun (List.replicate k .wouldBlock) s = { s with
      rxPhase := .reading, usbReads := [], outputs := s.outputs ++ List.replicate k (.usbRead .wouldBlock) } := by
  have h := rxRun_blocks k [] s
  rw [List.append_nil] at h
  rw [h]
  rfl

/-- A read that does not block ends USB.RX with its packet received. -/
theorem rxRun_then_data (k : Nat) {bytes : List Byte} (s : State) (h : bytes.length ≤ pktCapacity) :
    rxRun (List.replicate k .wouldBlock ++ [.data bytes]) s = { afterReceive bytes
      (s.outputs ++ List.replicate k (.usbRead .wouldBlock) ++ [.usbRead (.data bytes)]) s with
        usbPolls := s.usbPolls } := by
  rw [rxRun_blocks, rxRun, rxTake_eq _ h]
  rfl

/-- A poll that is true, and then a read that does not block: one packet is received. -/
theorem pollRun_then_data (j k : Nat) {bytes : List Byte} {s : State} (h : bytes.length ≤ pktCapacity)
    (hreads : s.usbReads = List.replicate k .wouldBlock ++ [.data bytes]) :
    pollRun (List.replicate j .wouldBlock ++ [.ready true]) s.fresh = afterReceive bytes
      (List.replicate j (.usbPoll .wouldBlock) ++ [.usbPoll (.ready true)] ++
        List.replicate k (.usbRead .wouldBlock) ++ [.usbRead (.data bytes)]) s := by
  rw [pollRun_then_ready, hreads, rxRun_then_data k _ h]
  rfl

/-! ### USB.RX at its start, and in a later step -/

theorem exec_usbRx_of_idle {s : State} (x : RxInput) (h : s.rxPhase = .idle) :
    exec (.usbRx x) s = .next (pollRun (rxArrive x s).usbPolls (rxArrive x s).fresh) := by
  simp only [exec, execUsbRx, h]

/-- A USB.RX that arrives while another runs waits for it (60_exceptions.md R206). -/
theorem exec_usbRx_of_busy {s : State} (x : RxInput) (h : s.rxPhase ≠ .idle) :
    exec (.usbRx x) s = .next s.hold := by
  cases hphase : s.rxPhase with
  | idle => exact absurd hphase h
  | polling => simp only [exec, execUsbRx, hphase]
  | reading => simp only [exec, execUsbRx, hphase]

/-- A USB.RX at its poll holds the device, whether or not the transport answers. -/
theorem step_of_polling {s : State} (hphase : s.rxPhase = .polling) (hd : s.deviceMoves) :
    step s = .next (pollRun s.usbPolls s.fresh) := by
  have hchoose : choose s = if s.usbPolls.isEmpty then .idle else .rxLoop := by
    rw [choose_device hd]
    cases hpolls : s.usbPolls <;> simp [chooseDevice, rxReady, hphase, hpolls]
  cases hpolls : s.usbPolls with
  | nil =>
    have hsame : pollRun [] s.fresh = s.fresh := by simp [pollRun, State.ext_iff, hphase, hpolls]
    rw [hsame, step_of_idle (by simp [hchoose, hpolls])]
  | cons p ps =>
    have hloop : choose s = .rxLoop := by simp [hchoose, hpolls]
    simp only [step, hloop, rxContinue, hphase, hpolls]

/-- A USB.RX in its read loop holds the device, whether or not the transport answers. -/
theorem step_of_reading {s : State} (hphase : s.rxPhase = .reading) (hd : s.deviceMoves) :
    step s = .next (rxRun s.usbReads s.fresh) := by
  have hchoose : choose s = if s.usbReads.isEmpty then .idle else .rxLoop := by
    rw [choose_device hd]
    cases hreads : s.usbReads <;> simp [chooseDevice, rxReady, hphase, hreads]
  cases hreads : s.usbReads with
  | nil =>
    have hsame : rxRun [] s.fresh = s.fresh := by simp [rxRun, State.ext_iff, hphase, hreads]
    rw [hsame, step_of_idle (by simp [hchoose, hreads])]
  | cons r rs =>
    have hloop : choose s = .rxLoop := by simp [hchoose, hreads]
    simp only [step, hloop, rxContinue, hphase, hreads]

/-! ### The obligations -/

/-- Settles O38: the polls end at the one that is false, which USB.RX brings or the transport gives. -/
theorem quietPollDoesNothing : Obligations.QuietPollDoesNothing := by
  intro j s
  refine ⟨fun hphase hpolls => ?_, fun hphase hd hpolls => ?_⟩
  · rw [exec_usbRx_of_idle _ hphase, rxArrive, hpolls, pollRun_then_quiet, ← hphase]
  · rw [step_of_polling hphase hd, hpolls, pollRun_then_quiet]

/-- Settles O39: the packet stands after the answers already there, so each run ends in `rxRun_then_data`. -/
theorem receiveHandsOnOneRequest : Obligations.ReceiveHandsOnOneRequest := by
  intro j k bytes s hfit
  refine ⟨fun hphase hpolls hreads => ?_, fun hphase hd hpolls hreads => ?_, fun hphase hd hreads => ?_⟩
  · rw [exec_usbRx_of_idle _ hphase, rxArrive, hpolls, hreads, pollRun_then_data j k hfit rfl]
    rfl
  · rw [step_of_polling hphase hd, hpolls, pollRun_then_data j k hfit hreads]
  · rw [step_of_reading hphase hd, hreads, rxRun_then_data k _ hfit]
    rfl

/-- Settles O40: answers that all block leave USB.RX at the call it makes. -/
theorem blockedReceiveKeepsLooping : Obligations.BlockedReceiveKeepsLooping := by
  intro j k s
  refine ⟨fun hphase hpolls => ⟨?_, fun hreads => ?_⟩, fun hphase hd hpolls => ?_, fun hphase hd hreads => ?_,
    fun hphase x => exec_usbRx_of_busy x hphase⟩
  · rw [exec_usbRx_of_idle _ hphase, rxArrive, hpolls, pollRun_all_block]
  · rw [exec_usbRx_of_idle _ hphase, rxArrive, hpolls, hreads, pollRun_then_ready, rxRun_all_block]
  · rw [step_of_polling hphase hd, hpolls, pollRun_all_block, ← hphase]
  · rw [step_of_reading hphase hd, hreads, rxRun_all_block, ← hphase]
    rfl

end Sys2Proof.Machine
end

section
/-! SUPPORT. Streams of words fed to an idle block (20_memory.md R59; 41_frame.md R129 to R131): O19, O20, O21. -/

namespace Sys2Proof.Machine

/-! ### One word, and one after the other -/

/-- A word fed to an idle block is given to FSM.ADVANCE by the next step (20_memory.md R59). -/
theorem step_deliver_feed {s : State} (h : s.quiescent) (w : Word) :
    step (s.deliver (.feed w)) = fsmAdvance w s.fresh := by
  obtain ⟨hp, hrx, htx, hhost⟩ := h
  have hlone : (s.deliver (.feed w)).pending = [.feed w] := by rw [State.deliver_pending, hp]; rfl
  have htaken : { s.deliver (.feed w) with pending := [] }.fresh = s.fresh := by
    simp [State.ext_iff, hp]
  rw [step_of_take (choose_lone hlone hrx htx hhost rfl) rfl, exec_instrOfWord, htaken]

theorem feedAll_cons {s t : State} (h : s.quiescent) {w : Word} (ws : List Word) (ht : fsmAdvance w s.fresh = .next t) :
    feedAll (w :: ws) s = feedAll ws t := by
  rw [feedAll, step_deliver_feed h, ht]

theorem feedAll_append {us : List Word} (vs : List Word) {s t : State} (h : feedAll us s = .next t) :
    feedAll (us ++ vs) s = feedAll vs t := by
  induction us generalizing s with
  | nil => cases h; rfl
  | cons w us ih =>
    rw [List.cons_append, feedAll]
    rw [feedAll] at h
    cases hstep : step (s.deliver (.feed w)) with
    | next r => rw [hstep] at h; exact ih h
    | fault e => rw [hstep] at h; cases h
    | refused e => rw [hstep] at h; cases h

/-- A block that idles, with this configuration, this ProtocolState and these frames in FQ. -/
structure IdleIn (c : Config) (f : ProtocolState) (q : List (List Word)) (s : State) : Prop where
  quiescent : s.quiescent
  cfg : s.cfg = c
  fsm : s.fsm = f
  fq : s.fq = q

/-- Feeding the words ends in a block that idles so. -/
def Reaches (ws : List Word) (s : State) (c : Config) (f : ProtocolState) (q : List (List Word)) : Prop :=
  ∃ t, feedAll ws s = .next t ∧ IdleIn c f q t

section Streams

variable {c : Config} {f f' : ProtocolState} {q q' : List (List Word)} {s : State}

theorem IdleIn.reaches (h : IdleIn c f q s) : Reaches [] s c f q := ⟨s, rfl, h⟩

theorem Reaches.append {us vs : List Word} (h : Reaches us s c f q)
    (hrest : ∀ t, IdleIn c f q t → Reaches vs t c f' q') :
    Reaches (us ++ vs) s c f' q' := by
  obtain ⟨t, ht, hidle⟩ := h
  obtain ⟨u, hu, hend⟩ := hrest t hidle
  exact ⟨u, (feedAll_append vs ht).trans hu, hend⟩

/-- A word leaves the block idle, with the successor FSM.ADVANCE gives. -/
theorem IdleIn.word (h : IdleIn c f q s) {w : Word} {t : State} (ht : fsmAdvance w s.fresh = .next t)
    (hf : t.fsm = f') (hq : t.fq = q') : Reaches [w] s c f' q' := by
  have hframe := fsmAdvance_frame ht
  refine ⟨t, by rw [feedAll_cons h.quiescent [] ht, feedAll], ⟨?_, ?_, hf, hq⟩⟩
  · rw [hframe]
    exact h.quiescent
  · rw [hframe]
    exact h.cfg

/-! ### DetectMarker and DetectParamsCount -/

theorem IdleIn.detectMarker (h : IdleIn c .detectMarker q s) {w : Word} (hw : w ≠ sentinel) :
    Reaches [w] s c .detectMarker q := by
  have ht : fsmAdvance w s.fresh = .next (advanceDm w s.fresh) := by simp only [fsmAdvance, State.fresh_fsm, h.fsm]
  rw [advanceDm_eq, if_neg hw] at ht
  exact h.word ht rfl h.fq

theorem IdleIn.detectMarker_sentinel (h : IdleIn c .detectMarker q s) :
    Reaches [sentinel] s c (.detectParamsCount 0) q := by
  have ht : fsmAdvance sentinel s.fresh = .next (advanceDm sentinel s.fresh) := by
    simp only [fsmAdvance, State.fresh_fsm, h.fsm]
  rw [advanceDm_eq, if_pos rfl] at ht
  exact h.word ht rfl h.fq

theorem IdleIn.detectParamsCount {n : Nat} (h : IdleIn c (.detectParamsCount n) q s) {w : Word} (hw : w ≠ sentinel) :
    Reaches [w] s c (.detectParamsCount (min (n + 1) (c.maxParams + 1))) q := by
  have ht : fsmAdvance w s.fresh = .next (advanceDpcCount n s.fresh) := by
    simp only [fsmAdvance, State.fresh_fsm, h.fsm, if_neg hw]
  exact h.word ht (by rw [← h.cfg]; rfl) h.fq

/-- Words other than the sentinel leave DetectMarker (41_frame.md R121). -/
theorem IdleIn.detectMarker_words (h : IdleIn c .detectMarker q s) {us : List Word} (hus : ∀ w ∈ us, w ≠ sentinel) :
    Reaches us s c .detectMarker q := by
  induction us generalizing s with
  | nil => exact h.reaches
  | cons w us ih =>
    rw [List.forall_mem_cons] at hus
    exact (h.detectMarker hus.1).append fun t ht => ih ht hus.2

/-- The words after a sentinel are counted up to MAX_PARAMS + 1 (41_frame.md R122). -/
theorem IdleIn.detectParamsCount_words {n : Nat} (h : IdleIn c (.detectParamsCount n) q s) (hn : n ≤ c.maxParams + 1)
    {vs : List Word} (hvs : ∀ w ∈ vs, w ≠ sentinel) :
    Reaches vs s c (.detectParamsCount (min (n + vs.length) (c.maxParams + 1))) q := by
  induction vs generalizing s n with
  | nil =>
    rw [List.length_nil, Nat.add_zero, min_eq_left hn]
    exact h.reaches
  | cons w vs ih =>
    rw [List.forall_mem_cons] at hvs
    have hcount : min (n + (w :: vs).length) (c.maxParams + 1) =
        min (min (n + 1) (c.maxParams + 1) + vs.length) (c.maxParams + 1) := by
      rw [List.length_cons]
      omega
    rw [hcount]
    exact (h.detectParamsCount hvs.1).append fun t ht => ih ht (min_le_right _ _) hvs.2

/-! ### Capture of a frame -/

/-- The words of a frame are stored whatever their values, and the last one pushes it (41_frame.md R125, R126). -/
theorem IdleIn.readParams_words {b : ParamsBuffer} (h : IdleIn c (.readParams b) q s) (hroom : q.length < queueDepth)
    (hdata : b.expected ≤ b.data.length) {ps : List Word} (hlen : b.cursor + ps.length = b.expected)
    (hne : ps ≠ []) : Reaches ps s c (.waitForMarker b.expected) (q ++ [b.data.take b.cursor ++ ps]) := by
  induction ps generalizing s b with
  | nil => exact absurd rfl hne
  | cons w ws ih =>
    rw [List.length_cons] at hlen
    have hcursor : b.cursor < b.expected := by omega
    have ht : fsmAdvance w s.fresh = advanceRp b w s.fresh := by simp only [fsmAdvance, State.fresh_fsm, h.fsm]
    rw [advanceRp_eq w s.fresh ⟨hcursor, hdata⟩] at ht
    cases ws with
    | nil =>
      have hpush : s.fresh.fq.length < queueDepth := by rwa [State.fresh_fq, h.fq]
      have hlast : b.cursor + 1 = b.expected := hlen
      rw [if_pos hlast, emitFrame_of_lt _ hpush] at ht
      exact h.word ht rfl (by rw [← h.fq]; rfl)
    | cons w' ws =>
      rw [List.length_cons] at hlen
      rw [if_neg (by omega)] at ht
      have hstored : (b.data.set b.cursor w).take (b.cursor + 1) = b.data.take b.cursor ++ [w] := by
        rw [List.take_add_one]
        simp [List.take_set, List.set_eq_of_length_le, show b.cursor < b.data.length by omega]
      have hrest := (h.word ht rfl h.fq).append (vs := w' :: ws) fun t hidle =>
        ih hidle (by simpa using hdata) (by simp only [List.length_cons]; omega) (List.cons_ne_nil _ _)
      simpa [hstored] using hrest

/-- A sentinel that enters ReadParams and the words behind it add one frame. -/
theorem Reaches.frame {n : Nat} {data ps : List Word}
    (h : Reaches [sentinel] s c (.readParams ⟨n, 0, data⟩) q) (hroom : q.length < queueDepth)
    (hdata : data.length = c.maxParams) (hn : 1 ≤ n ∧ n ≤ c.maxParams) (hps : ps.length = n) :
    Reaches (sentinel :: ps) s c (.waitForMarker n) (q ++ [ps]) :=
  h.append (vs := ps) fun _ ht => ht.readParams_words hroom (hn.2.trans hdata.ge) (by rw [Nat.zero_add, hps])
    (List.ne_nil_of_length_pos (by omega))

/-- From a count of 1 to MAX_PARAMS a sentinel opens the frame (41_frame.md R123). -/
theorem IdleIn.detectParamsCount_frame {n : Nat} (h : IdleIn c (.detectParamsCount n) q s)
    (hroom : q.length < queueDepth) (hn : 1 ≤ n ∧ n ≤ c.maxParams) {ps : List Word} (hps : ps.length = n) :
    Reaches (sentinel :: ps) s c (.waitForMarker n) (q ++ [ps]) := by
  obtain ⟨data, d, hdata, hnext⟩ := advanceDpcSentinel_eq n s.fresh
  have ht : fsmAdvance sentinel s.fresh = .next (advanceDpcSentinel n s.fresh) := by
    simp only [fsmAdvance, State.fresh_fsm, h.fsm, if_true]
  rw [State.fresh_cfg, h.cfg] at hdata
  rw [hnext, State.fresh_cfg, h.cfg, if_neg (by omega), if_neg (by omega)] at ht
  exact (h.word ht rfl h.fq).frame hroom hdata hn hps

/-- In WaitForMarker a sentinel opens a frame of the learned count (41_frame.md R124). -/
theorem IdleIn.waitForMarker_frame {n : Nat} (h : IdleIn c (.waitForMarker n) q s)
    (hroom : q.length < queueDepth) (hn : 1 ≤ n ∧ n ≤ c.maxParams) {ps : List Word} (hps : ps.length = n) :
    Reaches (sentinel :: ps) s c (.waitForMarker n) (q ++ [ps]) := by
  obtain ⟨data, d, hdata, hnext⟩ := advanceWfm_eq n sentinel s.fresh
  have ht : fsmAdvance sentinel s.fresh = .next (advanceWfm n sentinel s.fresh) := by
    simp only [fsmAdvance, State.fresh_fsm, h.fsm]
  rw [State.fresh_cfg, h.cfg] at hdata
  rw [hnext, if_pos rfl] at ht
  exact (h.word ht rfl h.fq).frame hroom hdata hn hps

/-- Under `ignore` stray words leave WaitForMarker (41_frame.md R124). -/
theorem IdleIn.waitForMarker_words {n : Nat} (h : IdleIn c (.waitForMarker n) q s) (hpolicy : c.strayPolicy = .ignore)
    {js : List Word} (hjs : ∀ w ∈ js, w ≠ sentinel) : Reaches js s c (.waitForMarker n) q := by
  induction js generalizing s with
  | nil => exact h.reaches
  | cons w js ih =>
    rw [List.forall_mem_cons] at hjs
    have ht : fsmAdvance w s.fresh = .next { s.fresh with fsm := .waitForMarker n } := by
      simp only [fsmAdvance, State.fresh_fsm, h.fsm, advanceWfm, if_neg hjs.1, State.fresh_cfg, h.cfg, hpolicy]
    exact (h.word ht rfl h.fq).append fun t hidle => ih hidle hjs.2

end Streams

/-! ### The obligations -/

/-- Settles O19: before the sentinel nothing is left of the words but DetectMarker, and after it but their count. -/
theorem noFrameWithoutTwoSentinels : Obligations.NoFrameWithoutTwoSentinels := by
  intro us vs s hquiet hf hus hvs
  have hidle : IdleIn s.cfg .detectMarker s.fq s := ⟨hquiet, rfl, hf, rfl⟩
  have hbefore := hidle.detectMarker_words hus
  have hafter : Reaches (us ++ sentinel :: vs) s s.cfg
      (.detectParamsCount (min (0 + vs.length) (s.cfg.maxParams + 1))) s.fq :=
    hbefore.append fun t ht => ht.detectMarker_sentinel.append fun u hu =>
      hu.detectParamsCount_words (Nat.zero_le _) hvs
  obtain ⟨t, ht, hend⟩ := hbefore
  obtain ⟨u, hu, hcount⟩ := hafter
  rw [Nat.zero_add] at hcount
  exact ⟨⟨t, ht, hend.fsm, hend.fq⟩, u, hu, hcount.fsm, hcount.fq⟩

/-- Settles O20: the count of the first set opens its own frame, and the learned count the next. -/
theorem wellFormedStreamIsCaptured : Obligations.WellFormedStreamIsCaptured := by
  intro qs ps rs s hquiet hf hpos hmax hqs hrs hwords hroom
  have hidle : IdleIn s.cfg .detectMarker s.fq s := ⟨hquiet, rfl, hf, rfl⟩
  have hqwords : ∀ w ∈ qs, w ≠ sentinel := fun w hw =>
    hwords w (List.mem_append_left rs (List.mem_append_left ps hw))
  have hcount : Reaches (sentinel :: qs) s s.cfg (.detectParamsCount ps.length) s.fq := by
    have h := hidle.detectMarker_sentinel.append fun t ht => ht.detectParamsCount_words (Nat.zero_le _) hqwords
    rwa [Nat.zero_add, hqs, min_eq_left (hmax.trans (Nat.le_succ _))] at h
  have hfirst : s.fq.length < queueDepth := by simp only [queueDepth]; omega
  have hsecond : (s.fq ++ [ps]).length < queueDepth := by
    rw [List.length_append]
    simp only [queueDepth, List.length_singleton]
    omega
  obtain ⟨t, ht, hset⟩ := hcount.append fun t ht => ht.detectParamsCount_frame hfirst ⟨hpos, hmax⟩ rfl
  obtain ⟨u, hu, hagain⟩ := hset.waitForMarker_frame hsecond ⟨hpos, hmax⟩ hrs
  exact ⟨t, u, ht, hset.fsm, hset.fq, hu, hagain.fsm, hagain.fq.trans (List.append_assoc _ _ _)⟩

/-- Settles O21: the stray words leave WaitForMarker, where the sentinel opens a frame. -/
theorem captureRealignsAtSentinel : Obligations.CaptureRealignsAtSentinel := by
  intro n js ps s hquiet hpolicy hf hpos hmax hps hjs hroom
  have hidle : IdleIn s.cfg (.waitForMarker n) s.fq s := ⟨hquiet, rfl, hf, rfl⟩
  obtain ⟨t, ht, hend⟩ := (hidle.waitForMarker_words hpolicy hjs).append fun u hu =>
    hu.waitForMarker_frame hroom ⟨hpos, hmax⟩ hps
  exact ⟨t, ht, hend.fsm, hend.fq⟩

end Sys2Proof.Machine
end

section
/-! SUPPORT. Host transfers within and past their budget, from their start and in a later step (42_control_packets.md
R173, 60_exceptions.md R201): O44, O45, O46. -/

namespace Sys2Proof.Machine

/-! ### After the failed attempts -/

/-- `s` after `k` failed attempts of a transfer, counted on from `a`, with one output for each. -/
def afterFails (t : HostTransfer) (a k d : Nat) (s : State) : State :=
  { s with hostAttempts := a + k, draws := d, outputs := List.replicate k (.hostAttempt t s.cfg.hostTimeout) }

/-- One more attempt after the failed ones, and its result, end the transfer. -/
theorem hostEnd_of_attempt (t : HostTransfer) (a k d : Nat) (result : Output) (s : State) :
    (({ afterFails t a k d s with hostPhase := .idle }.out (.hostAttempt t s.cfg.hostTimeout)).out result) =
      { hostEnd t (a + k) (k + 1) result s with draws := d } := by
  simp only [hostEnd, List.replicate_succ', State.out, afterFails]

section Writes

variable {pkt : List Byte} {fails : List HostWriteReply} {sent a : Nat} {s : State}

/-- Failed writes leave bytes to send, and those that accept none leave the same (42_control_packets.md R173). -/
theorem hostWriteRun_afterFails (rs : List HostWriteReply) (hf : ∀ x ∈ fails, x.mayFail)
    (hs : sent + hostAcceptedBytes fails < pkt.length) (hb : a + fails.length ≤ s.cfg.hostRetryBudget) :
    ∃ sent' d, sent' < pkt.length ∧ ((∀ x ∈ fails, x = .wouldBlock ∨ x = .timeout) → sent' = sent) ∧
      hostWriteRun pkt (fails ++ rs) sent { s.fresh with hostAttempts := a } =
        hostWriteRun pkt rs sent' (afterFails .write a fails.length d s) := by
  obtain ⟨sent', d, hleft, hkept, hrun⟩ :=
    hostWriteRun_fails fails rs sent { s.fresh with hostAttempts := a } hf hs hb
  exact ⟨sent', d, hleft, fun h => (hkept h).1, hrun⟩

/-! ### What the next answer of a write does -/

theorem hostWriteRun_accepted {n : Nat} (rs : List HostWriteReply) (hb : s.hostAttempts < s.cfg.hostRetryBudget)
    (hn : pkt.length ≤ sent + n) : hostWriteRun pkt (.accepted n :: rs) sent s =
      (({ s with hostWrites := rs, hostPhase := .idle }.out (.hostAttempt .write s.cfg.hostTimeout)).out
        (.hostSent pkt)) := by
  simp only [hostWriteRun, if_pos hb, if_pos hn]

theorem hostWriteRun_nil (hb : s.hostAttempts < s.cfg.hostRetryBudget) :
    hostWriteRun pkt [] sent s = { s with hostWrites := [], hostPhase := .writing pkt sent } := by
  simp only [hostWriteRun, if_pos hb]

theorem hostWriteRun_hardError (e : HardError) (rs : List HostWriteReply)
    (hb : s.hostAttempts < s.cfg.hostRetryBudget) : hostWriteRun pkt (.hardError e :: rs) sent s =
      hostHardError .write e { s with hostWrites := rs } := by
  simp only [hostWriteRun, if_pos hb]

theorem hostWriteRun_exhausted (rs : List HostWriteReply) (hb : s.hostAttempts = s.cfg.hostRetryBudget) :
    hostWriteRun pkt rs sent s = hostFail .write .retriesExhausted { s with hostWrites := rs } := by
  cases rs <;> simp only [hostWriteRun, if_neg hb.not_lt]

/-! ### A whole write -/

theorem hostWriteRun_succeeds {n : Nat} (hf : ∀ x ∈ fails, x.mayFail)
    (hs : sent + hostAcceptedBytes fails < pkt.length) (hb : a + fails.length < s.cfg.hostRetryBudget)
    (hn : pkt.length ≤ n ∨ ((∀ x ∈ fails, x = .wouldBlock ∨ x = .timeout) ∧ pkt.length ≤ sent + n)) :
    ∃ d, hostWriteRun pkt (fails ++ [.accepted n]) sent { s.fresh with hostAttempts := a } =
      { hostEnd .write (a + fails.length) (fails.length + 1) (.hostSent pkt) s with hostWrites := [], draws := d } := by
  obtain ⟨sent', d, -, hkept, hrun⟩ := hostWriteRun_afterFails [.accepted n] hf hs hb.le
  have hwhole : pkt.length ≤ sent' + n := by
    obtain hn | ⟨hsame, hn⟩ := hn
    · omega
    · rwa [hkept hsame]
  refine ⟨d, ?_⟩
  rw [hrun, hostWriteRun_accepted [] hb hwhole]
  exact hostEnd_of_attempt .write a fails.length d (.hostSent pkt) { s with hostWrites := [] }

theorem hostWriteRun_waits (hf : ∀ x ∈ fails, x.mayFail) (hs : sent + hostAcceptedBytes fails < pkt.length)
    (hb : a + fails.length < s.cfg.hostRetryBudget) :
    ∃ sent' d, sent' < pkt.length ∧ hostWriteRun pkt fails sent { s.fresh with hostAttempts := a } = { s with
      hostAttempts := a + fails.length, hostPhase := .writing pkt sent', hostWrites := [], draws := d
      outputs := List.replicate fails.length (.hostAttempt .write s.cfg.hostTimeout) } := by
  obtain ⟨sent', d, hleft, -, hrun⟩ := hostWriteRun_afterFails [] hf hs hb.le
  rw [List.append_nil] at hrun
  refine ⟨sent', d, hleft, ?_⟩
  rw [hrun, hostWriteRun_nil hb]
  rfl

theorem hostWriteRun_gives_up (rest : List HostWriteReply) (hf : ∀ x ∈ fails, x.mayFail)
    (hs : sent + hostAcceptedBytes fails < pkt.length) (hb : a + fails.length = s.cfg.hostRetryBudget) :
    ∃ d, hostWriteRun pkt (fails ++ rest) sent { s.fresh with hostAttempts := a } =
      { hostEnd .write (a + fails.length) fails.length (hostErrorOf .write .retriesExhausted) s with
        hostWrites := rest, draws := d } := by
  obtain ⟨sent', d, -, -, hrun⟩ := hostWriteRun_afterFails rest hf hs hb.le
  refine ⟨d, ?_⟩
  rw [hrun, hostWriteRun_exhausted rest hb]
  rfl

theorem hostWriteRun_fails_hard (e : HardError) (rest : List HostWriteReply) (hf : ∀ x ∈ fails, x.mayFail)
    (hs : sent + hostAcceptedBytes fails < pkt.length) (hb : a + fails.length < s.cfg.hostRetryBudget) :
    ∃ d, hostWriteRun pkt (fails ++ .hardError e :: rest) sent { s.fresh with hostAttempts := a } =
      { hostEnd .write (a + fails.length) (fails.length + 1) (hostErrorOf .write (.hard e)) s with
        hostWrites := rest, draws := d } := by
  obtain ⟨sent', d, -, -, hrun⟩ := hostWriteRun_afterFails (.hardError e :: rest) hf hs hb.le
  refine ⟨d, ?_⟩
  rw [hrun, hostWriteRun_hardError e rest hb]
  exact hostEnd_of_attempt .write a fails.length d (hostErrorOf .write (.hard e)) { s with hostWrites := rest }

/-! ### The host's move -/

theorem step_of_hostReady {s : State} (h : hostReady s = true) : step s = .next (hostContinue s) := by
  have hchoose : choose s = .hostLoop := if_pos h
  simp only [step, hchoose]

/-- A write that goes on runs before all else, once it has an outcome (00_scope.md R8). -/
theorem step_of_writing (hphase : s.hostPhase = .writing pkt sent) (hne : s.hostWrites ≠ []) :
    step s = .next (hostWriteRun pkt s.hostWrites sent { s.fresh with hostAttempts := s.hostAttempts }) := by
  have hready : hostReady s = true := by simpa only [hostReady, hphase, Bool.not_eq_true', List.isEmpty_eq_false_iff]
  rw [step_of_hostReady hready, hostContinue, hphase]
  rfl

end Writes

/-- Settles O44: the failures are counted from 0 at the start of TXH and from the count reached in a later step. -/
theorem hostWriteSucceedsWithinBudget : Obligations.HostWriteSucceedsWithinBudget := by
  intro fails n s hf
  refine ⟨?_, ?_, ?_⟩
  · rintro r pkt hphase hr rfl hs hb
    have hs0 : 0 + hostAcceptedBytes fails < (wireBytes s.cfg (encRequest s.cfg r)).length := by rwa [Nat.zero_add]
    have hb0 : 0 + fails.length < s.cfg.hostRetryBudget := by rwa [Nat.zero_add]
    refine ⟨fun hwrites hn => ?_, fun hwrites => ?_⟩
    · obtain ⟨d, hrun⟩ := hostWriteRun_succeeds hf hs0 hb0 (.inl hn)
      rw [Nat.zero_add] at hrun
      exact ⟨d, by rw [exec_usbHost_txh hphase hr, hwrites]; exact congrArg _ hrun⟩
    · obtain ⟨sent', d, hleft, hrun⟩ := hostWriteRun_waits hf hs0 hb0
      rw [Nat.zero_add] at hrun
      exact ⟨sent', d, hleft, by rw [exec_usbHost_txh hphase hr, hwrites]; exact congrArg _ hrun⟩
  · intro pkt sent hphase hs hb hwrites hn
    obtain ⟨d, hrun⟩ := hostWriteRun_succeeds hf hs hb hn
    exact ⟨d, by rw [step_of_writing hphase (by simp [hwrites]), hwrites, hrun]⟩
  · intro pkt sent hphase hs hb hwrites hne
    obtain ⟨sent', d, hleft, hrun⟩ := hostWriteRun_waits hf hs hb
    exact ⟨sent', d, hleft, by rw [step_of_writing hphase (hwrites ▸ hne), hwrites, hrun]⟩

/-- Settles O45: at the budget no attempt is made, and a hard error within it is the attempt that ends the transfer. -/
theorem hostWriteErrorAfterBudget : Obligations.HostWriteErrorAfterBudget := by
  intro fails rest e s hf
  refine ⟨fun r hphase hr hs => ?_, fun pkt sent hphase hne hs => ?_⟩
  · rw [← Nat.zero_add (hostAcceptedBytes fails)] at hs
    refine ⟨fun hb hwrites => ?_, fun hb hwrites => ?_⟩
    · obtain ⟨d, hrun⟩ := hostWriteRun_gives_up (a := 0) rest hf hs (by rwa [Nat.zero_add])
      rw [Nat.zero_add] at hrun
      exact ⟨d, by rw [exec_usbHost_txh hphase hr, hwrites]; exact congrArg _ hrun⟩
    · obtain ⟨d, hrun⟩ := hostWriteRun_fails_hard (a := 0) e rest hf hs (by rwa [Nat.zero_add])
      rw [Nat.zero_add] at hrun
      exact ⟨d, by rw [exec_usbHost_txh hphase hr, hwrites]; exact congrArg _ hrun⟩
  · refine ⟨fun hb hwrites => ?_, fun hb hwrites => ?_⟩
    · obtain ⟨d, hrun⟩ := hostWriteRun_gives_up rest hf hs hb
      exact ⟨d, by rw [step_of_writing hphase hne, hwrites, hrun]⟩
    · obtain ⟨d, hrun⟩ := hostWriteRun_fails_hard e rest hf hs hb
      exact ⟨d, by rw [step_of_writing hphase hne, hwrites, hrun]⟩

/-! ### Reads -/

section Reads

variable {fails : List HostReadReply} {a : Nat} {s : State}

theorem hostReadRun_afterFails (rs : List HostReadReply) (hf : ∀ x ∈ fails, x.fails)
    (hb : a + fails.length ≤ s.cfg.hostRetryBudget) :
    hostReadRun (fails ++ rs) { s.fresh with hostAttempts := a } =
      hostReadRun rs (afterFails .read a fails.length s.draws s) :=
  hostReadRun_fails fails rs { s.fresh with hostAttempts := a } hf hb

theorem hostReadRun_data {bytes : List Byte} (rs : List HostReadReply) (hb : s.hostAttempts < s.cfg.hostRetryBudget)
    (hfit : bytes.length ≤ pktCapacity) : hostReadRun (.data bytes :: rs) s =
      (({ s with hostReads := rs, hostPhase := .idle }.out (.hostAttempt .read s.cfg.hostTimeout)).out
        (match decResponse s.cfg bytes with
          | none => .discarded
          | some r => .hostReceived r)) := by
  simp only [hostReadRun, if_pos hb]
  exact hostDeliver_eq _ hfit

theorem hostReadRun_nil (hb : s.hostAttempts < s.cfg.hostRetryBudget) :
    hostReadRun [] s = { s with hostReads := [], hostPhase := .reading } := by
  simp only [hostReadRun, if_pos hb]

theorem hostReadRun_hardError (e : HardError) (rs : List HostReadReply)
    (hb : s.hostAttempts < s.cfg.hostRetryBudget) :
    hostReadRun (.hardError e :: rs) s = hostHardError .read e { s with hostReads := rs } := by
  simp only [hostReadRun, if_pos hb]

theorem hostReadRun_exhausted (rs : List HostReadReply) (hb : s.hostAttempts = s.cfg.hostRetryBudget) :
    hostReadRun rs s = hostFail .read .retriesExhausted { s with hostReads := rs } := by
  cases rs <;> simp only [hostReadRun, if_neg hb.not_lt]

/-- A read that goes on runs before all else, once it has an outcome (00_scope.md R8). -/
theorem step_of_reading_host (hphase : s.hostPhase = .reading) (hne : s.hostReads ≠ []) :
    step s = .next (hostReadRun s.hostReads { s.fresh with hostAttempts := s.hostAttempts }) := by
  have hready : hostReady s = true := by simpa only [hostReady, hphase, Bool.not_eq_true', List.isEmpty_eq_false_iff]
  rw [step_of_hostReady hready, hostContinue, hphase]
  rfl

end Reads

/-- Settles O46: however the read runs, it is `hostReadRun` over the same answers from the same count. -/
theorem hostReadRetriesAndDecodes : Obligations.HostReadRetriesAndDecodes := by
  intro fails rest reads bytes packet e s a run hfit hf hstart
  have hrun : run = .next (hostReadRun reads { s.fresh with hostAttempts := a }) := by
    obtain ⟨hphase, rfl, rfl, rfl⟩ | ⟨hphase, rfl, rfl, rfl⟩ | ⟨hphase, rfl, rfl, hne, rfl⟩ := hstart
    · exact exec_usbHost_rxhBlocked hphase
    · exact exec_usbHost_rxh packet hphase
    · exact step_of_reading_host hphase hne
  subst hrun
  refine ⟨?_, ?_, ?_, ?_⟩
  · rintro hb rfl
    rw [hostReadRun_afterFails _ hf hb.le, hostReadRun_data rest hb hfit]
    exact congrArg _ (hostEnd_of_attempt .read a fails.length s.draws _ { s with hostReads := rest })
  · rintro hb rfl
    rw [hostReadRun_afterFails _ hf hb.le, hostReadRun_hardError e rest hb]
    exact congrArg _ (hostEnd_of_attempt .read a fails.length s.draws _ { s with hostReads := rest })
  · rintro hb rfl
    rw [hostReadRun_afterFails _ hf hb.le, hostReadRun_exhausted rest hb]
    rfl
  · rintro hb rfl
    have h := hostReadRun_afterFails [] hf hb.le
    rw [List.append_nil] at h
    rw [h, hostReadRun_nil hb]
    rfl

end Sys2Proof.Machine
end
